-- ==== Sys2Proof/Word.lean ====
section
/-! DEFINITION. The word types of the spec (00_scope.md, section 6). All values are unsigned; nothing is ever
sign-extended. `Time` is a natural number of ticks of one millisecond (R6, D5): `Nat`. -/

namespace Sys2Proof

/-- A byte: one register cell, one payload byte, a transport error code. -/
abbrev Byte := BitVec 8

/-- `u16`, the spec's two-byte value. -/
abbrev U16 := BitVec 16

/-- A 20-bit word: a CMD word (R71) or a BUS header (R75). -/
abbrev Word20 := BitVec 20

/-- The 59-bit RSP word (R73). -/
abbrev RspWord := BitVec 59

/-- A 7-bit device address (R11). -/
abbrev DevAddr := BitVec 7

end Sys2Proof
end

