-- ==== Sys2Proof/Config.lean ====
section
/-! DEFINITION. The parameters the spec fixes or names (R6), what the environment can do at a transaction (R44, R51,
R58, R205), and the free values: constants without a body for what it chooses (93_implementation_defined.md U1 to U3). -/

namespace Sys2Proof

/-- `EXPECTED_PID` (R6, R28). -/
def Config.expectedPid : U16 := 0x01F6#16

/-- `COUNTER_MAX` (R6). -/
def Config.counterMax : Nat := 1023

/-- `GAIN_MIN` (R6). -/
def Config.gainMin : Nat := 1

/-- `GAIN_MAX` (R6). -/
def Config.gainMax : Nat := 51

/-- `TICKS_PER_SECOND` (R6, D5). -/
def Config.ticksPerSecond : Nat := 1000

/-- Default of `POLL_INTERVAL`: 0.1 s (R6, R13). -/
def Config.defaultPollInterval : Nat := 100

/-- Default of `STUCK_TIMEOUT`: 2.0 s (R6, R14). -/
def Config.defaultStuckTimeout : Nat := 2000

/-- The construction argument `DEV_ADDR` of the block in `State.reset`. DESIGN CHOICE (log 1), unsafe: the spec
gives no default (R52). -/
def Config.resetDevAddr : DevAddr := 0x54#7

/-- The construction argument `GAIN_INIT` of the block in `State.reset`. DESIGN CHOICE (log 1), unsafe: the spec
gives no default. -/
def Config.resetGainInit : Byte := 51#8

/-- What a register cell that nothing has written reads as. DESIGN CHOICE (log 3), unsafe: the spec leaves every
cell unspecified (R38, U8). -/
def Config.blankCell : Byte := 0x00#8

/-- The number of cells of the register map: 0x00 to 0x0B (R36, R40). -/
def Config.mapSize : Nat := 0x0C

/-- Register addresses (R6). -/
def Config.regPid : Nat := 0x00
/-- `VID` (R29). -/
def Config.regVid : Nat := 0x02
/-- `VERSION` (R30). -/
def Config.regVersion : Nat := 0x04
/-- `BUS_ADDR` (R32). -/
def Config.regBusAddr : Nat := 0x07
/-- `COUNTER` (R33). -/
def Config.regCounter : Nat := 0x08
/-- `KEY_STATUS` (R34). -/
def Config.regKeyStatus : Nat := 0x0A
/-- `GAIN` (R35). -/
def Config.regGain : Nat := 0x0B

/-- One move of the environment (R5 agents 4 and 5, R51, R205). -/
inductive EnvMove where
  /-- Button event: `KEY_STATUS <- k` for the nonzero byte `k = n + 1` (R51 (a), U3). Every nonzero byte is one. -/
  | button (n : Fin 255)
  /-- Rotation event: `COUNTER <- c` for `c` in 0 to 1023 (R51 (b), U2). -/
  | rotate (c : Fin 1024)
  /-- The clock shows `t` from now on. Any `t`: the rules are total for a clock that goes back (R136, R206; log 9). -/
  | clock (t : Nat)
  /-- The peripheral is exchanged (R205): the device found at the block's address from now on has these twelve cells,
  with any values in them (U8; log 18). -/
  | exchange (cells : Vector Byte 12)
  /-- Some other master has changed the bus address (R205): `BUS_ADDR <- n + 1`, one of 1 to 127 (R32, R39). The frames
  by which it does so, and whether the peripheral goes on answering at its old address, the spec does not say (log 18).
  -/
  | readdress (n : Fin 127)
deriving DecidableEq, Repr

/-- How the transport answers one transaction (R41, R44): `Ok`, or `Err(e)` with any code `e`. `taken` says whether the
peripheral took a write nevertheless: false under the premise R43 (c), true in the hazard of R198 (U16; log 11). A read
has no effect either way (R50). -/
inductive BusResult where
  | ok
  | err (e : Byte) (taken : Bool)
deriving DecidableEq, Repr, Inhabited

/-- The eight bus frames by name (R48, R76). -/
inductive FrameKind where
  | rdPid | rdInfo | rdCnt | wrCnt | rdKey | wrKeyClr | rdGain | wrGain
deriving DecidableEq, Repr

/-- One thing that can happen between two transactions of the block (R51, R58). -/
inductive BusEvent where
  /-- The peripheral or the clock moves. -/
  | move (m : EnvMove)
  /-- A whole frame of another master or another instance, to any device, and how it was answered (R58, R200). `value`
  is what a `WR_CNT` stores; a `WR_GAIN` stores its low byte; the other six do not use it. -/
  | frame (kind : FrameKind) (dev : DevAddr) (value : U16) (result : BusResult)
deriving DecidableEq, Repr

/-- What the environment does at one bus transaction: what happens since the transaction before, also since the first
of two transactions of one operation (R7, R55, R58), then the transport's answer (R44). -/
structure BusTurn where
  events : List BusEvent
  result : BusResult
deriving DecidableEq, Repr, Inhabited

/-- The environment's choice at a transaction for which `State.busTurns` holds none: a free value (R44, U1; log 6). -/
opaque Config.freeBusTurn : Nat → BusTurn

/-- A byte answered by a device that is not this block's peripheral: a free value (U14; log 8). -/
opaque Config.freeByte : Nat → Byte

end Sys2Proof
end

