-- ==== Sys2Proof/Syntax.lean ====
section
/-! DEFINITION. The syntax of the three formats (R70): the eleven operations and the eight bus frames as `Instr`, one
constructor for each row of spec/opcode_table.json; the packets they travel in; the responses. -/

namespace Sys2Proof

/-- The operations (R72) and the bus frames (R76). Each operation carries the 16-bit `arg` of its CMD word (R71);
nine of them ignore it (R82). A frame carries the device address of its header (R75) and, when its payload is not
fixed, its payload. -/
inductive Instr where
  /-- R101 -/
  | identify (arg : U16)
  /-- R102 -/
  | readInfo (arg : U16)
  /-- R103 -/
  | readCounter (arg : U16)
  /-- R104 -/
  | writeCounter (value : U16)
  /-- R105 -/
  | readGain (arg : U16)
  /-- R106 -/
  | writeGain (value : U16)
  /-- R107, internal path only (R81) -/
  | readKeyStatus (arg : U16)
  /-- R108 -/
  | encoderAsFraction (arg : U16)
  /-- R131 -/
  | poll (arg : U16)
  /-- R132 -/
  | takeDownPending (arg : U16)
  /-- R133 -/
  | isDown (arg : U16)
  /-- read 0x00, 2 bytes -/
  | rdPid (dev : DevAddr)
  /-- read 0x00, 8 bytes -/
  | rdInfo (dev : DevAddr)
  /-- read 0x08, 2 bytes -/
  | rdCnt (dev : DevAddr)
  /-- write 0x08, payload `[hi8(value), lo8(value)]` -/
  | wrCnt (dev : DevAddr) (value : U16)
  /-- read 0x0A, 1 byte -/
  | rdKey (dev : DevAddr)
  /-- write 0x0A, payload `[0x00]` -/
  | wrKeyClr (dev : DevAddr)
  /-- read 0x0B, 1 byte -/
  | rdGain (dev : DevAddr)
  /-- write 0x0B, payload `[value]` -/
  | wrGain (dev : DevAddr) (value : Byte)
deriving DecidableEq, Repr

/-- What travels on one of the block's two ports: a CMD word (R71), or a BUS header with its payload bytes (R75). -/
inductive Packet where
  | cmd (word : Word20)
  | frame (header : Word20) (payload : List Byte)
deriving DecidableEq, Repr

/-- `status` of a response (R73). The code 3 is never produced and has no name here. -/
inductive Status where
  | ok | transportError | illegalCommand
deriving DecidableEq, Repr

/-- A response (R73, R74). -/
structure Rsp where
  status : Status
  flag : Bool
  data : BitVec 56
deriving DecidableEq, Repr

/-- How one transaction was answered: a read's bytes, a write taken, or the transport's error code (R41). -/
inductive Reply where
  | answered (bytes : List Byte)
  | written
  | failed (e : Byte)
deriving DecidableEq, Repr

/-- Who put a frame on the bus: this block, or another master or instance (R58, R200). -/
inductive Master where
  | block | other
deriving DecidableEq, Repr

/-- One transaction as it went over the bus: who issued it, header (R75), payload of a write, reply. -/
structure Transaction where
  master : Master
  header : Word20
  payload : List Byte
  reply : Reply
deriving DecidableEq, Repr

end Sys2Proof
end

