-- ==== Sys2Proof/Machine/State.lean ====
section
/-! DEFINITION. The state of the combined system (R5, R10): the block's registers, the peripheral's register file, the
clock, and the agents' ports as plain data; the stops of the model; the state right after construction (R38, R190). -/

namespace Sys2Proof.Machine

/-- Why the machine stops with a fault. No operation and no frame of the block raises one. -/
inductive Fault where
  /-- Raised by `fetch` for a BUS header that names a cell above 0x0B: "What the peripheral does on such an access is
  not in the source" (R36, U10). Safe: the model stops where a real peripheral would answer something. -/
  | unmappedRegister (reg : BitVec 8)
deriving DecidableEq, Repr

/-- Why the machine gives no meaning. No operation and no frame of the block raises one. -/
inductive Refusal where
  /-- An arm of `exec` without a meaning; no arm is left so. Safe. -/
  | notModelled (mnemonic : String)
  /-- Raised by `fetch` for a BUS frame that is none of the eight (R48; U10 "refuse"). Safe: another master may put
  such a frame on a real bus; the spec gives it no effect. -/
  | undefinedFrame (header : Word20)
  /-- Raised by `construct` for an address outside 1 to 127: "Construction ... is refused: no instance comes to
  exist" (R192). Safe: this is the spec's own outcome. -/
  | constructionRefused (devAddr : Nat)
deriving DecidableEq, Repr

/-- The outcome of an instruction or of a step. -/
abbrev Result (σ : Type) := Host.Outcome σ Fault Refusal

/-- The peripheral's register file: the cells that do not read as `Config.blankCell`, addresses rising. -/
abbrev Memory := List Host.Cell

/-- The canonical form of a register file: addresses strictly rising, no entry that reads as an unlisted cell does, no
entry above 0x0B (R36, R40). -/
abbrev Memory.wf (m : Memory) : Prop :=
  m.Pairwise (fun x y => x.1 < y.1) ∧ ∀ c ∈ m, c.2 ≠ Config.blankCell ∧ c.1 < Config.mapSize

/-- What one agent does next (R5). -/
inductive Turn where
  /-- The caller issues an operation (R71). -/
  | caller (word : Word20)
  /-- The state machine issues an operation to the protocol layer (R81); log 15. -/
  | internal (word : Word20)
  /-- A frame is put on the bus by itself, by another master or another instance (R58, R200); log 8. -/
  | bus (header : Word20) (payload : List Byte)
  /-- The peripheral or the clock moves, or something is done to the peripheral from outside (R5, R51, R205). -/
  | env (move : EnvMove)
  /-- A block instance is constructed in place of the present one (R190): `DEV_ADDR`, `GAIN_INIT`, and the two
  intervals when they are overridden. -/
  | construct (devAddr : Nat) (gainInit : Byte) (pollInterval stuckTimeout : Option Nat)
deriving DecidableEq, Repr

structure State where
  /-- `dev_addr` (R11) -/
  devAddr : DevAddr
  /-- `gain_init` (R12) -/
  gainInit : Byte
  /-- `poll_interval` (R13) -/
  pollInterval : Nat
  /-- `stuck_timeout` (R14) -/
  stuckTimeout : Nat
  /-- `press_count` (R15) -/
  pressCount : Nat
  /-- `last_poll_time` (R17) -/
  lastPollTime : Nat
  /-- `last_poll_valid` (R17) -/
  lastPollValid : Bool
  /-- `last_edge_time` (R18) -/
  lastEdgeTime : Nat
  /-- `last_edge_valid` (R18) -/
  lastEdgeValid : Bool
  /-- `down_pending` (R19) -/
  downPending : Bool
  /-- `up_pending` (R20) -/
  upPending : Bool
  /-- `info_valid` (R21) -/
  infoValid : Bool
  /-- `info_product_id` (R21) -/
  infoProductId : U16
  /-- `info_vendor_id` (R21) -/
  infoVendorId : U16
  /-- `info_version` (R21) -/
  infoVersion : U16
  /-- `info_bus_address` (R21) -/
  infoBusAddress : Byte
  /-- The register file of the device that answers at `dev_addr` (R28 to R36, R205; log 17, 18): the environment's, never
  reset by the block -/
  regs : Memory
  /-- The value the external clock shows (R170): the environment's -/
  clock : Nat
  /-- What the agents do next, oldest first (R5, R7); log 5 -/
  agenda : List Turn
  /-- What the environment does at the coming transactions (R44, R51); log 6 -/
  busTurns : List BusTurn
  /-- The counter the free values are applied to; log 6 -/
  freeCount : Nat
  /-- The responses given so far, newest first (R73); log 7 -/
  responses : List Rsp
  /-- The transactions so far, newest first (R75); log 7 -/
  trace : List Transaction
deriving DecidableEq, Repr

/-- The state right after construction with the model's arguments (R38, R191; log 1, 2, 3, 4). -/
def State.reset : State where
  devAddr := Config.resetDevAddr
  gainInit := Config.resetGainInit
  pollInterval := Config.defaultPollInterval
  stuckTimeout := Config.defaultStuckTimeout
  pressCount := 0
  lastPollTime := 0
  lastPollValid := false
  lastEdgeTime := 0
  lastEdgeValid := false
  downPending := false
  upPending := false
  infoValid := false
  infoProductId := 0#16
  infoVendorId := 0#16
  infoVersion := 0#16
  infoBusAddress := 0#8
  regs := []
  clock := 0
  agenda := []
  busTurns := []
  freeCount := 0
  responses := []
  trace := []

end Sys2Proof.Machine
end

