-- ==== Sys2Proof/Machine/Flags.lean ====
section
/-! DEFINITION. The block's conditions (R26): the parity of `press_count`, from which the logical button state is
derived (R16), and the two tests against the clock (R131). -/

namespace Sys2Proof.Machine

/-- The logical button states (R16, R134). -/
inductive Fsm where
  | up | down
deriving DecidableEq, Repr

/-- `press_count mod 2 = 1` (R16). -/
def State.isOdd (s : State) : Bool := s.pressCount % 2 == 1

/-- `fsm = DOWN if S.press_count mod 2 = 1 else UP` (R16). -/
def State.fsm (s : State) : Fsm := if s.isOdd then .down else .up

/-- Step 1 of `POLL` (R131): strictly less than the interval since the last effective poll, if there was one. -/
def State.rateLimited (s : State) (now : Nat) : Bool :=
  s.lastPollValid && decide (now < s.lastPollTime + s.pollInterval)

/-- The test of step 4 of `POLL` (R131): DOWN, and strictly more than the timeout since the edge. -/
def State.stuck (s : State) (now : Nat) : Bool :=
  s.isOdd && decide (now > s.lastEdgeTime + s.stuckTimeout)

end Sys2Proof.Machine
end

