-- ==== Sys2Proof/WellFormed.lean ====
section
/-! DEFINITION. Which instructions are frames and operations as this block issues and accepts them. Every CMD word
with a legal `op` is well formed, whatever its argument (R80, R82). A frame is well formed when its device address is
a legal one, 1 to 127 (R40), and its payload is one the block sends (R33, R35, R48). -/

namespace Sys2Proof

/-- A device address of the bus: 1 to 127 (R40); the type leaves only 0 to exclude. -/
def legalDev (dev : DevAddr) : Bool := dev != 0#7

def Instr.wellFormed : Instr → Bool
  | .identify _ => true
  | .readInfo _ => true
  | .readCounter _ => true
  | .writeCounter _ => true
  | .readGain _ => true
  | .writeGain _ => true
  | .readKeyStatus _ => true
  | .encoderAsFraction _ => true
  | .poll _ => true
  | .takeDownPending _ => true
  | .isDown _ => true
  | .rdPid dev => legalDev dev
  | .rdInfo dev => legalDev dev
  | .rdCnt dev => legalDev dev
  | .wrCnt dev value => legalDev dev && decide (value.toNat ≤ Config.counterMax)
  | .rdKey dev => legalDev dev
  | .wrKeyClr dev => legalDev dev
  | .rdGain dev => legalDev dev
  | .wrGain dev value =>
    legalDev dev && decide (Config.gainMin ≤ value.toNat) && decide (value.toNat ≤ Config.gainMax)

end Sys2Proof
end

