-- ==== Sys2Proof/Decode.lean ====
section
/-! DEFINITION. Decoding and encoding of the three formats (30_encoding.md): CMD words, BUS frames, RSP words. The
decoder is total and rejects by name. -/

namespace Sys2Proof

/-- `be16(b0, b1)` (R77): `b0` comes from the lower register address and is the more significant byte. -/
def be16 (b0 b1 : Byte) : U16 := (b0.setWidth 16 <<< 8) ||| b1.setWidth 16

/-- `hi8(v) = v[15:8]` (R77). -/
def hi8 (v : U16) : Byte := v.extractLsb' 8 8

/-- `lo8(v) = v[7:0]` (R77). -/
def lo8 (v : U16) : Byte := v.extractLsb' 0 8

/-! ### BUS frames (R75, R76) -/

/-- `dir` (R76): true is `write_block`. -/
def FrameKind.isWrite : FrameKind → Bool
  | .rdPid | .rdInfo | .rdCnt | .rdKey | .rdGain => false
  | .wrCnt | .wrKeyClr | .wrGain => true

/-- `reg`, the first register address (R76). -/
def FrameKind.reg : FrameKind → BitVec 8
  | .rdPid => 0x00#8
  | .rdInfo => 0x00#8
  | .rdCnt => 0x08#8
  | .wrCnt => 0x08#8
  | .rdKey => 0x0A#8
  | .wrKeyClr => 0x0A#8
  | .rdGain => 0x0B#8
  | .wrGain => 0x0B#8

/-- `len`, the number of bytes (R76). -/
def FrameKind.len : FrameKind → BitVec 4
  | .rdPid => 2#4
  | .rdInfo => 8#4
  | .rdCnt => 2#4
  | .wrCnt => 2#4
  | .rdKey => 1#4
  | .wrKeyClr => 1#4
  | .rdGain => 1#4
  | .wrGain => 1#4

/-- The header layout of R75: `dir` 19, `dev` 18:12, `reg` 11:4, `len` 3:0. -/
def busHeader (isWrite : Bool) (dev : DevAddr) (reg : BitVec 8) (len : BitVec 4) : Word20 :=
  BitVec.ofBool isWrite ++ dev ++ reg ++ len

/-- The header of a frame to the device `dev` (R76). -/
def FrameKind.header (k : FrameKind) (dev : DevAddr) : Word20 := busHeader k.isWrite dev k.reg k.len

def FrameKind.all : List FrameKind :=
  [.rdPid, .rdInfo, .rdCnt, .wrCnt, .rdKey, .wrKeyClr, .rdGain, .wrGain]

/-- `dev` of a header (R75). -/
def headerDev (h : Word20) : DevAddr := h.extractLsb' 12 7

/-- The first register address of a header (R75). -/
def headerReg (h : Word20) : BitVec 8 := h.extractLsb' 4 8

/-- The length of a header (R75). -/
def headerLen (h : Word20) : BitVec 4 := h.extractLsb' 0 4

/-- "A decoder tells the frames apart with mask 0x80FFF" (R76). -/
def frameKindOf (h : Word20) : Option FrameKind :=
  FrameKind.all.find? fun k => k.header 0#7 == h &&& 0x80FFF#20

/-- The names under which the decoder rejects a packet. -/
inductive Reject where
  /-- A CMD word with `op` 0xB to 0xF (R81). -/
  | reservedOp (op : BitVec 4)
  /-- A BUS header that reaches past the cell 0x0B (R36). -/
  | unmappedRegister (reg : BitVec 8)
  /-- A BUS header or payload that is none of the eight frames (R48). -/
  | undefinedFrame (header : Word20)
deriving DecidableEq, Repr

/-- CMD words (R71, R72). -/
def decodeCmd (w : Word20) : Except Reject Instr :=
  let op := w.extractLsb' 16 4
  let arg := w.extractLsb' 0 16
  match op.toNat with
  | 0x0 => .ok (.identify arg)
  | 0x1 => .ok (.readInfo arg)
  | 0x2 => .ok (.readCounter arg)
  | 0x3 => .ok (.writeCounter arg)
  | 0x4 => .ok (.readGain arg)
  | 0x5 => .ok (.writeGain arg)
  | 0x6 => .ok (.readKeyStatus arg)
  | 0x7 => .ok (.encoderAsFraction arg)
  | 0x8 => .ok (.poll arg)
  | 0x9 => .ok (.takeDownPending arg)
  | 0xA => .ok (.isDown arg)
  | _ => .error (.reservedOp op)

/-- The payload of a frame that carries `value`: big-endian for `WR_CNT` (R77), `[0x00]` for `WR_KEY_CLR`, the low byte
for `WR_GAIN`, none for a read (R76). -/
def FrameKind.payload (k : FrameKind) (value : U16) : List Byte :=
  match k with
  | .wrCnt => [hi8 value, lo8 value]
  | .wrKeyClr => [0x00#8]
  | .wrGain => [lo8 value]
  | .rdPid | .rdInfo | .rdCnt | .rdKey | .rdGain => []

/-- Why a header is none of the eight frames: it reaches past the register map (R36), or the block knows no such
frame (R48). -/
def rejectFrame (h : Word20) : Reject :=
  if (headerReg h).toNat + (headerLen h).toNat ≤ Config.mapSize then .undefinedFrame h
  else .unmappedRegister (headerReg h)

/-- The instruction of a frame without payload. -/
def noPayload (payload : List Byte) (i : Instr) : Option Instr :=
  match payload with
  | [] => some i
  | _ :: _ => none

/-- The instruction of a frame with one payload byte. -/
def onePayload (payload : List Byte) (f : Byte → Option Instr) : Option Instr :=
  match payload with
  | [b] => f b
  | [] | _ :: _ :: _ => none

/-- The instruction of a frame with two payload bytes, most significant first (R77). -/
def twoPayload (payload : List Byte) (f : U16 → Option Instr) : Option Instr :=
  match payload with
  | [b0, b1] => f (be16 b0 b1)
  | [] | [_] | _ :: _ :: _ :: _ => none

/-- The frame with its payload: a read has none, a write has the payload of its row (R76). -/
def FrameKind.instr? (k : FrameKind) (dev : DevAddr) (payload : List Byte) : Option Instr :=
  match k with
  | .rdPid => noPayload payload (.rdPid dev)
  | .rdInfo => noPayload payload (.rdInfo dev)
  | .rdCnt => noPayload payload (.rdCnt dev)
  | .wrCnt => twoPayload payload fun v => some (.wrCnt dev v)
  | .rdKey => noPayload payload (.rdKey dev)
  | .wrKeyClr => onePayload payload fun b => if b = 0x00#8 then some (.wrKeyClr dev) else none
  | .rdGain => noPayload payload (.rdGain dev)
  | .wrGain => onePayload payload fun b => some (.wrGain dev b)

/-- BUS frames (R75, R76). -/
def decodeFrame (h : Word20) (payload : List Byte) : Except Reject Instr :=
  match (frameKindOf h).bind fun k => k.instr? (headerDev h) payload with
  | some i => .ok i
  | none => .error (rejectFrame h)

/-- The decoder: total on every packet. -/
def decode : Packet → Except Reject Instr
  | .cmd w => decodeCmd w
  | .frame h payload => decodeFrame h payload

/-- A CMD word (R71): `op` in 19:16, `arg` in 15:0. -/
def cmdWord (op : BitVec 4) (arg : U16) : Word20 := op ++ arg

/-- The encoder (R72, R76). -/
def encode : Instr → Packet
  | .identify arg => .cmd (cmdWord 0x0#4 arg)
  | .readInfo arg => .cmd (cmdWord 0x1#4 arg)
  | .readCounter arg => .cmd (cmdWord 0x2#4 arg)
  | .writeCounter arg => .cmd (cmdWord 0x3#4 arg)
  | .readGain arg => .cmd (cmdWord 0x4#4 arg)
  | .writeGain arg => .cmd (cmdWord 0x5#4 arg)
  | .readKeyStatus arg => .cmd (cmdWord 0x6#4 arg)
  | .encoderAsFraction arg => .cmd (cmdWord 0x7#4 arg)
  | .poll arg => .cmd (cmdWord 0x8#4 arg)
  | .takeDownPending arg => .cmd (cmdWord 0x9#4 arg)
  | .isDown arg => .cmd (cmdWord 0xA#4 arg)
  | .rdPid dev => .frame (FrameKind.rdPid.header dev) []
  | .rdInfo dev => .frame (FrameKind.rdInfo.header dev) []
  | .rdCnt dev => .frame (FrameKind.rdCnt.header dev) []
  | .wrCnt dev value => .frame (FrameKind.wrCnt.header dev) [hi8 value, lo8 value]
  | .rdKey dev => .frame (FrameKind.rdKey.header dev) []
  | .wrKeyClr dev => .frame (FrameKind.wrKeyClr.header dev) [0x00#8]
  | .rdGain dev => .frame (FrameKind.rdGain.header dev) []
  | .wrGain dev value => .frame (FrameKind.wrGain.header dev) [value]

/-! ### RSP words (R73) -/

/-- The numeric status codes (R73, D3). -/
def Status.code : Status → BitVec 2
  | .ok => 0#2
  | .transportError => 1#2
  | .illegalCommand => 2#2

/-- `status` from its code; 3 is never produced (R73). -/
def Status.ofCode (c : BitVec 2) : Option Status :=
  match c.toNat with
  | 0 => some .ok
  | 1 => some .transportError
  | 2 => some .illegalCommand
  | _ => none

/-- The RSP word: `status` 58:57, `flag` 56, `data` 55:0 (R73). -/
def Rsp.toWord (r : Rsp) : RspWord := r.status.code ++ BitVec.ofBool r.flag ++ r.data

/-- The response a word stands for; none for `status = 3`. -/
def Rsp.ofWord (w : RspWord) : Option Rsp :=
  (Status.ofCode (w.extractLsb' 57 2)).map fun st => ⟨st, w.getLsbD 56, w.extractLsb' 0 56⟩

/-! ### Words of the opcode table

The table numbers a row's bits without saying which format the word is in, and the words of the two formats overlap: a
CMD word and a BUS header are told apart by the port they arrive on, not by their bits. A table word that has the fixed
bits of a BUS row is read as that frame, any other as a CMD word (DESIGN CHOICE, log 14). -/

/-- The payload bytes of a table word: the bits above its 20-bit header, which fills three whole bytes. -/
def tablePayload (w : Nat) : Nat → List Byte
  | 0 => []
  | n + 1 => BitVec.ofNat 8 (w >>> 24) :: tablePayload (w >>> 8) n

/-- The packet that a word of spec/opcode_table.json lays out. -/
def packetOfTableWord (w : Nat) : Packet :=
  let h := BitVec.ofNat 20 w
  match frameKindOf h with
  | some k => .frame h (if k.isWrite then tablePayload w k.len.toNat else [])
  | none => .cmd h

/-- The instruction the decoder reads from a table word of `nbits` bits; none where the decoder rejects it, and none
for a row that is not a 20-bit word in its three bytes. -/
def decodeTableWord (nbits w : Nat) : Option Instr :=
  if nbits < 20 ∨ (w >>> 20) % 16 ≠ 0 then none
  else
    match decode (packetOfTableWord w) with
    | .ok i => some i
    | .error _ => none

end Sys2Proof
end

