-- ==== Sys2Proof/Machine/Operands.lean ====
section
/-! DEFINITION. Operands: the arguments of the two write operations and their ranges (R80, R104, R106), the fields of
a read's answer (R77, R78), and the responses (R74). -/

namespace Sys2Proof.Machine

/-- The range test of `WRITE_COUNTER`: on the whole 16-bit argument (R80, R104). -/
def counterInRange (value : U16) : Bool := decide (value.toNat ≤ Config.counterMax)

/-- The range test of `WRITE_GAIN`: on the whole 16-bit argument, never truncated (R80, R106). -/
def gainInRange (value : U16) : Bool :=
  decide (Config.gainMin ≤ value.toNat) && decide (value.toNat ≤ Config.gainMax)

/-- Byte `i` of a read's answer. An answer has as many bytes as were asked for (R43 (a)), so that the byte past the
end is never looked at. -/
def byteAt (bytes : List Byte) (i : Nat) : Byte := bytes.getD i 0x00#8

/-- The two-byte value at offset `i` of a read's answer, big-endian (R77). -/
def wordAt (bytes : List Byte) (i : Nat) : U16 := be16 (byteAt bytes i) (byteAt bytes (i + 1))

/-- `status = OK` (R74). -/
def okRsp (flag : Bool) (data : BitVec 56) : Rsp := ⟨.ok, flag, data⟩

/-- `status = TRANSPORT_ERROR`, the code in `data[7:0]` (R73, R161). -/
def transportErrorRsp (e : Byte) : Rsp := ⟨.transportError, false, e.setWidth 56⟩

/-- `status = ILLEGAL_COMMAND`, all else 0 (R73, R81). -/
def illegalCommandRsp : Rsp := ⟨.illegalCommand, false, 0#56⟩

/-- `READ_INFO`'s data: `product_id ++ vendor_id ++ version ++ bus_address` (R74). -/
def infoData (productId vendorId version : U16) (busAddress : Byte) : BitVec 56 :=
  productId ++ vendorId ++ version ++ busAddress

/-- The value of `ENCODER_AS_FRACTION`: the rational `n / 1023` of the numerator delivered (R108, D17). -/
def fractionOf (r : Rsp) : Rat := (r.data.toNat : Rat) / (Config.counterMax : Rat)

end Sys2Proof.Machine
end

