-- ==== Sys2Proof/Machine/Ops.lean ====
section
/-! DEFINITION. The shared operations: the register file (R46), the environment's moves (R51), one transaction of any
master (R41, R58), the block's two calls (R42), the response of an operation, and the end of an operation by a transport
error (R100, R161), which is this hardware's only exception and has no return step (R167). -/

namespace Sys2Proof.Machine

/-! ### The peripheral's register file -/

/-- The content of a cell. -/
def Memory.read : Memory → Nat → Byte
  | [], _ => Config.blankCell
  | (b, w) :: rest, a => if a = b then w else Memory.read rest a

/-- The register file without the cell `a`: that cell then reads as an unlisted one does. -/
def Memory.drop (m : Memory) (a : Nat) : Memory := m.filter fun c => c.1 != a

/-- Puts a cell in front of the first one with a higher address. -/
def Memory.place (a : Nat) (v : Byte) : Memory → Memory
  | [] => [(a, v)]
  | c :: rest => if a < c.1 then (a, v) :: c :: rest else c :: Memory.place a v rest

/-- Stores one byte, keeping the canonical form: the value an unlisted cell reads as removes the entry. -/
def Memory.write (m : Memory) (a : Nat) (v : Byte) : Memory :=
  if v = Config.blankCell then m.drop a else Memory.place a v (m.drop a)

/-- The `n` cells from `reg` on, lowest address first (R46). -/
def Memory.readBlock (m : Memory) (reg n : Nat) : List Byte := (List.range n).map fun i => m.read (reg + i)

/-- Stores `bytes[i]` into cell `reg + i` (R46). -/
def Memory.writeBlock (m : Memory) (reg : Nat) : List Byte → Memory
  | [] => m
  | b :: bs => Memory.writeBlock (m.write reg b) (reg + 1) bs

/-- A two-byte register: most significant byte at the lower address (R45). -/
def Memory.read16 (m : Memory) (reg : Nat) : U16 := be16 (m.read reg) (m.read (reg + 1))

/-! ### The environment (R5, R51, R205) -/

/-- The byte of a button event: every nonzero byte is one (R51 (a)). -/
def buttonByte (n : Fin 255) : Byte := BitVec.ofNat 8 (n.val + 1)

/-- The byte of a new bus address, in 1 to 127 (R39). -/
def busAddrByte (n : Fin 127) : Byte := BitVec.ofNat 8 (n.val + 1)

/-- The two bytes of a counter value, most significant first (R45, R77). -/
def counterBytes (v : U16) : List Byte := [hi8 v, lo8 v]

/-- The peripheral's cells hold `m`. -/
def State.setRegs (s : State) (m : Memory) : State := { s with regs := m }

/-- One move of the peripheral or the clock (R51), or what was done to the peripheral from outside (R205). -/
def State.applyMove (s : State) : EnvMove → State
  | .button n => s.setRegs (s.regs.write Config.regKeyStatus (buttonByte n))
  | .rotate c => s.setRegs (s.regs.writeBlock Config.regCounter (counterBytes (BitVec.ofNat 16 c.val)))
  | .clock t => { s with clock := t }
  | .exchange cells => s.setRegs (s.regs.writeBlock Config.regPid cells.toList)
  | .readdress n => s.setRegs (s.regs.write Config.regBusAddr (busAddrByte n))

/-- What the environment does at the next transaction: the next entry of `busTurns`, a free value when there is none
(R44; log 6). -/
def State.nextTurn (s : State) : BusTurn :=
  match s.busTurns with
  | turn :: _ => turn
  | [] => Config.freeBusTurn s.freeCount

/-- Uses that choice up. -/
def State.dropTurn (s : State) : State :=
  match s.busTurns with
  | _ :: rest => { s with busTurns := rest }
  | [] => { s with freeCount := s.freeCount + 1 }

/-! ### One transaction, as any master issues it (R41 to R49) -/

/-- One more transaction in the bus record. -/
def State.record (s : State) (t : Transaction) : State := { s with trace := t :: s.trace }

/-- `n` free bytes: the answer of a device that is not this block's peripheral (U14; log 8). -/
def State.foreignBytes (s : State) (n : Nat) : List Byte :=
  (List.range n).map fun i => Config.freeByte (s.freeCount + i)

/-- The bytes a successful read of frame `k` at the device `dev` answers: the cells of the peripheral at
`S.dev_addr` (R43 (b), R46), free bytes of another device. DESIGN CHOICE (log 17), safe: an `Ok` at `S.dev_addr` hands
over the cells of `regs`, also when no device is there. What a transport then hands over the spec leaves open (R162,
U14: any value at each occurrence), and so does the model: an `EnvMove.exchange` may come before any transaction. -/
def State.answerBytes (s : State) (k : FrameKind) (dev : DevAddr) : List Byte :=
  if dev = s.devAddr then s.regs.readBlock k.reg.toNat k.len.toNat else s.foreignBytes k.len.toNat

/-- The state after a successful read: reads have no side effect (R50); the free bytes of another device are used
up. -/
def State.afterAnswer (s : State) (k : FrameKind) (dev : DevAddr) : State :=
  if dev = s.devAddr then s else { s with freeCount := s.freeCount + k.len.toNat }

/-- The state after a successful write: `bytes[i]` in cell `reg + i` of the peripheral at `S.dev_addr` (R46;
log 17); another device's cells are not part of this state (R58). -/
def State.afterWrite (s : State) (k : FrameKind) (dev : DevAddr) (payload : List Byte) : State :=
  if dev = s.devAddr then s.setRegs (s.regs.writeBlock k.reg.toNat payload) else s

/-- The state after a failed write: no cell has changed (R43 (c), R49), unless the transport failed after the
peripheral took the write (R198, U16; log 11). -/
def State.afterFailedWrite (s : State) (k : FrameKind) (dev : DevAddr) (payload : List Byte) (taken : Bool) : State :=
  if taken then s.afterWrite k dev payload else s

/-- A read frame `k` of the master `m` to the device `dev`, answered `r`: the bytes or the error code, and one entry in
the bus record. -/
def State.readAs (s : State) (m : Master) (k : FrameKind) (dev : DevAddr) (r : BusResult) :
    Except Byte (List Byte) × State :=
  match r with
  | .err e _ => (.error e, s.record ⟨m, k.header dev, [], .failed e⟩)
  | .ok =>
    (.ok (s.answerBytes k dev),
      (s.afterAnswer k dev).record ⟨m, k.header dev, [], .answered (s.answerBytes k dev)⟩)

/-- A write frame, likewise. -/
def State.writeAs (s : State) (m : Master) (k : FrameKind) (dev : DevAddr) (payload : List Byte) (r : BusResult) :
    Except Byte Unit × State :=
  match r with
  | .err e taken => (.error e, (s.afterFailedWrite k dev payload taken).record ⟨m, k.header dev, payload, .failed e⟩)
  | .ok => (.ok (), (s.afterWrite k dev payload).record ⟨m, k.header dev, payload, .written⟩)

/-- A whole frame of another master, answered `r` (R58, R200; log 8). A read frame has no payload. -/
def State.foreignFrame (s : State) (k : FrameKind) (dev : DevAddr) (payload : List Byte) (r : BusResult) : State :=
  if k.isWrite then (s.writeAs .other k dev payload r).2 else (s.readAs .other k dev r).2

/-! ### What happens between two transactions (R51, R55, R58) -/

/-- One event. -/
def State.applyEvent (s : State) : BusEvent → State
  | .move m => s.applyMove m
  | .frame kind dev value result => s.foreignFrame kind dev (kind.payload value) result

/-- Several events, in order. -/
def State.environment (s : State) (events : List BusEvent) : State := events.foldl State.applyEvent s

/-- The state in which the next transaction acts: what the environment does before it has happened. -/
def State.atBus (s : State) : State := s.dropTurn.environment s.nextTurn.events

/-- A frame that another master puts on the bus by itself (log 8). -/
def State.busFrame (s : State) (k : FrameKind) (dev : DevAddr) (payload : List Byte) : State :=
  s.atBus.foreignFrame k dev payload s.nextTurn.result

/-! ### The block's two memory primitives (R42) -/

/-- `MemRead(reg, n)` of the frame `k`: a read at `S.dev_addr`. -/
def State.memRead (s : State) (k : FrameKind) : Except Byte (List Byte) × State :=
  s.atBus.readAs .block k s.devAddr s.nextTurn.result

/-- `MemWrite(reg, n, bytes)` of the frame `k`: a write at `S.dev_addr`. -/
def State.memWrite (s : State) (k : FrameKind) (payload : List Byte) : Except Byte Unit × State :=
  s.atBus.writeAs .block k s.devAddr payload s.nextTurn.result

/-! ### Responses -/

/-- The operation ends with the response `r` (R100). -/
def State.respond (s : State) (r : Rsp) : State := { s with responses := r :: s.responses }

/-- The operation ends at the failed transaction: no later line runs, and the response carries the transport's code
(R100, R161). There is no handler, no saved context and no return step (R166, R167). -/
def State.raiseTransportError (s : State) (e : Byte) : State := s.respond (transportErrorRsp e)

/-- Goes on with `onOk` after a successful transaction, ends the operation after a failed one (R100). -/
def finish {α : Type} (r : Except Byte α × State) (onOk : α → State → State) : State :=
  match r with
  | (.error e, t) => t.raiseTransportError e
  | (.ok v, t) => onOk v t

/-- `READ_KEY_STATUS` without its response: read, and when the byte is nonzero clear it by writing zero, before true
is returned (R107). Shared by the operation and by `POLL` step 2. -/
def State.readAndAcknowledge (s : State) : Except Byte Bool × State :=
  match s.memRead .rdKey with
  | (.error e, t) => (.error e, t)
  | (.ok bytes, t) =>
    if byteAt bytes 0 = 0x00#8 then (.ok false, t)
    else
      match t.memWrite .wrKeyClr [0x00#8] with
      | (.error e, u) => (.error e, u)
      | (.ok _, u) => (.ok true, u)

end Sys2Proof.Machine
end

