-- ==== Sys2Proof/Machine/BusFrames.lean ====
section
/-! DEFINITION. The eight bus frames (R48, R76) as transactions by themselves, put on the bus by the bus agent
(log 8): a read is answered with the cells it covers, a write stores its payload (R46), and the reply goes to the bus
record. -/

namespace Sys2Proof.Machine

/-- `RD_PID` -/
def execRdPid (dev : DevAddr) (s : State) : Result State := .next (s.busFrame .rdPid dev [])

/-- `RD_INFO` -/
def execRdInfo (dev : DevAddr) (s : State) : Result State := .next (s.busFrame .rdInfo dev [])

/-- `RD_CNT` -/
def execRdCnt (dev : DevAddr) (s : State) : Result State := .next (s.busFrame .rdCnt dev [])

/-- `WR_CNT` -/
def execWrCnt (dev : DevAddr) (value : U16) (s : State) : Result State :=
  .next (s.busFrame .wrCnt dev (counterBytes value))

/-- `RD_KEY` -/
def execRdKey (dev : DevAddr) (s : State) : Result State := .next (s.busFrame .rdKey dev [])

/-- `WR_KEY_CLR` -/
def execWrKeyClr (dev : DevAddr) (s : State) : Result State := .next (s.busFrame .wrKeyClr dev [0x00#8])

/-- `RD_GAIN` -/
def execRdGain (dev : DevAddr) (s : State) : Result State := .next (s.busFrame .rdGain dev [])

/-- `WR_GAIN` -/
def execWrGain (dev : DevAddr) (value : Byte) (s : State) : Result State :=
  .next (s.busFrame .wrGain dev [value])

end Sys2Proof.Machine
end

