-- ==== Sys2Proof/Machine/ButtonDebounce.lean ====
section
/-! DEFINITION. The three operations of the Button Debounce State Machine (41_button_debounce.md). -/

namespace Sys2Proof.Machine

/-- `POLL` step 2, first half: this is the last effective poll (R131). -/
def State.recordPoll (s : State) (now : Nat) : State := { s with lastPollTime := now, lastPollValid := true }

/-- Step 3 counted an edge from even to odd (R131). -/
def State.downNow (s : State) (edge : Bool) : Bool := edge && !s.isOdd

/-- `POLL` step 3: count the edge; UP to DOWN records its time, DOWN to UP is a genuine release (R131). -/
def State.countEdge (s : State) (now : Nat) (edge : Bool) : State :=
  if edge then
    if s.isOdd then { s with pressCount := s.pressCount + 1, upPending := true }
    else { s with pressCount := s.pressCount + 1, lastEdgeTime := now, lastEdgeValid := true }
  else s

/-- `POLL` step 4: forced recovery (R131, R134). -/
def State.forceUp (s : State) : State := { s with pressCount := 0, downPending := false, upPending := true }

/-- `POLL` step 5: raise the one-shot (R131). -/
def State.raiseDown (s : State) : State := { s with downPending := true }

/-- `POLL` steps 4 and 5, on the state step 3 left: forced recovery; else, when step 3 went from even to odd and no
notification is waiting, a new one (R131). -/
def State.recoverOrNotify (s : State) (now : Nat) (downNow : Bool) : State :=
  if s.stuck now then s.forceUp
  else if downNow && !s.downPending then s.raiseDown
  else s

/-- `POLL` steps 3 to 5 (R131). -/
def State.debounce (s : State) (now : Nat) (edge : Bool) : State :=
  (s.countEdge now edge).recoverOrNotify now (s.downNow edge)

/-- `POLL` (R131). The clock is sampled once, at the start (D6). A transport error ends it after step 2 (R135). -/
def execPoll (s : State) : Result State :=
  .next (if s.rateLimited s.clock then s.respond (okRsp false 0#56)
  else
    finish (s.recordPoll s.clock).readAndAcknowledge fun edge t =>
      (t.debounce s.clock edge).respond (okRsp false 0#56))

/-- The notification is consumed (R132). -/
def State.clearDown (s : State) : State := { s with downPending := false }

/-- `TAKE_DOWN_PENDING` (R132): read and clear. -/
def execTakeDownPending (s : State) : Result State :=
  .next ((if s.downPending then s.clearDown else s).respond (okRsp s.downPending 0#56))

/-- `IS_DOWN` (R133): a pure query of the parity. -/
def execIsDown (s : State) : Result State := .next (s.respond (okRsp s.isOdd 0#56))

end Sys2Proof.Machine
end

