-- ==== Sys2Proof/Machine/RegisterProtocol.lean ====
section
/-! DEFINITION. The eight operations of the Register Protocol Layer (40_register_protocol.md). -/

namespace Sys2Proof.Machine

/-- `IDENTIFY` (R101). -/
def execIdentify (s : State) : Result State :=
  .next (finish (s.memRead .rdPid) fun bytes t =>
    t.respond (okRsp (wordAt bytes 0 == Config.expectedPid) ((wordAt bytes 0).setWidth 56)))

/-- The identity cache takes the four fields of the burst; byte 6 is dropped (R21, R78, R102). -/
def State.cacheInfo (s : State) (bytes : List Byte) : State :=
  { s with
    infoProductId := wordAt bytes 0
    infoVendorId := wordAt bytes 2
    infoVersion := wordAt bytes 4
    infoBusAddress := byteAt bytes 7
    infoValid := true }

/-- `READ_INFO` (R102). -/
def execReadInfo (s : State) : Result State :=
  .next (finish (s.memRead .rdInfo) fun bytes t =>
    (t.cacheInfo bytes).respond
      (okRsp false (infoData (wordAt bytes 0) (wordAt bytes 2) (wordAt bytes 4) (byteAt bytes 7))))

/-- `READ_COUNTER` (R103): the value as read, not re-validated. -/
def execReadCounter (s : State) : Result State :=
  .next (finish (s.memRead .rdCnt) fun bytes t =>
    t.respond (okRsp false ((wordAt bytes 0).setWidth 56)))

/-- `WRITE_COUNTER` (R104): an out-of-range value issues no frame. -/
def execWriteCounter (value : U16) (s : State) : Result State :=
  .next (if counterInRange value then
    finish (s.memWrite .wrCnt (counterBytes value)) fun _ t => t.respond (okRsp true 0#56)
  else s.respond (okRsp false 0#56))

/-- `READ_GAIN` (R105): the byte as read. -/
def execReadGain (s : State) : Result State :=
  .next (finish (s.memRead .rdGain) fun bytes t =>
    t.respond (okRsp false ((byteAt bytes 0).setWidth 56)))

/-- `WRITE_GAIN` (R106): compared on 16 bits, an out-of-range value issues no frame. -/
def execWriteGain (value : U16) (s : State) : Result State :=
  .next (if gainInRange value then
    finish (s.memWrite .wrGain [lo8 value]) fun _ t => t.respond (okRsp true 0#56)
  else s.respond (okRsp false 0#56))

/-- `READ_KEY_STATUS` (R107), on the internal path (R81). -/
def execReadKeyStatus (s : State) : Result State :=
  .next (finish s.readAndAcknowledge fun edge t => t.respond (okRsp edge 0#56))

/-- `ENCODER_AS_FRACTION` (R108): the numerator of `n / 1023`. -/
def execEncoderAsFraction (s : State) : Result State :=
  .next (finish (s.memRead .rdCnt) fun bytes t =>
    t.respond (okRsp false ((wordAt bytes 0).setWidth 56)))

end Sys2Proof.Machine
end

