-- ==== Sys2Proof/Machine/Dispatch.lean ====
section
/-! DEFINITION. One arm for each row of spec/opcode_table.json. -/

namespace Sys2Proof.Machine

-- The argument of the nine operations without an operand is ignored (R82).
def exec (i : Instr) (s : State) : Host.Outcome State Fault Refusal :=
  match i with
  | .identify _ => Sys2Proof.Machine.execIdentify s
  | .readInfo _ => Sys2Proof.Machine.execReadInfo s
  | .readCounter _ => Sys2Proof.Machine.execReadCounter s
  | .writeCounter value => Sys2Proof.Machine.execWriteCounter value s
  | .readGain _ => Sys2Proof.Machine.execReadGain s
  | .writeGain value => Sys2Proof.Machine.execWriteGain value s
  | .readKeyStatus _ => Sys2Proof.Machine.execReadKeyStatus s
  | .encoderAsFraction _ => Sys2Proof.Machine.execEncoderAsFraction s
  | .poll _ => Sys2Proof.Machine.execPoll s
  | .takeDownPending _ => Sys2Proof.Machine.execTakeDownPending s
  | .isDown _ => Sys2Proof.Machine.execIsDown s
  | .rdPid dev => Sys2Proof.Machine.execRdPid dev s
  | .rdInfo dev => Sys2Proof.Machine.execRdInfo dev s
  | .rdCnt dev => Sys2Proof.Machine.execRdCnt dev s
  | .wrCnt dev value => Sys2Proof.Machine.execWrCnt dev value s
  | .rdKey dev => Sys2Proof.Machine.execRdKey dev s
  | .wrKeyClr dev => Sys2Proof.Machine.execWrKeyClr dev s
  | .rdGain dev => Sys2Proof.Machine.execRdGain dev s
  | .wrGain dev value => Sys2Proof.Machine.execWrGain dev value s

end Sys2Proof.Machine
end

