-- ==== Sys2Proof/Machine/Fetch.lean ====
section
/-! DEFINITION. The next turn of the agenda: which agent moves (R5), and, for a packet, which instruction it is and
whether it may come over that port (R81). Construction (R190 to R192). -/

namespace Sys2Proof.Machine

/-- Construction (R190, R191): the four configuration registers take the arguments, every other register of the block
its reset value. No frame, no clock sample, nothing changed in the peripheral. The registers whose reset value the
spec leaves unspecified take 0 (log 2). The one register file keeps its cells (log 16). An address outside 1 to 127 is
refused (R192). -/
def construct (devAddr : Nat) (gainInit : Byte) (pollInterval stuckTimeout : Option Nat) (s : State) :
    Result State :=
  if 1 ≤ devAddr ∧ devAddr ≤ 127 then
    .next { s with
      devAddr := BitVec.ofNat 7 devAddr
      gainInit := gainInit
      pollInterval := pollInterval.getD Config.defaultPollInterval
      stuckTimeout := stuckTimeout.getD Config.defaultStuckTimeout
      pressCount := 0
      lastPollTime := 0
      lastPollValid := false
      lastEdgeTime := 0
      lastEdgeValid := false
      downPending := false
      upPending := false
      infoValid := false
      infoProductId := 0#16
      infoVendorId := 0#16
      infoVersion := 0#16
      infoBusAddress := 0#8 }
  else .refused (.constructionRefused devAddr)

/-- Operations the caller may issue: all but `READ_KEY_STATUS` (R81). A frame is no operation. -/
def callerVisible : Instr → Bool
  | .identify _ | .readInfo _ | .readCounter _ | .writeCounter _ | .readGain _ | .writeGain _
  | .encoderAsFraction _ | .poll _ | .takeDownPending _ | .isDown _ => true
  | .readKeyStatus _ => false
  | .rdPid _ | .rdInfo _ | .rdCnt _ | .wrCnt _ _ | .rdKey _ | .wrKeyClr _ | .rdGain _ | .wrGain _ _ => false

/-- Operations of the internal path: `READ_KEY_STATUS` only (R81). -/
def internalOnly : Instr → Bool
  | .readKeyStatus _ => true
  | .identify _ | .readInfo _ | .readCounter _ | .writeCounter _ | .readGain _ | .writeGain _
  | .encoderAsFraction _ | .poll _ | .takeDownPending _ | .isDown _ => false
  | .rdPid _ | .rdInfo _ | .rdCnt _ | .wrCnt _ _ | .rdKey _ | .wrKeyClr _ | .rdGain _ | .wrGain _ _ => false

/-- A CMD word that selects no operation on its port: no state change, no frame, `ILLEGAL_COMMAND` (R81, R164). -/
def State.illegalCommand (s : State) : State := s.respond illegalCommandRsp

/-- What the next turn comes to: an instruction to run in the state left, or the whole outcome of the step. -/
inductive Fetched where
  | run (i : Instr) (s : State)
  | ended (o : Result State)

/-- A CMD word on a port that accepts the operations of `accepts` (R81). -/
def fetchCmd (accepts : Instr → Bool) (word : Word20) (s : State) : Fetched :=
  match decodeCmd word with
  | .ok i => if accepts i then .run i s else .ended (.next s.illegalCommand)
  | .error _ => .ended (.next s.illegalCommand)

/-- A frame on the bus. What is none of the eight frames stops by name (R36, U10). -/
def fetchFrame (header : Word20) (payload : List Byte) (s : State) : Fetched :=
  match decodeFrame header payload with
  | .ok i => .run i s
  | .error (.unmappedRegister reg) => .ended (.fault (.unmappedRegister reg))
  | .error (.undefinedFrame h) => .ended (.refused (.undefinedFrame h))
  | .error (.reservedOp _) => .ended (.refused (.undefinedFrame header))

/-- One turn, the agenda already shortened. -/
def takeTurn (turn : Turn) (s : State) : Fetched :=
  match turn with
  | .caller word => fetchCmd callerVisible word s
  | .internal word => fetchCmd internalOnly word s
  | .bus header payload => fetchFrame header payload s
  | .env move => .ended (.next (s.applyMove move))
  | .construct devAddr gainInit pollInterval stuckTimeout =>
    .ended (construct devAddr gainInit pollInterval stuckTimeout s)

/-- The state with another agenda. -/
def State.withAgenda (s : State) (rest : List Turn) : State := { s with agenda := rest }

/-- The next turn of the agenda. With an empty agenda no agent moves and nothing changes (log 5). -/
def fetch (s : State) : Fetched :=
  match s.agenda with
  | [] => .ended (.next s)
  | turn :: rest => takeTurn turn (s.withAgenda rest)

/-- The turn that puts an instruction's table word on its port: a frame on the bus, `READ_KEY_STATUS` on the internal
path, any other CMD word on the caller's port (R81; log 14, 15). -/
def turnOfTableWord (w : Nat) : Turn :=
  match packetOfTableWord w with
  | .frame h payload => .bus h payload
  | .cmd word =>
    match decodeCmd word with
    | .ok (.readKeyStatus _) => .internal word
    | _ => .caller word

end Sys2Proof.Machine
end

