-- ==== Sys2Proof/Machine/Step.lean ====
section
/-! DEFINITION. One step: the next turn of the agenda (R5, R7). -/

namespace Sys2Proof.Machine

/-- One agent moves. An operation of the block is one atomic step (R7). -/
def step (s : State) : Host.Outcome State Fault Refusal :=
  match fetch s with
  | .run i t => exec i t
  | .ended o => o

/-- `s` with the instruction of a table word presented first, on the port it comes over (log 5, 14). The spec's
machine fetches nothing: "the caller presents each operation" (R25). -/
def State.withFetchWord (s : State) (nbits w : Nat) : State :=
  if nbits < 20 then s else s.withAgenda (turnOfTableWord w :: s.agenda)

end Sys2Proof.Machine
end

