-- ==== Sys2Proof/Safety.lean ====
section
/-! DEFINITION. What claims about the machine are stated with: the invariants (R23, R36), the peripheral's contract
(R33, R35), which parts of two states agree, and how two outcomes are compared. -/

namespace Sys2Proof.Machine

/-! ### Invariants -/

/-- (I2) and (I3) of R23: while the button is DOWN, both timestamps are valid and the edge is not later than the last
effective poll. -/
def State.DebounceInv (s : State) : Prop :=
  s.pressCount % 2 = 1 → s.lastEdgeValid = true ∧ s.lastPollValid = true ∧ s.lastEdgeTime ≤ s.lastPollTime

/-- The model's invariant: the register file is canonical and within the map (R36), the device address is a legal one
(R11), and R23. -/
def State.Inv (s : State) : Prop := s.regs.wf ∧ s.devAddr ≠ 0#7 ∧ s.DebounceInv

/-- The content of `COUNTER` as the peripheral holds it (R33). -/
def State.counter (s : State) : U16 := s.regs.read16 Config.regCounter

/-- The content of `KEY_STATUS` as the peripheral holds it (R34). -/
def State.keyStatus (s : State) : Byte := s.regs.read Config.regKeyStatus

/-- The content of `GAIN` as the peripheral holds it (R35). -/
def State.gain (s : State) : Byte := s.regs.read Config.regGain

/-- The register table's contract on the two registers the block writes by value: `COUNTER` in 0 to 1023 (R33) and
`GAIN` in 1 to 51 (R35). -/
def State.InContract (s : State) : Prop :=
  s.counter.toNat ≤ Config.counterMax ∧ Config.gainMin ≤ s.gain.toNat ∧ s.gain.toNat ≤ Config.gainMax

/-! ### Agreement of two states -/

/-- The configuration registers agree (R11 to R14). -/
def SameConfig (s t : State) : Prop :=
  s.devAddr = t.devAddr ∧ s.gainInit = t.gainInit ∧ s.pollInterval = t.pollInterval ∧
    s.stuckTimeout = t.stuckTimeout

/-- The debounce state agrees (R15 to R20). -/
def SameDebounce (s t : State) : Prop :=
  s.pressCount = t.pressCount ∧ s.lastPollTime = t.lastPollTime ∧ s.lastPollValid = t.lastPollValid ∧
    s.lastEdgeTime = t.lastEdgeTime ∧ s.lastEdgeValid = t.lastEdgeValid ∧ s.downPending = t.downPending ∧
    s.upPending = t.upPending

/-- The identity cache agrees (R21). -/
def SameCache (s t : State) : Prop :=
  s.infoValid = t.infoValid ∧ s.infoProductId = t.infoProductId ∧ s.infoVendorId = t.infoVendorId ∧
    s.infoVersion = t.infoVersion ∧ s.infoBusAddress = t.infoBusAddress

/-- Every cell of the peripheral reads the same. -/
def SameCells (s t : State) : Prop := ∀ a, s.regs.read a = t.regs.read a

/-- Everything outside the block agrees, and so do the responses and the bus record. -/
def SameOutside (s t : State) : Prop :=
  s.regs = t.regs ∧ s.clock = t.clock ∧ s.agenda = t.agenda ∧ s.busTurns = t.busTurns ∧
    s.freeCount = t.freeCount ∧ s.responses = t.responses ∧ s.trace = t.trace

/-- Two states that differ at most in `gain_init`, `up_pending` and the identity cache: the state that never
influences a response (R12, R20, R21, R23 (I5)). -/
def AgreeButHidden (s t : State) : Prop :=
  SameOutside s t ∧ s.devAddr = t.devAddr ∧ s.pollInterval = t.pollInterval ∧ s.stuckTimeout = t.stuckTimeout ∧
    s.pressCount = t.pressCount ∧ s.lastPollTime = t.lastPollTime ∧ s.lastPollValid = t.lastPollValid ∧
    s.lastEdgeTime = t.lastEdgeTime ∧ s.lastEdgeValid = t.lastEdgeValid ∧ s.downPending = t.downPending

/-- A block whose `press_count` has `w` bits and wraps (R15). -/
def State.narrow (w : Nat) (s : State) : State := { s with pressCount := s.pressCount % 2 ^ w }

/-! ### Comparing outcomes -/

/-- Two outcomes of the same kind: related next states, or the same stop. -/
def OutcomesRelated (R : State → State → Prop) : Result State → Result State → Prop
  | .next s, .next t => R s t
  | .fault a, .fault b => a = b
  | .refused a, .refused b => a = b
  | _, _ => False

/-! ### Turns -/

/-- The turn is a `POLL` of the caller (R131). -/
def Turn.isPoll : Turn → Prop
  | .caller word => ∃ arg, decodeCmd word = .ok (.poll arg)
  | .internal _ | .bus _ _ | .env _ | .construct _ _ _ _ => False

/-- The turn constructs a fresh block (R190). -/
def Turn.isConstruct : Turn → Prop
  | .construct _ _ _ _ => True
  | .caller _ | .internal _ | .bus _ _ | .env _ => False

/-- The turn is a `READ_INFO` of the caller (R102). -/
def Turn.isReadInfo : Turn → Prop
  | .caller word => ∃ arg, decodeCmd word = .ok (.readInfo arg)
  | .internal _ | .bus _ _ | .env _ | .construct _ _ _ _ => False

/-- The agenda holds neither a `READ_INFO` nor a construction: nobody asks for the identity again (R205). -/
def State.Unasked (s : State) : Prop := ∀ turn ∈ s.agenda, ¬ turn.isReadInfo ∧ ¬ turn.isConstruct

/-- The agenda holds neither a `POLL` nor a construction. -/
def State.Unpolled (s : State) : Prop := ∀ turn ∈ s.agenda, ¬ turn.isPoll ∧ ¬ turn.isConstruct

end Sys2Proof.Machine

/-! ### What the environment does at a transaction -/

namespace Sys2Proof

/-- The peripheral took a write that was answered so: an `Ok`, or a failure after the fact (R198). -/
def BusResult.took : BusResult → Bool
  | .ok => true
  | .err _ taken => taken

/-- The event may change the cell `a` of the peripheral at `dev`. -/
def BusEvent.Writes (dev : DevAddr) (a : Nat) : BusEvent → Prop
  | .move (.button _) => a = Config.regKeyStatus
  | .move (.rotate _) => a = Config.regCounter ∨ a = Config.regCounter + 1
  | .move (.clock _) => False
  | .move (.exchange _) => a < Config.mapSize
  | .move (.readdress _) => a = Config.regBusAddr
  | .frame k d _ r =>
    d = dev ∧ k.isWrite = true ∧ r.took = true ∧ k.reg.toNat ≤ a ∧ a < k.reg.toNat + k.len.toNat

/-- The move changes the identity cell `a`, one of 0x00 to 0x07: an exchange of the peripheral any of them, a new bus
address 0x07 (R205). -/
def EnvMove.Reidentifies (a : Nat) : EnvMove → Prop
  | .exchange _ => True
  | .readdress _ => a = Config.regBusAddr
  | .button _ | .rotate _ | .clock _ => False

/-- The event leaves no edge pending in the peripheral at `dev`: an acknowledge of another master (R200), or an exchange
for a peripheral that has none (R205). -/
def BusEvent.ClearsKey (dev : DevAddr) : BusEvent → Prop
  | .move (.exchange cells) => cells[Config.regKeyStatus]'(by decide) = 0x00#8
  | .move (.button _) | .move (.rotate _) | .move (.clock _) | .move (.readdress _) => False
  | .frame k d _ r => d = dev ∧ k = .wrKeyClr ∧ r.took = true

/-- The event leaves an edge pending: a button event (R51), or an exchange for a peripheral that has one (R205). -/
def BusEvent.RaisesKey : BusEvent → Prop
  | .move (.button _) => True
  | .move (.exchange cells) => cells[Config.regKeyStatus]'(by decide) ≠ 0x00#8
  | .move (.rotate _) | .move (.clock _) | .move (.readdress _) => False
  | .frame _ _ _ _ => False

/-- The move, if it is an exchange, is one for a peripheral that keeps the contract of `COUNTER` and `GAIN` (R33,
R35). -/
def EnvMove.Legal : EnvMove → Prop
  | .exchange cells =>
    (be16 (cells[Config.regCounter]'(by decide)) (cells[Config.regCounter + 1]'(by decide))).toNat ≤ Config.counterMax ∧
      Config.gainMin ≤ (cells[Config.regGain]'(by decide)).toNat ∧
      (cells[Config.regGain]'(by decide)).toNat ≤ Config.gainMax
  | .button _ | .rotate _ | .clock _ | .readdress _ => True

/-- The event, if it is a write frame, has a payload that a block may send (R104, R106); if it is a move, it is a legal
one. -/
def BusEvent.Legal : BusEvent → Prop
  | .move m => m.Legal
  | .frame .wrCnt _ value _ => value.toNat ≤ Config.counterMax
  | .frame .wrGain _ value _ => Config.gainMin ≤ (lo8 value).toNat ∧ (lo8 value).toNat ≤ Config.gainMax
  | .frame .rdPid _ _ _ | .frame .rdInfo _ _ _ | .frame .rdCnt _ _ _ | .frame .rdKey _ _ _
  | .frame .wrKeyClr _ _ _ | .frame .rdGain _ _ _ => True

/-- Every event before the transaction is legal. -/
def BusTurn.Legal (turn : BusTurn) : Prop := ∀ e ∈ turn.events, e.Legal

/-- The same turn under the premise R43 (c): a failed write was not taken. -/
def BusTurn.strict (turn : BusTurn) : BusTurn :=
  match turn.result with
  | .ok => turn
  | .err e _ => { turn with result := .err e false }

/-- The event concerns the peripheral at `dev`: a move, or a frame to that address. -/
def BusEvent.concerns (dev : DevAddr) : BusEvent → Bool
  | .move _ => true
  | .frame _ d _ _ => d == dev

/-- The same turn without the frames to other devices. -/
def BusTurn.alone (dev : DevAddr) (turn : BusTurn) : BusTurn :=
  { turn with events := turn.events.filter (·.concerns dev) }

end Sys2Proof

namespace Sys2Proof.Machine

/-- A turn of an agent other than the block is legal: a frame is one that this block may send, with a legal address and a
legal payload, and a move is a legal one. -/
def Turn.Legal : Turn → Prop
  | .bus header payload => ∀ i, decodeFrame header payload = .ok i → i.wellFormed = true
  | .env m => m.Legal
  | .caller _ | .internal _ | .construct _ _ _ _ => True

/-- The move `m` happens before one of the two coming transactions, which are as many as one step can make. -/
def State.MayMove (s : State) (m : EnvMove) : Prop :=
  .move m ∈ s.nextTurn.events ∨ .move m ∈ s.atBus.nextTurn.events

/-- The move `m` may happen in the next step: it is the turn, or comes before a transaction of the turn. -/
def State.StepMayMove (s : State) (m : EnvMove) : Prop :=
  match s.agenda with
  | .env m' :: _ => m = m'
  | .caller _ :: _ | .internal _ :: _ | .bus _ _ :: _ => s.MayMove m
  | .construct _ _ _ _ :: _ | [] => False

/-- All that happens on the bus before the two coming transactions is legal. -/
def State.LegalTraffic (s : State) : Prop := s.nextTurn.Legal ∧ s.atBus.nextTurn.Legal

/-- The transactions of this block, newest first (R48). -/
def State.blockFrames (s : State) : List Transaction := s.trace.filter fun t => t.master == .block

/-- What is left of a state when all that other instances do at other devices is taken out of the script, and the
frames of other masters and the counter of the free values out of the record. -/
def State.alone (s : State) : State :=
  { s with busTurns := s.busTurns.map (BusTurn.alone s.devAddr), trace := s.blockFrames, freeCount := 0 }

/-! ### Instructions -/

/-- The instruction is an operation, with a CMD word of its own (R72), not a bus frame (R76). -/
def isOperation (i : Instr) : Bool := callerVisible i || internalOnly i

/-- The seven operations of the Register Protocol Layer that the caller reaches (R22). -/
def isProtocolOperation : Instr → Bool
  | .identify _ | .readInfo _ | .readCounter _ | .writeCounter _ | .readGain _ | .writeGain _
  | .encoderAsFraction _ => true
  | .readKeyStatus _ | .poll _ | .takeDownPending _ | .isDown _ => false
  | .rdPid _ | .rdInfo _ | .rdCnt _ | .wrCnt _ _ | .rdKey _ | .wrKeyClr _ | .rdGain _ | .wrGain _ _ => false

/-! ### The bus, in the words of R76 and R107 -/

/-- "The full header is the value in the table OR `(S.dev_addr << 12)`" (R76). -/
def State.headerTo (s : State) (base : Word20) : Word20 := base ||| (s.devAddr.setWidth 20 <<< 12)

/-- The state after a successful `RD_KEY` of the block: its frame is in the bus record. -/
def State.afterKeyRead (s : State) : State :=
  s.atBus.record ⟨.block, s.headerTo 0x000A1#20, [], .answered [s.atBus.keyStatus]⟩

/-- `KEY_STATUS` is 0x00, every other cell as it was. -/
def State.clearKey (s : State) : State := s.setRegs (s.regs.write Config.regKeyStatus 0x00#8)

/-- The state after a successful `WR_KEY_CLR` that followed that read: what happens between the two frames (R55, R58)
has happened, then the flag is 0x00. -/
def State.afterKeyClear (s : State) : State :=
  s.afterKeyRead.atBus.clearKey.record ⟨.block, s.headerTo 0x800A1#20, [0x00#8], .written⟩

/-- The state after a failed one: the flag is 0x00 only if the peripheral took the write nevertheless (R198). -/
def State.afterFailedClear (s : State) (e : Byte) (taken : Bool) : State :=
  (if taken then s.afterKeyRead.atBus.clearKey else s.afterKeyRead.atBus).record
    ⟨.block, s.headerTo 0x800A1#20, [0x00#8], .failed e⟩

/-- The read-and-acknowledge from `s` ends with the transport's code `e`, in `u` (R107): `RD_KEY` fails, or it reads a
nonzero byte and `WR_KEY_CLR` fails. -/
def State.KeyFails (s : State) (e : Byte) (u : State) : Prop :=
  ∃ taken, (s.nextTurn.result = .err e taken ∧
      u = s.atBus.record ⟨.block, s.headerTo 0x000A1#20, [], .failed e⟩) ∨
    (s.nextTurn.result = .ok ∧ s.atBus.keyStatus ≠ 0x00#8 ∧ s.afterKeyRead.nextTurn.result = .err e taken ∧
      u = s.afterFailedClear e taken)

/-- The read-and-acknowledge from `s` finds no edge, in `u` (R107). -/
def State.KeyIdle (s u : State) : Prop :=
  s.nextTurn.result = .ok ∧ s.atBus.keyStatus = 0x00#8 ∧ u = s.afterKeyRead

/-- The read-and-acknowledge from `s` finds an edge and acknowledges it, in `u` (R107). -/
def State.KeyEdge (s u : State) : Prop :=
  s.nextTurn.result = .ok ∧ s.atBus.keyStatus ≠ 0x00#8 ∧ s.afterKeyRead.nextTurn.result = .ok ∧
    u = s.afterKeyClear

end Sys2Proof.Machine
end

