-- ==== Sys2Proof/Certificates/Slice0/Obligations.lean ====
section
/-! DEFINITION. The statements about the model, one definition each. Where a statement holds "for every state" it holds
for every content of the peripheral, every script of the environment and, when the script is empty, every value of the
free values. `s.nextTurn` is what the environment does at the next transaction of `s`, `s.atBus` the state in which
that transaction acts: moves of the peripheral and the clock, an exchange of the peripheral, and whole frames of other
masters and instances have happened (R51, R58, R205). A transaction fails with `.err e taken`; `taken = false` is the spec's premise R43 (c). -/

open Sys2Proof Sys2Proof.Machine

/-! ### Encodings -/

/-- Decoding what the encoder lays out gives the instruction back, for every operation with every argument and every
frame with every device address and payload. The layouts are the spec's decisions D2 and D4. -/
def Obligations.DecodeEncodeAgree : Prop :=
  ∀ i : Instr, decode (encode i) = .ok i

/-- Every packet that decodes is the encoding of what it decodes to: no bit of a packet is dropped. Layouts: D2, D4. -/
def Obligations.EncodeDecodeAgree : Prop :=
  ∀ (p : Packet) (i : Instr), decode p = .ok i → encode i = p

/-- Words of 95_test_vectors.md decode to the instruction they stand for: the spec's sample words, layouts D2, D4. -/
def Obligations.SampleWordsDecode : Prop :=
  decode (.cmd 0x00000#20) = .ok (.identify 0#16) ∧
  decode (.cmd 0x30200#20) = .ok (.writeCounter 512#16) ∧
  decode (.cmd 0x50033#20) = .ok (.writeGain 51#16) ∧
  decode (.cmd 0x8FFFF#20) = .ok (.poll 0xFFFF#16) ∧
  decode (.cmd 0xA1234#20) = .ok (.isDown 0x1234#16) ∧
  decode (.frame 0x54008#20 []) = .ok (.rdInfo 0x54#7) ∧
  decode (.frame 0xD4082#20 [0x02#8, 0x00#8]) = .ok (.wrCnt 0x54#7 512#16) ∧
  decode (.frame 0xD40A1#20 [0x00#8]) = .ok (.wrKeyClr 0x54#7) ∧
  decode (.frame 0xD40B1#20 [0x33#8]) = .ok (.wrGain 0x54#7 0x33#8) ∧
  decode (.cmd 0xB0000#20) = .error (.reservedOp 0xB#4)

/-- The header of each frame is its table value OR the device address at bit 12, its fields read back, and the mask
0x80FFF tells the eight frames apart. The header packing is the spec's decision D4. -/
def Obligations.FrameHeadersAreTheTable : Prop :=
  ∀ (dev : DevAddr),
    (FrameKind.rdPid.header dev = 0x00002#20 ||| (dev.setWidth 20 <<< 12)) ∧
    (FrameKind.rdInfo.header dev = 0x00008#20 ||| (dev.setWidth 20 <<< 12)) ∧
    (FrameKind.rdCnt.header dev = 0x00082#20 ||| (dev.setWidth 20 <<< 12)) ∧
    (FrameKind.wrCnt.header dev = 0x80082#20 ||| (dev.setWidth 20 <<< 12)) ∧
    (FrameKind.rdKey.header dev = 0x000A1#20 ||| (dev.setWidth 20 <<< 12)) ∧
    (FrameKind.wrKeyClr.header dev = 0x800A1#20 ||| (dev.setWidth 20 <<< 12)) ∧
    (FrameKind.rdGain.header dev = 0x000B1#20 ||| (dev.setWidth 20 <<< 12)) ∧
    (FrameKind.wrGain.header dev = 0x800B1#20 ||| (dev.setWidth 20 <<< 12)) ∧
    ∀ k : FrameKind, frameKindOf (k.header dev) = some k ∧ headerDev (k.header dev) = dev ∧
      headerReg (k.header dev) = k.reg ∧ headerLen (k.header dev) = k.len

/-- A response is read back from its RSP word, every word that is read is the word of what is read, and exactly the
words with `status = 3` are not read. The RSP layout is the spec's decision D3. -/
def Obligations.RspWordRoundTrip : Prop :=
  (∀ r : Rsp, Rsp.ofWord r.toWord = some r) ∧
  (∀ (w : RspWord) (r : Rsp), Rsp.ofWord w = some r → r.toWord = w) ∧
  (∀ w : RspWord, Rsp.ofWord w = none ↔ w.extractLsb' 57 2 = 3#2) ∧
  (∀ r : Rsp, r.toWord.toNat =
    r.status.code.toNat * 2 ^ 57 + (if r.flag then 2 ^ 56 else 0) + r.data.toNat)

/-- R77: composing and splitting two-byte values. -/
def Obligations.BigEndianPairs : Prop :=
  (∀ b0 b1 : Byte, be16 b0 b1 = (b0.setWidth 16 <<< 8) ||| b1.setWidth 16 ∧
    (be16 b0 b1).toNat = 256 * b0.toNat + b1.toNat ∧ hi8 (be16 b0 b1) = b0 ∧ lo8 (be16 b0 b1) = b1) ∧
  (∀ v : U16, be16 (hi8 v) (lo8 v) = v ∧ (hi8 v).toNat = v.toNat / 256 ∧ (lo8 v).toNat = v.toNat % 256) ∧
  (∀ (m : Memory) (reg : Nat), m.read16 reg = be16 (m.read reg) (m.read (reg + 1))) ∧
  (∀ (dev : DevAddr) (v : U16), encode (.wrCnt dev v) = .frame (FrameKind.wrCnt.header dev) [hi8 v, lo8 v]) ∧
  be16 0x01#8 0xF6#8 = 0x01F6#16 ∧ hi8 1023#16 = 0x03#8 ∧ lo8 1023#16 = 0xFF#8

/-! ### The register file and one transaction -/

/-- Two canonical register files that read the same are the same. -/
def Obligations.CanonicalMemoryIsUnique : Prop :=
  ∀ m n : Memory, m.wf → n.wf → (∀ a, m.read a = n.read a) → m = n

/-- R46: a successful transaction of the block at its peripheral. That the read yields exactly its length in bytes is
R43 (a) (decision D23, log 11), that it changes no cell R50 (decision D18, log 12); that the peripheral is the one that
answers, log 17. -/
def Obligations.TransactionCoversItsCells : Prop :=
  ∀ (s : State) (k : FrameKind), s.nextTurn.result = .ok →
    (∃ bytes t, s.memRead k = (.ok bytes, t) ∧ bytes.length = k.len.toNat ∧
      (∀ i, i < k.len.toNat → bytes[i]? = some (s.atBus.regs.read (k.reg.toNat + i))) ∧
      SameCells s.atBus t) ∧
    (∀ payload : List Byte, ∃ t, s.memWrite k payload = (.ok (), t) ∧
      (∀ i, (h : i < payload.length) → t.regs.read (k.reg.toNat + i) = payload[i]) ∧
      (∀ a, a < k.reg.toNat ∨ k.reg.toNat + payload.length ≤ a → t.regs.read a = s.atBus.regs.read a))

/-- A transaction that answers `Err` hands its code back; a read changes no cell, and a write changes none under the
premise R43 (c), whether the block issues it or another master, at whichever device. (What a failed write does without
that premise is in LateFailureLosesTheEdge; log 11.) -/
def Obligations.FailedTransactionChangesNoCell : Prop :=
  ∀ (s : State) (k : FrameKind) (dev : DevAddr) (payload : List Byte) (e : Byte) (taken : Bool),
    s.nextTurn.result = .err e taken →
    (∃ t, s.memRead k = (.error e, t) ∧ SameCells s.atBus t) ∧
    (∃ t, s.memWrite k payload = (.error e, t) ∧ (taken = false → SameCells s.atBus t)) ∧
    (∃ tr, (s.busFrame k dev payload).trace = tr :: s.atBus.trace ∧ tr.reply = .failed e ∧
      (k.isWrite = false ∨ taken = false → SameCells s.atBus (s.busFrame k dev payload)))

/-! ### Steps -/

/-- A step runs the instruction that the packet at the head of the agenda decodes to, in the state without that turn:
an operation on the caller's port, `READ_KEY_STATUS` on the internal path, a frame on the bus. The agenda is the
model's (log 5). -/
def Obligations.StepRunsDecodedInstruction : Prop :=
  ∀ (s : State) (i : Instr) (rest : List Turn),
    (∀ word, s.agenda = .caller word :: rest → decode (.cmd word) = .ok i → callerVisible i = true →
      step s = exec i { s with agenda := rest }) ∧
    (∀ word, s.agenda = .internal word :: rest → decode (.cmd word) = .ok i → internalOnly i = true →
      step s = exec i { s with agenda := rest }) ∧
    (∀ header payload, s.agenda = .bus header payload :: rest → decode (.frame header payload) = .ok i →
      step s = exec i { s with agenda := rest })

/-- A CMD word whose `op` is 0xB to 0xF, or 0x6 from the caller, selects no operation: only the response is added.
(The spec's decision D21.) The same of every word on the internal path whose `op` is not 0x6, where the response is the
model's choice (log 15). -/
def Obligations.IllegalCommandsAreRefused : Prop :=
  ∀ (s : State) (op : BitVec 4) (arg : U16) (rest : List Turn),
    (s.agenda = .caller (op ++ arg) :: rest → (0xB ≤ op.toNat ∨ op.toNat = 0x6) →
      step s = .next { s with agenda := rest, responses := ⟨.illegalCommand, false, 0#56⟩ :: s.responses }) ∧
    (s.agenda = .internal (op ++ arg) :: rest → op.toNat ≠ 0x6 →
      step s = .next { s with agenda := rest, responses := ⟨.illegalCommand, false, 0#56⟩ :: s.responses })

/-- The machine stops on a bus frame that is none of the eight and on a construction with an illegal address, each by
its name, and on nothing else: never in an operation. (U10 and R192; the names of the stops are the model's, log 10.) -/
def Obligations.StopsAreNamed : Prop :=
  ∀ s : State,
    (∀ f, step s = .fault f → ∃ h p rest, s.agenda = .bus h p :: rest ∧ f = .unmappedRegister (headerReg h) ∧
      12 < (headerReg h).toNat + (headerLen h).toNat) ∧
    (∀ r, step s = .refused r →
      (∃ h p rest, s.agenda = .bus h p :: rest ∧ r = .undefinedFrame h ∧
        ∀ i, encode i ≠ .frame h p) ∨
      (∃ d g pi st rest, s.agenda = .construct d g pi st :: rest ∧ r = .constructionRefused d ∧
        (d = 0 ∨ 127 < d))) ∧
    (∀ h p rest, s.agenda = .bus h p :: rest →
      (12 < (headerReg h).toNat + (headerLen h).toNat → step s = .fault (.unmappedRegister (headerReg h))) ∧
      ((headerReg h).toNat + (headerLen h).toNat ≤ 12 → (∀ i, encode i ≠ .frame h p) →
        step s = .refused (.undefinedFrame h))) ∧
    (∀ d g pi st rest, s.agenda = .construct d g pi st :: rest → d = 0 ∨ 127 < d →
      step s = .refused (.constructionRefused d))

/-- Moves of the peripheral and the clock, and what is done to the peripheral from outside, change nothing of the block:
a button event makes the flag nonzero, a rotation sets the counter in 0 to 1023, the clock shows the new time, an
exchange brings the twelve cells of the new peripheral, a new bus address stands in `BUS_ADDR`, and every other cell
reads as before. (That the peripheral makes no other move by itself is the spec's decision D18; how the last two of
R205 act on the cells is the model's, log 18.) -/
def Obligations.EnvironmentMovesOnlyItsOwn : Prop :=
  ∀ (s : State) (m : EnvMove) (rest : List Turn), s.agenda = .env m :: rest →
    ∃ t, step s = .next t ∧ SameConfig s t ∧ SameDebounce s t ∧ SameCache s t ∧ t.agenda = rest ∧
      t.busTurns = s.busTurns ∧ t.responses = s.responses ∧ t.trace = s.trace ∧
      match m with
      | .button n => t.keyStatus.toNat = n.val + 1 ∧ t.clock = s.clock ∧ ∀ a, a ≠ 0x0A → t.regs.read a = s.regs.read a
      | .rotate c =>
        t.counter.toNat = c.val ∧ t.clock = s.clock ∧ ∀ a, a ≠ 0x08 → a ≠ 0x09 → t.regs.read a = s.regs.read a
      | .clock now => t.clock = now ∧ SameCells s t
      | .exchange cells => (∀ a, (h : a < 12) → t.regs.read a = cells[a]) ∧ t.clock = s.clock ∧
        ∀ a, 12 ≤ a → t.regs.read a = s.regs.read a
      | .readdress n =>
        (t.regs.read 7).toNat = n.val + 1 ∧ t.clock = s.clock ∧ ∀ a, a ≠ 7 → t.regs.read a = s.regs.read a

/-! ### Construction and reset -/

/-- Construction with an address in 1 to 127 gives the reset state of the block and touches nothing else; with any
other address it is refused. (The spec's decision D14; the name of the stop is log 10; the value 0 of the registers that
the spec leaves unspecified is log 2 and not part of the claim. The model's own: the agenda, of which one turn is used
up, log 5; and, for an address other than the block's, that the one register file keeps its cells, log 16: R191 says it
of the peripheral, which is then another one.) -/
def Obligations.ConstructionResetsTheBlock : Prop :=
  ∀ (s : State) (d : Nat) (g : Byte) (pi st : Option Nat) (rest : List Turn),
    s.agenda = .construct d g pi st :: rest →
    ((d = 0 ∨ 127 < d) → step s = .refused (.constructionRefused d)) ∧
    (1 ≤ d → d ≤ 127 → ∃ t, step s = .next t ∧
      t.devAddr.toNat = d ∧ t.gainInit = g ∧ t.pollInterval = pi.getD 100 ∧ t.stuckTimeout = st.getD 2000 ∧
      t.fsm = .up ∧ t.pressCount = 0 ∧ t.lastPollValid = false ∧ t.lastEdgeValid = false ∧
      t.downPending = false ∧ t.upPending = false ∧ t.infoValid = false ∧
      t.regs = s.regs ∧ t.clock = s.clock ∧ t.agenda = rest ∧ t.busTurns = s.busTurns ∧
      t.responses = s.responses ∧ t.trace = s.trace)

/-- The state right after construction meets the invariant that every step keeps. -/
def Obligations.ResetMeetsInvariant : Prop := State.reset.Inv

/-! ### Register Protocol Layer: results, with their completion -/

/-- R101: `IDENTIFY` answers the two bytes as they stand and whether they are 0x01F6; only the frame's entry in the bus
record and the response are added. -/
def Obligations.IdentifyResult : Prop :=
  ∀ (s : State) (arg : U16),
    (s.nextTurn.result = .ok →
      exec (.identify arg) s = .next ((s.atBus.record
          ⟨.block, s.headerTo 0x00002#20, [], .answered [s.atBus.regs.read 0, s.atBus.regs.read 1]⟩).respond
        ⟨.ok, decide (256 * (s.atBus.regs.read 0).toNat + (s.atBus.regs.read 1).toNat = 0x01F6),
          BitVec.ofNat 56 (256 * (s.atBus.regs.read 0).toNat + (s.atBus.regs.read 1).toNat)⟩)) ∧
    (∀ e taken, s.nextTurn.result = .err e taken →
      exec (.identify arg) s = .next ((s.atBus.record ⟨.block, s.headerTo 0x00002#20, [], .failed e⟩).respond
        ⟨.transportError, false, e.setWidth 56⟩))

/-- R102: `READ_INFO` decodes the burst at fixed byte offsets, into the response and the identity cache; byte 6 is
dropped; on a transport error the cache keeps its content. -/
def Obligations.ReadInfoResult : Prop :=
  ∀ (s : State) (arg : U16),
    (s.nextTurn.result = .ok →
      ∃ t, exec (.readInfo arg) s = .next t ∧
        (let c := fun a => s.atBus.regs.read a
         t.infoProductId = be16 (c 0) (c 1) ∧ t.infoVendorId = be16 (c 2) (c 3) ∧
         t.infoVersion = be16 (c 4) (c 5) ∧ t.infoBusAddress = c 7 ∧ t.infoValid = true ∧
         t.responses = ⟨.ok, false, be16 (c 0) (c 1) ++ be16 (c 2) (c 3) ++ be16 (c 4) (c 5) ++ c 7⟩ :: s.responses ∧
         t.trace = ⟨.block, s.headerTo 0x00008#20, [],
           .answered [c 0, c 1, c 2, c 3, c 4, c 5, c 6, c 7]⟩ :: s.atBus.trace) ∧
        SameConfig s t ∧ SameDebounce s t ∧ SameCells s.atBus t ∧ t.clock = s.atBus.clock ∧
        t.agenda = s.agenda) ∧
    (∀ e taken, s.nextTurn.result = .err e taken →
      exec (.readInfo arg) s = .next ((s.atBus.record ⟨.block, s.headerTo 0x00008#20, [], .failed e⟩).respond
        ⟨.transportError, false, e.setWidth 56⟩))

/-- R103: `READ_COUNTER` answers the two bytes as they stand, not re-validated. -/
def Obligations.ReadCounterResult : Prop :=
  ∀ (s : State) (arg : U16),
    (s.nextTurn.result = .ok →
      exec (.readCounter arg) s = .next ((s.atBus.record
          ⟨.block, s.headerTo 0x00082#20, [], .answered [s.atBus.regs.read 8, s.atBus.regs.read 9]⟩).respond
        ⟨.ok, false, BitVec.ofNat 56 (256 * (s.atBus.regs.read 8).toNat + (s.atBus.regs.read 9).toNat)⟩)) ∧
    (∀ e taken, s.nextTurn.result = .err e taken →
      exec (.readCounter arg) s = .next ((s.atBus.record ⟨.block, s.headerTo 0x00082#20, [], .failed e⟩).respond
        ⟨.transportError, false, e.setWidth 56⟩))

/-- `ENCODER_AS_FRACTION`: the numerator is the counter as it stands, and the rational delivered lies in [0, 1]
exactly when the counter is at most 1023; 1023 gives 1. (That the block hands over the numerator is D17.) -/
def Obligations.EncoderAsFractionResult : Prop :=
  ∀ (s : State) (arg : U16),
    (s.nextTurn.result = .ok →
      ∃ r : Rsp, exec (.encoderAsFraction arg) s = .next ((s.atBus.record
          ⟨.block, s.headerTo 0x00082#20, [], .answered [s.atBus.regs.read 8, s.atBus.regs.read 9]⟩).respond r) ∧
        r = ⟨.ok, false, BitVec.ofNat 56 (256 * (s.atBus.regs.read 8).toNat + (s.atBus.regs.read 9).toNat)⟩ ∧
        fractionOf r = (s.atBus.counter.toNat : Rat) / 1023 ∧ 0 ≤ fractionOf r ∧
        (fractionOf r ≤ 1 ↔ s.atBus.counter.toNat ≤ 1023) ∧
        (fractionOf r = 1 ↔ s.atBus.counter.toNat = 1023)) ∧
    (∀ e taken, s.nextTurn.result = .err e taken →
      exec (.encoderAsFraction arg) s = .next ((s.atBus.record ⟨.block, s.headerTo 0x00082#20, [], .failed e⟩).respond
        ⟨.transportError, false, e.setWidth 56⟩))

/-- R105: `READ_GAIN` answers the byte at 0x0B as it stands, without a range check. -/
def Obligations.ReadGainResult : Prop :=
  ∀ (s : State) (arg : U16),
    (s.nextTurn.result = .ok →
      exec (.readGain arg) s = .next ((s.atBus.record
          ⟨.block, s.headerTo 0x000B1#20, [], .answered [s.atBus.regs.read 0x0B]⟩).respond
        ⟨.ok, false, BitVec.ofNat 56 (s.atBus.regs.read 0x0B).toNat⟩)) ∧
    (∀ e taken, s.nextTurn.result = .err e taken →
      exec (.readGain arg) s = .next ((s.atBus.record ⟨.block, s.headerTo 0x000B1#20, [], .failed e⟩).respond
        ⟨.transportError, false, e.setWidth 56⟩))

/-- `WRITE_COUNTER` with a value in 0 to 1023: both bytes in one frame, high byte first; every other cell reads as
before. A failed frame changes no cell, unless the peripheral took the write nevertheless (R198; log 11). -/
def Obligations.WriteCounterResult : Prop :=
  ∀ (s : State) (value : U16), value.toNat ≤ 1023 →
    (s.nextTurn.result = .ok →
      ∃ t, exec (.writeCounter value) s = .next t ∧
        t.responses = ⟨.ok, true, 0#56⟩ :: s.responses ∧
        t.trace = ⟨.block, s.headerTo 0x80082#20, [hi8 value, lo8 value], .written⟩ :: s.atBus.trace ∧
        t.counter = value ∧ t.regs.read 8 = hi8 value ∧ t.regs.read 9 = lo8 value ∧
        (∀ a, a ≠ 8 → a ≠ 9 → t.regs.read a = s.atBus.regs.read a) ∧
        SameConfig s t ∧ SameDebounce s t ∧ SameCache s t ∧ t.clock = s.atBus.clock ∧ t.agenda = s.agenda) ∧
    (∀ e taken, s.nextTurn.result = .err e taken →
      exec (.writeCounter value) s = .next (((if taken then
          s.atBus.setRegs (s.atBus.regs.writeBlock 0x08 [hi8 value, lo8 value]) else s.atBus).record
        ⟨.block, s.headerTo 0x80082#20, [hi8 value, lo8 value], .failed e⟩).respond ⟨.transportError, false, e.setWidth 56⟩))

/-- `WRITE_GAIN` with a value in 1 to 51: one byte; every other cell reads as before. A failed frame changes no cell,
unless the peripheral took the write nevertheless (R198; log 11). -/
def Obligations.WriteGainResult : Prop :=
  ∀ (s : State) (value : U16), 1 ≤ value.toNat → value.toNat ≤ 51 →
    (s.nextTurn.result = .ok →
      ∃ t, exec (.writeGain value) s = .next t ∧
        t.responses = ⟨.ok, true, 0#56⟩ :: s.responses ∧
        t.trace = ⟨.block, s.headerTo 0x800B1#20, [lo8 value], .written⟩ :: s.atBus.trace ∧
        t.gain.toNat = value.toNat ∧
        (∀ a, a ≠ 0x0B → t.regs.read a = s.atBus.regs.read a) ∧
        SameConfig s t ∧ SameDebounce s t ∧ SameCache s t ∧ t.clock = s.atBus.clock ∧ t.agenda = s.agenda) ∧
    (∀ e taken, s.nextTurn.result = .err e taken →
      exec (.writeGain value) s = .next (((if taken then
          s.atBus.setRegs (s.atBus.regs.write 0x0B (lo8 value)) else s.atBus).record
        ⟨.block, s.headerTo 0x800B1#20, [lo8 value], .failed e⟩).respond ⟨.transportError, false, e.setWidth 56⟩))

/-- R163: a write outside the valid domain ends normally with `flag = 0`, whatever the bus would do: no frame, nothing
in the block or the peripheral changes. -/
def Obligations.OutOfRangeWritesAreRejected : Prop :=
  ∀ (s : State) (value : U16),
    (1023 < value.toNat → exec (.writeCounter value) s =
      .next { s with responses := ⟨.ok, false, 0#56⟩ :: s.responses }) ∧
    (value.toNat < 1 ∨ 51 < value.toNat → exec (.writeGain value) s =
      .next { s with responses := ⟨.ok, false, 0#56⟩ :: s.responses })

/-- `READ_KEY_STATUS`: it fails, finds no edge, or finds one and acknowledges it; one of the three always holds.
(That a failed clearing write ends the operation is the spec's decision D13.) -/
def Obligations.ReadKeyStatusResult : Prop :=
  ∀ (s : State) (arg : U16),
    (∀ e u, s.KeyFails e u → exec (.readKeyStatus arg) s = .next (u.respond ⟨.transportError, false, e.setWidth 56⟩)) ∧
    (∀ u, s.KeyIdle u → exec (.readKeyStatus arg) s = .next (u.respond ⟨.ok, false, 0#56⟩)) ∧
    (∀ u, s.KeyEdge u → exec (.readKeyStatus arg) s = .next (u.respond ⟨.ok, true, 0#56⟩)) ∧
    ((∃ e u, s.KeyFails e u) ∨ (∃ u, s.KeyIdle u) ∨ (∃ u, s.KeyEdge u))

/-! ### Button Debounce State Machine: results, with their completion -/

/-- A `POLL` less than the interval after the last effective poll, or with a clock that has gone back behind it, adds
its response and changes nothing; it issues no frame. The first poll is never cut short. (The validity bit is the
spec's decision D7, the clock going back D26.) -/
def Obligations.RateLimitedPollDoesNothing : Prop :=
  ∀ (s : State) (arg : U16),
    (s.lastPollValid = true → s.clock < s.lastPollTime + s.pollInterval →
      exec (.poll arg) s = .next { s with responses := ⟨.ok, false, 0#56⟩ :: s.responses }) ∧
    (s.lastPollValid = true → s.clock < s.lastPollTime →
      exec (.poll arg) s = .next { s with responses := ⟨.ok, false, 0#56⟩ :: s.responses }) ∧
    ((s.lastPollValid = false ∨ s.lastPollTime + s.pollInterval ≤ s.clock) →
      ∃ t, exec (.poll arg) s = .next t ∧ t.lastPollTime = s.clock ∧ t.lastPollValid = true ∧
        s.blockFrames.length < t.blockFrames.length)

/-- R134: the UP/DOWN machine. The rows of its table, each with everything the poll writes; the key read always ends in
one of its three ways; and no other turn of any agent moves the button state but a construction. -/
def Obligations.ButtonStateMachine : Prop :=
  (∀ (s u : State) (arg : U16) (now : Nat), s.clock = now →
    (s.lastPollValid = false ∨ s.lastPollTime + s.pollInterval ≤ now) →
    -- UP, no edge
    (s.fsm = .up → s.KeyIdle u → exec (.poll arg) s =
      .next ({ u with lastPollTime := now, lastPollValid := true }.respond ⟨.ok, false, 0#56⟩)) ∧
    -- UP, edge
    (s.fsm = .up → s.KeyEdge u → exec (.poll arg) s =
      .next ({ u with lastPollTime := now, lastPollValid := true, pressCount := s.pressCount + 1,
                      lastEdgeTime := now, lastEdgeValid := true, downPending := true }.respond
        ⟨.ok, false, 0#56⟩)) ∧
    -- DOWN, no edge, timeout not run out
    (s.fsm = .down → s.KeyIdle u → now ≤ s.lastEdgeTime + s.stuckTimeout → exec (.poll arg) s =
      .next ({ u with lastPollTime := now, lastPollValid := true }.respond ⟨.ok, false, 0#56⟩)) ∧
    -- DOWN, no edge, timeout run out
    (s.fsm = .down → s.KeyIdle u → s.lastEdgeTime + s.stuckTimeout < now → exec (.poll arg) s =
      .next ({ u with lastPollTime := now, lastPollValid := true, pressCount := 0, downPending := false,
                      upPending := true }.respond ⟨.ok, false, 0#56⟩)) ∧
    -- DOWN, edge, timeout run out or not
    (s.fsm = .down → s.KeyEdge u → exec (.poll arg) s =
      .next ({ u with lastPollTime := now, lastPollValid := true, pressCount := s.pressCount + 1,
                      upPending := true }.respond ⟨.ok, false, 0#56⟩)) ∧
    -- any, READ_KEY_STATUS fails
    (∀ e, s.KeyFails e u → exec (.poll arg) s =
      .next ({ u with lastPollTime := now, lastPollValid := true }.respond
        ⟨.transportError, false, e.setWidth 56⟩))) ∧
  (∀ (s : State) (arg : U16), s.lastPollValid = true → s.clock < s.lastPollTime + s.pollInterval →
    ∃ t, exec (.poll arg) s = .next t ∧ SameDebounce s t ∧ t.trace = s.trace) ∧
  (∀ s t : State, step s = .next t → s.fsm ≠ t.fsm →
    ∃ turn rest, s.agenda = turn :: rest ∧ (turn.isPoll ∨ turn.isConstruct)) ∧
  (∀ s : State, (∃ e u, s.KeyFails e u) ∨ (∃ u, s.KeyIdle u) ∨ (∃ u, s.KeyEdge u)) ∧
  (∀ s : State, s.pressCount = 0 → s.fsm = .up) ∧ State.reset.fsm = .up

/-- A transport failure during `POLL` leaves `press_count`, the edge time and the pending flags exactly as they were,
reports the code, and leaves an edge that could not be acknowledged pending, whatever moves and frames fall between the
two frames of the block, unless another master acknowledges it there, the peripheral is exchanged there for one without
an edge (R205), or the peripheral took the failed write (against the premise R43 (c)). (That `last_poll_time` is written is the spec's decision D12, that the edge is found again D13;
that no other move clears the flag D18, log 12.) -/
def Obligations.FailedPollPreservesDebounce : Prop :=
  ∀ (s : State) (arg : U16) (e : Byte) (u : State), s.rateLimited s.clock = false → s.KeyFails e u →
    ∃ t, exec (.poll arg) s = .next t ∧ t.responses = ⟨.transportError, false, e.setWidth 56⟩ :: s.responses ∧
      t.pressCount = s.pressCount ∧ t.lastEdgeTime = s.lastEdgeTime ∧ t.lastEdgeValid = s.lastEdgeValid ∧
      t.downPending = s.downPending ∧ t.upPending = s.upPending ∧
      t.lastPollTime = s.clock ∧ t.lastPollValid = true ∧ SameCells u t ∧
      (s.nextTurn.result = .ok → s.afterKeyRead.nextTurn.result = .err e false →
        (∀ event ∈ s.afterKeyRead.nextTurn.events, ¬ event.ClearsKey s.devAddr) → t.keyStatus ≠ 0x00#8)

/-- A failed poll uses up its slot: every later `POLL` before `poll_interval` has passed is rate-limited, whatever
happened in between to the clock and the peripheral. (D12.) -/
def Obligations.FailedPollCostsItsSlot : Prop :=
  ∀ (s : State) (arg arg' : U16) (e : Byte) (u t : State) (now : Nat) (m : Memory),
    s.rateLimited s.clock = false → s.KeyFails e u → exec (.poll arg) s = .next t →
    now < s.clock + s.pollInterval →
      exec (.poll arg') { t with clock := now, regs := m } =
        .next { t with clock := now, regs := m, responses := ⟨.ok, false, 0#56⟩ :: t.responses }

/-- R132: `TAKE_DOWN_PENDING` delivers the flag and clears it, so that a second one at once answers false; nothing else
changes, no frame, no clock. -/
def Obligations.TakeDownPendingResult : Prop :=
  ∀ (s : State) (arg : U16),
    exec (.takeDownPending arg) s =
      .next { s with downPending := false, responses := ⟨.ok, s.downPending, 0#56⟩ :: s.responses } ∧
    ∀ (t : State) (arg' : U16), exec (.takeDownPending arg) s = .next t →
      exec (.takeDownPending arg') t = .next { t with responses := ⟨.ok, false, 0#56⟩ :: t.responses }

/-- R133: `IS_DOWN` answers whether `press_count` is odd and changes nothing, whatever the clock shows. -/
def Obligations.IsDownResult : Prop :=
  ∀ (s : State) (arg : U16),
    exec (.isDown arg) s =
      .next { s with responses := ⟨.ok, decide (s.pressCount % 2 = 1), 0#56⟩ :: s.responses }

/-! ### Bus frames: results, with their completion -/

/-- A read frame by itself: at the block's peripheral it is answered with the cells it covers; at another device with
free bytes of its length (log 8); on `Err` with the code. No cell changes, no register of the block, no response. -/
def Obligations.ReadFramesResult : Prop :=
  ∀ (s : State) (dev : DevAddr) (i : Instr) (base : Word20) (reg n : Nat),
    (i, base, reg, n) ∈ [(Instr.rdPid dev, 0x00002#20, 0, 2), (Instr.rdInfo dev, 0x00008#20, 0, 8),
      (Instr.rdCnt dev, 0x00082#20, 8, 2), (Instr.rdKey dev, 0x000A1#20, 0x0A, 1),
      (Instr.rdGain dev, 0x000B1#20, 0x0B, 1)] →
    ∃ t reply, exec i s = .next t ∧
      t.trace = ⟨.other, base ||| (dev.setWidth 20 <<< 12), [], reply⟩ :: s.atBus.trace ∧
      (s.nextTurn.result = .ok → dev = s.devAddr →
        reply = .answered ((List.range n).map fun j => s.atBus.regs.read (reg + j))) ∧
      (s.nextTurn.result = .ok → dev ≠ s.devAddr → ∃ bytes, reply = .answered bytes ∧ bytes.length = n) ∧
      (∀ e taken, s.nextTurn.result = .err e taken → reply = .failed e) ∧
      SameConfig s t ∧ SameDebounce s t ∧ SameCache s t ∧ SameCells s.atBus t ∧ t.clock = s.atBus.clock ∧
      t.agenda = s.agenda ∧ t.responses = s.responses

/-- A write frame by itself: at the block's peripheral its bytes are stored from its register on when it is taken; at
another device, or on an `Err` under the premise R43 (c), no cell of this peripheral changes. No register of the block,
no response. -/
def Obligations.WriteFramesResult : Prop :=
  ∀ (s : State) (dev : DevAddr) (v : U16) (b : Byte) (i : Instr) (base : Word20) (reg : Nat) (payload : List Byte),
    (i, base, reg, payload) ∈ [(Instr.wrCnt dev v, 0x80082#20, 8, [hi8 v, lo8 v]),
      (Instr.wrKeyClr dev, 0x800A1#20, 0x0A, [0x00#8]), (Instr.wrGain dev b, 0x800B1#20, 0x0B, [b])] →
    ∃ t reply, exec i s = .next t ∧
      t.trace = ⟨.other, base ||| (dev.setWidth 20 <<< 12), payload, reply⟩ :: s.atBus.trace ∧
      (s.nextTurn.result = .ok → reply = .written) ∧
      (∀ e taken, s.nextTurn.result = .err e taken → reply = .failed e) ∧
      (s.nextTurn.result.took = false → SameCells s.atBus t) ∧
      (s.nextTurn.result.took = true → dev = s.devAddr → ∀ j, (h : j < payload.length) →
        t.regs.read (reg + j) = payload[j]) ∧
      (∀ a, a < reg ∨ reg + payload.length ≤ a → t.regs.read a = s.atBus.regs.read a) ∧
      (dev ≠ s.devAddr → SameCells s.atBus t) ∧
      SameConfig s t ∧ SameDebounce s t ∧ SameCache s t ∧ t.clock = s.atBus.clock ∧ t.agenda = s.agenda ∧
      t.responses = s.responses

/-! ### Frames: what an instruction leaves unchanged -/

/-- The reading operations leave every register of the block (but for the cache, `READ_INFO`) and every cell as they
were when the transaction acted. -/
def Obligations.ReadOperationsFrame : Prop :=
  ∀ (s t : State) (arg : U16) (i : Instr),
    i ∈ [Instr.identify arg, .readInfo arg, .readCounter arg, .readGain arg, .encoderAsFraction arg] →
    exec i s = .next t →
      SameConfig s t ∧ SameDebounce s t ∧ (i ≠ .readInfo arg → SameCache s t) ∧ SameCells s.atBus t ∧
      t.clock = s.atBus.clock ∧ t.agenda = s.agenda ∧ t.busTurns = s.atBus.busTurns ∧
      t.freeCount = s.atBus.freeCount

/-- The writing operations leave every register of the block, and every cell outside their bytes: for a rejected value
every cell, in the state before; for a frame that the peripheral did not take every cell; for `WRITE_COUNTER` the cells
other than 0x08 and 0x09, for `WRITE_GAIN` the cells other than 0x0B. -/
def Obligations.WriteOperationsFrame : Prop :=
  ∀ (s t : State) (value : U16) (i : Instr), i = .writeCounter value ∨ i = .writeGain value → exec i s = .next t →
    SameConfig s t ∧ SameDebounce s t ∧ SameCache s t ∧ t.agenda = s.agenda ∧
    (i = .writeCounter value → 1023 < value.toNat → SameCells s t ∧ t.clock = s.clock ∧ t.trace = s.trace) ∧
    (i = .writeCounter value → value.toNat ≤ 1023 → t.clock = s.atBus.clock ∧
      (∀ a, a ≠ 0x08 → a ≠ 0x09 → t.regs.read a = s.atBus.regs.read a) ∧
      (s.nextTurn.result.took = false → SameCells s.atBus t)) ∧
    (i = .writeGain value → value.toNat < 1 ∨ 51 < value.toNat →
      SameCells s t ∧ t.clock = s.clock ∧ t.trace = s.trace) ∧
    (i = .writeGain value → 1 ≤ value.toNat → value.toNat ≤ 51 → t.clock = s.atBus.clock ∧
      (∀ a, a ≠ 0x0B → t.regs.read a = s.atBus.regs.read a) ∧
      (s.nextTurn.result.took = false → SameCells s.atBus t))

/-- `READ_KEY_STATUS` and `POLL` store to no cell but `KEY_STATUS`: after a failed or idle read every cell is as that
transaction found it; after a nonzero read every cell but 0x0A is as the clearing write found it, and 0x0A too if the
peripheral did not take that write. `READ_KEY_STATUS` leaves every register of the block, `POLL` the configuration and
the cache. -/
def Obligations.KeyStatusOperationsFrame : Prop :=
  ∀ (s t : State) (arg : U16) (i : Instr), i = .readKeyStatus arg ∨ (i = .poll arg ∧ s.rateLimited s.clock = false) →
    exec i s = .next t →
      SameConfig s t ∧ SameCache s t ∧ (i = .readKeyStatus arg → SameDebounce s t) ∧ t.agenda = s.agenda ∧
      (s.nextTurn.result ≠ .ok ∨ s.atBus.keyStatus = 0x00#8 → SameCells s.atBus t) ∧
      (s.nextTurn.result = .ok → s.atBus.keyStatus ≠ 0x00#8 →
        (∀ a, a ≠ 0x0A → t.regs.read a = s.afterKeyRead.atBus.regs.read a) ∧
        (s.afterKeyRead.nextTurn.result.took = false → SameCells s.afterKeyRead.atBus t))

/-! ### Rules over all operations -/

/-- R22: who writes the debounce state, and what the protocol layer reads and writes of the block's state. -/
def Obligations.ProtocolLayerOwnership : Prop :=
  (∀ (i : Instr) (s t : State), exec i s = .next t →
    (∀ arg, i ≠ .poll arg) → (∀ arg, i ≠ .takeDownPending arg) → SameDebounce s t) ∧
  (∀ (i : Instr) (s t : State), isProtocolOperation i = true → exec i s = .next t →
    SameConfig s t ∧ SameDebounce s t ∧ ((∀ arg, i ≠ .readInfo arg) → SameCache s t)) ∧
  (∀ (i : Instr) (s s' : State), isProtocolOperation i = true → SameOutside s s' → s.devAddr = s'.devAddr →
    ∃ t t', exec i s = .next t ∧ exec i s' = .next t' ∧ SameOutside t t')

/-- R57: the identity cache is refreshed by a successful `READ_INFO` and by no other operation, and no frame of the
block writes to the cells it was read from. The last clause says more than R57 and rests on choices: an operation
leaves those cells whatever the environment does during it but for an exchange of the peripheral or a new bus address
(R205), because the peripheral does not move them by itself (decision D18, log 12) and no frame of another master
reaches them (log 8). -/
def Obligations.OnlyReadInfoRefreshesTheCache : Prop :=
  (∀ (i : Instr) (s t : State), exec i s = .next t → (∀ arg, i ≠ .readInfo arg) → SameCache s t) ∧
  (∀ (arg : U16) (s t : State), exec (.readInfo arg) s = .next t →
    (∀ e taken, s.nextTurn.result = .err e taken → SameCache s t) ∧
    (s.nextTurn.result = .ok → t.infoValid = true ∧ t.infoProductId = s.atBus.regs.read16 0 ∧
      t.infoVendorId = s.atBus.regs.read16 2 ∧ t.infoVersion = s.atBus.regs.read16 4 ∧
      t.infoBusAddress = s.atBus.regs.read 7)) ∧
  (∀ (i : Instr) (s t : State), exec i s = .next t → ∃ new : List Transaction, t.blockFrames = new ++ s.blockFrames ∧
    ∀ tr ∈ new, tr.header.getLsbD 19 = true → 8 ≤ (headerReg tr.header).toNat) ∧
  (∀ (i : Instr) (s t : State), exec i s = .next t → ∀ a, a < 8 → (∀ m, s.MayMove m → ¬ m.Reidentifies a) →
    t.regs.read a = s.regs.read a)

/-- R48: which frames each operation issues, in order, with the block's device address. (Frames of other masters that
fall between them are not the block's.) -/
def Obligations.OperationsIssueTheirFrames : Prop :=
  ∀ (i : Instr) (s t : State), isOperation i = true → exec i s = .next t →
    ∃ new : List Transaction, t.blockFrames = new ++ s.blockFrames ∧
      match i with
      | .identify _ => ∃ r, new = [⟨.block, s.headerTo 0x00002#20, [], r⟩]
      | .readInfo _ => ∃ r, new = [⟨.block, s.headerTo 0x00008#20, [], r⟩]
      | .readCounter _ | .encoderAsFraction _ => ∃ r, new = [⟨.block, s.headerTo 0x00082#20, [], r⟩]
      | .writeCounter v =>
        if v.toNat ≤ 1023 then ∃ r, new = [⟨.block, s.headerTo 0x80082#20, [hi8 v, lo8 v], r⟩] else new = []
      | .readGain _ => ∃ r, new = [⟨.block, s.headerTo 0x000B1#20, [], r⟩]
      | .writeGain v =>
        if 1 ≤ v.toNat ∧ v.toNat ≤ 51 then ∃ r, new = [⟨.block, s.headerTo 0x800B1#20, [lo8 v], r⟩] else new = []
      | .readKeyStatus _ =>
        (∃ r, new = [⟨.block, s.headerTo 0x000A1#20, [], r⟩] ∧ ∀ b, r = .answered [b] → b = 0x00#8) ∨
        (∃ r b, new = [⟨.block, s.headerTo 0x800A1#20, [0x00#8], r⟩, ⟨.block, s.headerTo 0x000A1#20, [], .answered [b]⟩] ∧
          b ≠ 0x00#8)
      | .poll _ =>
        (s.rateLimited s.clock = true ∧ new = []) ∨
        (s.rateLimited s.clock = false ∧
          ((∃ r, new = [⟨.block, s.headerTo 0x000A1#20, [], r⟩] ∧ ∀ b, r = .answered [b] → b = 0x00#8) ∨
          (∃ r b, new = [⟨.block, s.headerTo 0x800A1#20, [0x00#8], r⟩, ⟨.block, s.headerTo 0x000A1#20, [], .answered [b]⟩] ∧
            b ≠ 0x00#8)))
      | .takeDownPending _ | .isDown _ => new = []
      | .rdPid _ | .rdInfo _ | .rdCnt _ | .wrCnt _ _ | .rdKey _ | .wrKeyClr _ | .rdGain _ | .wrGain _ _ => False

/-- R161: a transport error ends the operation at the failed transaction and is reported with its code; the block's
state is as before but for the poll time of an effective `POLL`; no cell is changed by the failed transaction, under the
premise R43 (c) that the rule cites; the operations that issue no frame never report one; and one is reported only if
the last transaction of the block failed with that code. -/
def Obligations.TransportErrorEndsTheOperation : Prop :=
  (∀ (i : Instr) (s : State) (e : Byte) (taken : Bool), s.nextTurn.result = .err e taken →
    (isOperation i = true ∧
      (∀ arg, i ≠ .takeDownPending arg) ∧ (∀ arg, i ≠ .isDown arg) ∧
      (∀ v, i = .writeCounter v → v.toNat ≤ 1023) ∧ (∀ v, i = .writeGain v → 1 ≤ v.toNat ∧ v.toNat ≤ 51) ∧
      (∀ arg, i = .poll arg → s.rateLimited s.clock = false)) →
    ∃ t, exec i s = .next t ∧ t.responses = ⟨.transportError, false, e.setWidth 56⟩ :: s.responses ∧
      t.trace.length = s.atBus.trace.length + 1 ∧ (taken = false → SameCells s.atBus t) ∧
      SameConfig s t ∧ SameCache s t ∧ ((∀ arg, i ≠ .poll arg) → SameDebounce s t) ∧
      (∀ arg, i = .poll arg → t.pressCount = s.pressCount ∧ t.lastEdgeTime = s.lastEdgeTime ∧
        t.lastEdgeValid = s.lastEdgeValid ∧ t.downPending = s.downPending ∧ t.upPending = s.upPending ∧
        t.lastPollTime = s.clock ∧ t.lastPollValid = true)) ∧
  (∀ (i : Instr) (s : State) (e : Byte) (taken : Bool) (arg : U16), s.nextTurn.result = .ok →
    s.atBus.keyStatus ≠ 0x00#8 → s.afterKeyRead.nextTurn.result = .err e taken →
    (i = .readKeyStatus arg ∨ (i = .poll arg ∧ s.rateLimited s.clock = false)) →
    ∃ t, exec i s = .next t ∧ t.responses = ⟨.transportError, false, e.setWidth 56⟩ :: s.responses ∧
      t.trace.length = s.afterKeyRead.atBus.trace.length + 1 ∧ (taken = false → SameCells s.afterKeyRead.atBus t) ∧
      SameConfig s t ∧ SameCache s t ∧ (i = .readKeyStatus arg → SameDebounce s t) ∧
      (i = .poll arg → t.pressCount = s.pressCount ∧ t.lastEdgeTime = s.lastEdgeTime ∧
        t.lastEdgeValid = s.lastEdgeValid ∧ t.downPending = s.downPending ∧ t.upPending = s.upPending ∧
        t.lastPollTime = s.clock ∧ t.lastPollValid = true)) ∧
  (∀ (i : Instr) (s t : State) (r : Rsp), exec i s = .next t → t.responses = r :: s.responses →
    r.status = .transportError →
      ∃ tr e, t.trace.head? = some tr ∧ tr.master = .block ∧ tr.reply = .failed e ∧ r.data = e.setWidth 56 ∧
        s.trace.length < t.trace.length)

/-- Every operation ends with exactly one response, never `ILLEGAL_COMMAND`, with `flag = 0` unless its status is
`OK`; a bus frame by itself gives none. Any argument of an operation without operands gives the same behaviour. (The
status codes are D3, the ignored argument D24.) -/
def Obligations.OneResponseForEachOperation : Prop :=
  (∀ (i : Instr) (s : State), isOperation i = true →
    ∃ t r, exec i s = .next t ∧ t.responses = r :: s.responses ∧ r.status ≠ .illegalCommand ∧
      (r.status = .transportError → r.flag = false)) ∧
  (∀ (i : Instr) (s : State), isOperation i = false → ∃ t, exec i s = .next t ∧ t.responses = s.responses) ∧
  (∀ (s : State) (arg arg' : U16),
    ∀ op ∈ [Instr.identify, .readInfo, .readCounter, .readGain, .readKeyStatus, .encoderAsFraction, .poll,
      .takeDownPending, .isDown], exec (op arg) s = exec (op arg') s)

/-! ### Invariants of every step -/

/-- Every step keeps the invariant: the register file canonical and inside the map, the device address legal, and while
the button is DOWN both timestamps valid and in order. -/
def Obligations.StepKeepsInvariant : Prop :=
  ∀ s t : State, s.Inv → step s = .next t → t.Inv

/-- Every step keeps the peripheral's contract (counter in 0 to 1023, gain in 1 to 51), as long as no other master puts
a write with an illegal payload on the bus, and the peripheral is not exchanged for one that breaks the contract, neither
as the turn nor between transactions. (That the peripheral's own moves stay in range is the spec's D18, log 12; the
frames of other masters log 8; an exchange log 18.) -/
def Obligations.StepKeepsTheContract : Prop :=
  ∀ s t : State, (∀ turn rest, s.agenda = turn :: rest → turn.Legal) → s.LegalTraffic → s.InContract →
    step s = .next t → t.InContract

/-- The identity cells 0x00 to 0x07 change in a step to a next state only by an exchange of the peripheral or, 0x07, by a
new bus address (R205), whichever agent moves. The model's choices in it: the peripheral does not move them by itself
(the spec's decision D18, log 12); a frame of another master is one of the eight (log 8), and what would write to them
stops the step by name (log 10); a construction with another address keeps the one register file (log 16); the two
moves of R205 act as log 18 says. -/
def Obligations.IdentityCellsChangeOnlyFromOutside : Prop :=
  ∀ s t : State, step s = .next t → ∀ a, a < 8 → (∀ m, s.StepMayMove m → ¬ m.Reidentifies a) →
    t.regs.read a = s.regs.read a

/-- The configuration registers never change but by a construction (R23, I4). -/
def Obligations.ConfigurationNeverChanges : Prop :=
  ∀ s t : State, step s = .next t → (∀ turn rest, s.agenda = turn :: rest → ¬ turn.isConstruct) → SameConfig s t

/-- At most one raw edge is counted in a step: the press count stays, grows by one, or goes to 0. -/
def Obligations.AtMostOneEdgeIsCounted : Prop :=
  ∀ s t : State, step s = .next t →
    t.pressCount = s.pressCount ∨ t.pressCount = s.pressCount + 1 ∨ t.pressCount = 0

/-- The life of the notification: it is raised only by a `POLL` that goes from UP to DOWN, and lowered only by a
`TAKE_DOWN_PENDING` that delivers it, by a `POLL` that forces the state from DOWN to UP, or by a construction. -/
def Obligations.DownPendingLifeCycle : Prop :=
  ∀ s t : State, step s = .next t →
    (s.downPending = false → t.downPending = true →
      (∃ turn rest, s.agenda = turn :: rest ∧ turn.isPoll) ∧ s.fsm = .up ∧ t.fsm = .down) ∧
    (s.downPending = true → t.downPending = false →
      (∃ word arg rest, s.agenda = .caller word :: rest ∧ decodeCmd word = .ok (.takeDownPending arg) ∧
        t.responses = ⟨.ok, true, 0#56⟩ :: s.responses) ∨
      ((∃ turn rest, s.agenda = turn :: rest ∧ turn.isPoll) ∧ s.fsm = .down ∧ t.pressCount = 0 ∧
        s.lastEdgeTime + s.stuckTimeout < s.clock) ∨
      (∃ turn rest, s.agenda = turn :: rest ∧ turn.isConstruct))

/-- `up_pending` is set by every step that takes the button from DOWN to UP, but for a construction, and is lowered by
nothing but a construction. (The spec's decision D9.) -/
def Obligations.UpPendingIsSetOnEveryRelease : Prop :=
  ∀ s t : State, step s = .next t → (∀ turn rest, s.agenda = turn :: rest → ¬ turn.isConstruct) →
    (s.fsm = .down → t.fsm = .up → t.upPending = true) ∧
    (s.upPending = true → t.upPending = true) ∧
    (s.upPending = false → t.upPending = true → s.fsm = .down ∧ t.fsm = .up)

/-! ### Noninterference and refinement -/

/-- `gain_init`, `up_pending` and the identity cache never influence anything else: two states that differ only in them
step to states that differ only in them, with the same responses and the same bus traffic, or stop alike. (R23 I5,
D28.) -/
def Obligations.HiddenStateNeverShows : Prop :=
  ∀ s t : State, AgreeButHidden s t → OutcomesRelated AgreeButHidden (step s) (step t)

/-- A `press_count` of any width of one bit or more that wraps is observationally equal: a step of the narrowed state,
narrowed again, is the step of the full one, narrowed; responses and traffic are the same. -/
def Obligations.PressCountMayHaveAnyWidth : Prop :=
  ∀ (w : Nat) (s : State), 1 ≤ w →
    OutcomesRelated (fun a b => a.narrow w = b.narrow w) (step s) (step (s.narrow w))

/-! ### Runs -/

/-- No passing of time, no movement of the peripheral, no operation other than `POLL` moves the button state: in every
run of any length without a `POLL`, `IS_DOWN` goes on answering the same. -/
def Obligations.OnlyPollsRecoverAStuckPress : Prop :=
  ∀ (k : Nat) (s t : State) (arg : U16), s.Unpolled → Host.Core.run Sys2Proof.core k s = .next t →
    t.fsm = s.fsm ∧
    exec (.isDown arg) t = .next { t with responses := ⟨.ok, decide (s.fsm = .down), 0#56⟩ :: t.responses }

/-- Exactly-once delivery: after a `TAKE_DOWN_PENDING`, in whatever run without a `POLL` follows, a second one answers
false. -/
def Obligations.NotificationIsDeliveredOnce : Prop :=
  ∀ (k : Nat) (s u t : State) (arg arg' : U16), s.Unpolled → exec (.takeDownPending arg) s = .next u →
    Host.Core.run Sys2Proof.core k u = .next t →
      exec (.takeDownPending arg') t =
        .next { t with responses := ⟨.ok, false, 0#56⟩ :: t.responses }

/-- Counter round trip: a written value is read back, when neither transaction fails and nothing writes the counter in
between, neither a rotation nor another master nor an exchange of the peripheral; a rejected value leaves the counter, and the fraction is that of the
counter. -/
def Obligations.CounterRoundTrip : Prop :=
  ∀ (s t : State) (value arg : U16), exec (.writeCounter value) s = .next t →
    (value.toNat ≤ 1023 → s.nextTurn.result = .ok → t.nextTurn.result = .ok →
      (∀ e ∈ t.nextTurn.events, ¬ e.Writes t.devAddr 0x08 ∧ ¬ e.Writes t.devAddr 0x09) →
      (∃ u, exec (.readCounter arg) t = .next u ∧
        u.responses = ⟨.ok, false, BitVec.ofNat 56 value.toNat⟩ :: t.responses) ∧
      (∃ u r, exec (.encoderAsFraction arg) t = .next u ∧ u.responses = r :: t.responses ∧
        fractionOf r = (value.toNat : Rat) / 1023)) ∧
    (1023 < value.toNat → t.counter = s.counter ∧ t.regs = s.regs)

/-- Gain round trip: a written value is read back when neither transaction fails and nothing writes the gain in between,
neither another master nor an exchange of the peripheral; whatever the peripheral does (it never writes it: D18, log 12);
a rejected value leaves the gain. -/
def Obligations.GainRoundTrip : Prop :=
  ∀ (s t : State) (value arg : U16), exec (.writeGain value) s = .next t →
    (1 ≤ value.toNat → value.toNat ≤ 51 → s.nextTurn.result = .ok → t.nextTurn.result = .ok →
      (∀ e ∈ t.nextTurn.events, ¬ e.Writes t.devAddr 0x0B) →
      ∃ u, exec (.readGain arg) t = .next u ∧
        u.responses = ⟨.ok, false, BitVec.ofNat 56 value.toNat⟩ :: t.responses) ∧
    (value.toNat < 1 ∨ 51 < value.toNat → t.gain = s.gain ∧ t.regs = s.regs)

/-! ### Hazards -/

/-- An edge in the acknowledge window is erased: whatever the peripheral and other masters do between `RD_KEY` and
`WR_KEY_CLR`, after an acknowledged edge the flag is 0x00, and the poll has counted one edge. -/
def Obligations.WindowEdgeIsErased : Prop :=
  ∀ (s u t : State) (arg : U16), s.KeyEdge u → s.rateLimited s.clock = false → exec (.poll arg) s = .next t →
    t.keyStatus = 0x00#8 ∧ t.pressCount = s.pressCount + 1

/-- A foreign acknowledge takes the edge away: after a successful `WR_KEY_CLR` of another master at this peripheral, an
effective `POLL` with no button event before it (nor an exchange for a peripheral with an edge pending, R205) and a bus
that works counts nothing. (A bus frame by itself is the
model's, log 8.) -/
def Obligations.ForeignAcknowledgeTakesTheEdge : Prop :=
  ∀ (s t v : State) (arg : U16) (rest : List Turn),
    s.agenda = .bus (s.headerTo 0x800A1#20) [0x00#8] :: rest → s.nextTurn.result = .ok → step s = .next t →
    t.rateLimited t.clock = false → t.nextTurn.result = .ok → (∀ e ∈ t.nextTurn.events, ¬ e.RaisesKey) →
    exec (.poll arg) t = .next v →
      t.keyStatus = 0x00#8 ∧ (v.pressCount = s.pressCount ∨ v.pressCount = 0) ∧
        (s.fsm = .up → v.fsm = .up ∧ v.downPending = s.downPending)

/-- A transport that fails after the peripheral took the write (R198, against the premise R43 (c)). A `WR_KEY_CLR` that
fails so loses the edge: `POLL` and `READ_KEY_STATUS` end with the error, nothing is counted, and nothing is pending. A
`WR_CNT` or `WR_GAIN` that fails so leaves the new value, although the caller is told of a failure. The block cannot
detect either: whether a failed write was taken shows neither in the response, nor in the bus record, nor in any
register of the block. (U16; log 11.) -/
def Obligations.LateFailureLosesTheEdge : Prop :=
  (∀ (s : State) (i : Instr) (arg : U16) (e : Byte), s.nextTurn.result = .ok → s.atBus.keyStatus ≠ 0x00#8 →
    s.afterKeyRead.nextTurn.result = .err e true →
    (i = .readKeyStatus arg ∨ (i = .poll arg ∧ s.rateLimited s.clock = false)) →
      ∃ t, exec i s = .next t ∧ t.responses = ⟨.transportError, false, e.setWidth 56⟩ :: s.responses ∧
        t.keyStatus = 0x00#8 ∧ t.pressCount = s.pressCount ∧ t.downPending = s.downPending) ∧
  (∀ (s : State) (value : U16) (e : Byte), s.nextTurn.result = .err e true →
    (value.toNat ≤ 1023 → ∃ t, exec (.writeCounter value) s = .next t ∧
      t.responses = ⟨.transportError, false, e.setWidth 56⟩ :: s.responses ∧ t.counter = value) ∧
    (1 ≤ value.toNat → value.toNat ≤ 51 → ∃ t, exec (.writeGain value) s = .next t ∧
      t.responses = ⟨.transportError, false, e.setWidth 56⟩ :: s.responses ∧ t.gain.toNat = value.toNat)) ∧
  (∀ (s : State) (i : Instr) (a b : BusTurn) (rest : List BusTurn), isOperation i = true →
    ∃ t u, exec i { s with busTurns := a :: b :: rest } = .next t ∧
      exec i { s with busTurns := a.strict :: b.strict :: rest } = .next u ∧
      t.responses = u.responses ∧ t.trace = u.trace ∧ SameConfig t u ∧ SameDebounce t u ∧ SameCache t u)

/-- Other instances on the bus are harmless (R58): whole frames to other devices, at any of the moments at which they
may fall, also between the two frames of one `READ_KEY_STATUS`, change nothing that an operation does, leaves, answers
or puts on the bus. Two turns of the script are all that one operation uses. (The frames and the free bytes that answer
them are the model's, log 6 and 8.) -/
def Obligations.OtherInstancesAreHarmless : Prop :=
  ∀ (s : State) (i : Instr), isOperation i = true → 2 ≤ s.busTurns.length →
    OutcomesRelated (fun t u => t.alone = u.alone) (exec i s) (exec i s.alone)

/-- Stale identity (R205). When the peripheral is exchanged, or its bus address changed by some other master, the block
keeps its device address and the identity cache, which then need not agree with the cells. They stay so in every run of
any length in which nobody asks again, whatever else happens. `READ_INFO` and `IDENTIFY` ask again, at the same device
address, and deliver what the new peripheral holds. (The moves are the model's, log 18, the agenda log 5.) -/
def Obligations.StaleIdentityUntilReadAgain : Prop :=
  (∀ (s : State) (cells : Vector Byte 12) (rest : List Turn), s.agenda = .env (.exchange cells) :: rest →
    ∃ t, step s = .next t ∧ t.devAddr = s.devAddr ∧ SameCache s t ∧ (∀ a, (h : a < 12) → t.regs.read a = cells[a])) ∧
  (∀ (s : State) (n : Fin 127) (rest : List Turn), s.agenda = .env (.readdress n) :: rest →
    ∃ t, step s = .next t ∧ t.devAddr = s.devAddr ∧ SameCache s t ∧ (t.regs.read 7).toNat = n.val + 1) ∧
  (∀ (k : Nat) (s t : State), s.Unasked → Host.Core.run Sys2Proof.core k s = .next t →
    t.devAddr = s.devAddr ∧ SameCache s t) ∧
  (∀ (s : State) (cells : Vector Byte 12) (arg : U16), (∀ a, (h : a < 8) → s.regs.read a = cells[a]) →
    s.nextTurn.result = .ok → (∀ e ∈ s.nextTurn.events, ∀ a, a < 8 → ¬ e.Writes s.devAddr a) →
    (∃ t r, exec (.readInfo arg) s = .next t ∧ t.infoProductId = be16 cells[0] cells[1] ∧
      t.infoVendorId = be16 cells[2] cells[3] ∧ t.infoVersion = be16 cells[4] cells[5] ∧ t.infoBusAddress = cells[7] ∧
      t.infoValid = true ∧ t.trace.head? = some ⟨.block, s.headerTo 0x00008#20, [], r⟩) ∧
    (∃ t rsp r, exec (.identify arg) s = .next t ∧ t.responses = rsp :: s.responses ∧ rsp.status = .ok ∧
      rsp.flag = decide (be16 cells[0] cells[1] = 0x01F6#16) ∧ rsp.data = (be16 cells[0] cells[1]).setWidth 56 ∧
      t.trace.head? = some ⟨.block, s.headerTo 0x00002#20, [], r⟩))
end

