-- ==== Sys2Proof/Laws/Memory.lean ====
section
/-! SUPPORT. The register file: a read after a write, blocks of cells, the canonical form. -/

namespace Sys2Proof.Machine

theorem Memory.read_drop (m : Memory) (a x : Nat) :
    (m.drop a).read x = if x = a then Config.blankCell else m.read x := by
  induction m with
  | nil => simp [Memory.drop, Memory.read]
  | cons c rest ih =>
    obtain ⟨b, w⟩ := c
    simp only [Memory.drop] at ih ⊢
    by_cases hb : b = a
    · subst hb
      simp only [List.filter_cons, bne_self_eq_false, Bool.false_eq_true, if_false, ih, Memory.read]
      split <;> rfl
    · have hb' : (b != a) = true := by simp [hb]
      simp only [List.filter_cons, hb', if_true, Memory.read, ih]
      by_cases hx : x = b
      · subst hx; simp [hb]
      · simp [hx]

theorem Memory.read_place (m : Memory) (a x : Nat) (v : Byte) (h : ∀ c ∈ m, c.1 ≠ a) :
    (Memory.place a v m).read x = if x = a then v else m.read x := by
  induction m with
  | nil => simp [Memory.place, Memory.read]
  | cons c rest ih =>
    obtain ⟨b, w⟩ := c
    have hb : b ≠ a := h (b, w) (by simp)
    have ih := ih fun c hc => h c (by simp [hc])
    simp only [Memory.place]
    split
    · simp [Memory.read]
    · simp only [Memory.read, ih]
      by_cases hx : x = b
      · subst hx; simp [hb]
      · simp [hx]

theorem Memory.mem_drop {m : Memory} {a : Nat} {c : Host.Cell} : c ∈ m.drop a ↔ c ∈ m ∧ c.1 ≠ a := by
  simp [Memory.drop]

/-- Reading after writing one byte, in any register file. -/
theorem Memory.read_write (m : Memory) (a x : Nat) (v : Byte) :
    (m.write a v).read x = if x = a then v else m.read x := by
  unfold Memory.write
  split
  · next h => rw [Memory.read_drop, h]
  · rw [Memory.read_place _ _ _ _ fun c hc => (Memory.mem_drop.mp hc).2, Memory.read_drop]
    split <;> rfl

@[simp] theorem Memory.read_write_same (m : Memory) (a : Nat) (v : Byte) : (m.write a v).read a = v := by
  simp [Memory.read_write]

theorem Memory.read_write_other (m : Memory) {a x : Nat} (v : Byte) (h : x ≠ a) :
    (m.write a v).read x = m.read x := by
  simp [Memory.read_write, h]

/-- Reading after writing a block: inside it the byte stored there, outside it what was there. -/
theorem Memory.read_writeBlock (m : Memory) (reg : Nat) (bytes : List Byte) (a : Nat) :
    (m.writeBlock reg bytes).read a =
      if reg ≤ a ∧ a < reg + bytes.length then bytes.getD (a - reg) Config.blankCell else m.read a := by
  induction bytes generalizing m reg with
  | nil =>
    have : ¬ (reg ≤ a ∧ a < reg) := by omega
    simp [Memory.writeBlock, this]
  | cons b bs ih =>
    rw [Memory.writeBlock, ih, Memory.read_write]
    simp only [List.length_cons]
    by_cases h0 : a = reg
    · subst h0
      simp
    · by_cases h1 : reg + 1 ≤ a ∧ a < reg + 1 + bs.length
      · have h2 : reg ≤ a ∧ a < reg + (bs.length + 1) := by omega
        have h3 : a - reg = (a - (reg + 1)) + 1 := by omega
        simp [h1, h2, h3]
      · have h2 : ¬ (reg ≤ a ∧ a < reg + (bs.length + 1)) := by omega
        simp only [h1, h2, if_false, h0]

theorem Memory.read_writeBlock_outside (m : Memory) {reg a : Nat} {bytes : List Byte}
    (h : a < reg ∨ reg + bytes.length ≤ a) : (m.writeBlock reg bytes).read a = m.read a := by
  rw [Memory.read_writeBlock, if_neg (by omega)]

@[simp] theorem Memory.length_readBlock (m : Memory) (reg n : Nat) : (m.readBlock reg n).length = n := by
  simp [Memory.readBlock]

theorem Memory.getD_readBlock (m : Memory) {reg n i : Nat} (d : Byte) (h : i < n) :
    (m.readBlock reg n).getD i d = m.read (reg + i) := by
  simp [Memory.readBlock, List.getD, h]

/-! ### The canonical form -/

theorem Memory.drop_wf {m : Memory} (h : m.wf) (a : Nat) : (m.drop a).wf :=
  ⟨h.1.filter _, fun c hc => h.2 c (Memory.mem_drop.mp hc).1⟩

theorem Memory.mem_place {m : Memory} {a : Nat} {v : Byte} {c : Host.Cell} :
    c ∈ Memory.place a v m ↔ c = (a, v) ∨ c ∈ m := by
  induction m with
  | nil => simp [Memory.place]
  | cons d rest ih =>
    simp only [Memory.place]
    split
    · simp
    · simp only [List.mem_cons, ih]
      tauto

theorem Memory.place_sorted {m : Memory} {a : Nat} {v : Byte} (h : m.Pairwise fun x y => x.1 < y.1)
    (hne : ∀ c ∈ m, c.1 ≠ a) : (Memory.place a v m).Pairwise fun x y => x.1 < y.1 := by
  induction m with
  | nil => simp [Memory.place]
  | cons d rest ih =>
    obtain ⟨hd, hrest⟩ := List.pairwise_cons.mp h
    simp only [Memory.place]
    split
    · next hlt =>
      refine List.pairwise_cons.mpr ⟨fun c hc => ?_, h⟩
      rcases List.mem_cons.mp hc with rfl | hc
      · exact hlt
      · exact hlt.trans (hd c hc)
    · next hge =>
      have hda : d.1 ≠ a := hne d (by simp)
      refine List.pairwise_cons.mpr ⟨fun c hc => ?_, ih hrest fun c hc => hne c (by simp [hc])⟩
      rcases Memory.mem_place.mp hc with rfl | hc
      · show d.1 < a
        omega
      · exact hd c hc

/-- A write inside the map keeps the canonical form. -/
theorem Memory.write_wf {m : Memory} (h : m.wf) {a : Nat} (ha : a < Config.mapSize) (v : Byte) : (m.write a v).wf := by
  unfold Memory.write
  split
  · exact Memory.drop_wf h a
  · next hv =>
    refine ⟨Memory.place_sorted (Memory.drop_wf h a).1 fun c hc => (Memory.mem_drop.mp hc).2, fun c hc => ?_⟩
    rcases Memory.mem_place.mp hc with rfl | hc
    · exact ⟨hv, ha⟩
    · exact (Memory.drop_wf h a).2 c hc

/-- So does a write of a block inside the map. -/
theorem Memory.writeBlock_wf {m : Memory} (h : m.wf) {reg : Nat} {bytes : List Byte}
    (hb : reg + bytes.length ≤ Config.mapSize) : (m.writeBlock reg bytes).wf := by
  induction bytes generalizing m reg with
  | nil => exact h
  | cons b bs ih =>
    simp only [List.length_cons] at hb
    exact ih (Memory.write_wf h (by omega) b) (by omega)

theorem State.reset_regs_wf : State.reset.regs.wf := by decide

end Sys2Proof.Machine
end

