-- ==== Sys2Proof/Laws/Decode.lean ====
section
/-! SUPPORT. The fields of a CMD word, of a BUS header and of a two-byte value, read back from what was put together. -/

namespace Sys2Proof

/-! ### Two-byte values -/

theorem be16_toNat (b0 b1 : Byte) : (be16 b0 b1).toNat = 256 * b0.toNat + b1.toNat := by
  have h0 := b0.isLt
  have h1 := b1.isLt
  have h : b0.toNat <<< 8 % 2 ^ 16 = b0.toNat <<< 8 := by
    rw [Nat.shiftLeft_eq]; omega
  simp only [be16, BitVec.toNat_or, BitVec.toNat_shiftLeft, BitVec.toNat_setWidth]
  rw [Nat.mod_eq_of_lt (show b0.toNat < 2 ^ 16 by omega), Nat.mod_eq_of_lt (show b1.toNat < 2 ^ 16 by omega), h,
    ← Nat.shiftLeft_add_eq_or_of_lt h1, Nat.shiftLeft_eq]
  omega

theorem hi8_toNat (v : U16) : (hi8 v).toNat = v.toNat / 256 := by
  have h := v.isLt
  rw [hi8, BitVec.extractLsb'_toNat, Nat.shiftRight_eq_div_pow]
  omega

theorem lo8_toNat (v : U16) : (lo8 v).toNat = v.toNat % 256 := by
  have h := v.isLt
  rw [lo8, BitVec.extractLsb'_toNat, Nat.shiftRight_eq_div_pow]
  omega

theorem be16_hi8_lo8 (v : U16) : be16 (hi8 v) (lo8 v) = v := by
  apply BitVec.eq_of_toNat_eq
  rw [be16_toNat, hi8_toNat, lo8_toNat]
  omega

theorem hi8_be16 (b0 b1 : Byte) : hi8 (be16 b0 b1) = b0 := by
  apply BitVec.eq_of_toNat_eq
  have h1 := b1.isLt
  rw [hi8_toNat, be16_toNat]
  omega

theorem lo8_be16 (b0 b1 : Byte) : lo8 (be16 b0 b1) = b1 := by
  apply BitVec.eq_of_toNat_eq
  have h1 := b1.isLt
  rw [lo8_toNat, be16_toNat]
  omega

/-! ### CMD words -/

theorem cmdWord_toNat (op : BitVec 4) (arg : U16) : (cmdWord op arg).toNat = op.toNat * 65536 + arg.toNat := by
  have h := arg.isLt
  rw [cmdWord, BitVec.toNat_append, ← Nat.shiftLeft_add_eq_or_of_lt h, Nat.shiftLeft_eq]

theorem cmdWord_op (op : BitVec 4) (arg : U16) : (cmdWord op arg).extractLsb' 16 4 = op := by
  apply BitVec.eq_of_toNat_eq
  have h := arg.isLt
  have h' := op.isLt
  rw [BitVec.extractLsb'_toNat, cmdWord_toNat, Nat.shiftRight_eq_div_pow]
  omega

theorem cmdWord_arg (op : BitVec 4) (arg : U16) : (cmdWord op arg).extractLsb' 0 16 = arg := by
  apply BitVec.eq_of_toNat_eq
  have h := arg.isLt
  have h' := op.isLt
  rw [BitVec.extractLsb'_toNat, cmdWord_toNat, Nat.shiftRight_eq_div_pow]
  omega

theorem cmdWord_fields (w : Word20) : cmdWord (w.extractLsb' 16 4) (w.extractLsb' 0 16) = w := by
  apply BitVec.eq_of_toNat_eq
  have h := w.isLt
  rw [cmdWord_toNat, BitVec.extractLsb'_toNat, BitVec.extractLsb'_toNat, Nat.shiftRight_eq_div_pow,
    Nat.shiftRight_eq_div_pow]
  omega

/-! ### The frames' registers and lengths (R76) -/

@[simp] theorem reg_rdPid : FrameKind.rdPid.reg.toNat = 0 := rfl
@[simp] theorem len_rdPid : FrameKind.rdPid.len.toNat = 2 := rfl
@[simp] theorem reg_rdInfo : FrameKind.rdInfo.reg.toNat = 0 := rfl
@[simp] theorem len_rdInfo : FrameKind.rdInfo.len.toNat = 8 := rfl
@[simp] theorem reg_rdCnt : FrameKind.rdCnt.reg.toNat = 8 := rfl
@[simp] theorem len_rdCnt : FrameKind.rdCnt.len.toNat = 2 := rfl
@[simp] theorem reg_wrCnt : FrameKind.wrCnt.reg.toNat = 8 := rfl
@[simp] theorem len_wrCnt : FrameKind.wrCnt.len.toNat = 2 := rfl
@[simp] theorem reg_rdKey : FrameKind.rdKey.reg.toNat = 10 := rfl
@[simp] theorem len_rdKey : FrameKind.rdKey.len.toNat = 1 := rfl
@[simp] theorem reg_wrKeyClr : FrameKind.wrKeyClr.reg.toNat = 10 := rfl
@[simp] theorem len_wrKeyClr : FrameKind.wrKeyClr.len.toNat = 1 := rfl
@[simp] theorem reg_rdGain : FrameKind.rdGain.reg.toNat = 11 := rfl
@[simp] theorem len_rdGain : FrameKind.rdGain.len.toNat = 1 := rfl
@[simp] theorem reg_wrGain : FrameKind.wrGain.reg.toNat = 11 := rfl
@[simp] theorem len_wrGain : FrameKind.wrGain.len.toNat = 1 := rfl
@[simp] theorem header0_rdPid : FrameKind.rdPid.header 0#7 = 0x00002#20 := by decide
@[simp] theorem header0_rdInfo : FrameKind.rdInfo.header 0#7 = 0x00008#20 := by decide
@[simp] theorem header0_rdCnt : FrameKind.rdCnt.header 0#7 = 0x00082#20 := by decide
@[simp] theorem header0_wrCnt : FrameKind.wrCnt.header 0#7 = 0x80082#20 := by decide
@[simp] theorem header0_rdKey : FrameKind.rdKey.header 0#7 = 0x000A1#20 := by decide
@[simp] theorem header0_wrKeyClr : FrameKind.wrKeyClr.header 0#7 = 0x800A1#20 := by decide
@[simp] theorem header0_rdGain : FrameKind.rdGain.header 0#7 = 0x000B1#20 := by decide
@[simp] theorem header0_wrGain : FrameKind.wrGain.header 0#7 = 0x800B1#20 := by decide

/-! ### BUS headers -/

theorem frameKindOf_header (dev : DevAddr) (k : FrameKind) : frameKindOf (k.header dev) = some k := by
  revert dev; cases k <;> decide

theorem headerDev_header (dev : DevAddr) (k : FrameKind) : headerDev (k.header dev) = dev := by
  revert dev; cases k <;> decide

theorem headerReg_header (dev : DevAddr) (k : FrameKind) : headerReg (k.header dev) = k.reg := by
  revert dev; cases k <;> decide

theorem headerLen_header (dev : DevAddr) (k : FrameKind) : headerLen (k.header dev) = k.len := by
  revert dev; cases k <;> decide

/-- The header with `dev = 0` OR the device address at bit 12 (R76). -/
theorem header_eq_or (dev : DevAddr) (k : FrameKind) : k.header dev = k.header 0#7 ||| (dev.setWidth 20 <<< 12) := by
  revert dev; cases k <;> decide

theorem word20_eq_or_dev (h : Word20) : h = (h &&& 0x80FFF#20) ||| ((headerDev h).setWidth 20 <<< 12) := by
  ext i hi
  simp only [BitVec.getElem_or, BitVec.getElem_and, BitVec.getElem_shiftLeft, headerDev]
  interval_cases i <;> simp

theorem header_of_frameKindOf {h : Word20} {k : FrameKind} (hk : frameKindOf h = some k) :
    k.header (headerDev h) = h := by
  have hm := List.find?_some hk
  rw [beq_iff_eq] at hm
  rw [header_eq_or, hm, ← word20_eq_or_dev]

theorem decodeFrame_header (k : FrameKind) (dev : DevAddr) (payload : List Byte) :
    decodeFrame (k.header dev) payload =
      match k.instr? dev payload with
      | some i => .ok i
      | none => .error (rejectFrame (k.header dev)) := by
  cases hk : k.instr? dev payload <;>
    simp only [decodeFrame, frameKindOf_header, Option.bind_some, headerDev_header, hk]

/-- A frame that decodes: its kind, and its payload. -/
theorem decodeFrame_ok {h : Word20} {payload : List Byte} {i : Instr} (hi : decodeFrame h payload = .ok i) :
    ∃ k, frameKindOf h = some k ∧ k.instr? (headerDev h) payload = some i := by
  unfold decodeFrame at hi
  split at hi
  · next j hj =>
    obtain ⟨k, hk, hk'⟩ := Option.bind_eq_some_iff.mp hj
    cases hi
    exact ⟨k, hk, hk'⟩
  · cases hi

/-- A frame that does not decode is rejected as `rejectFrame` says. -/
theorem decodeFrame_error {h : Word20} {payload : List Byte} {r : Reject} (hr : decodeFrame h payload = .error r) :
    r = rejectFrame h := by
  unfold decodeFrame at hr
  split at hr
  · cases hr
  · cases hr; rfl

/-- What decodes from a frame is no operation. -/
theorem decodeFrame_not_operation {h : Word20} {payload : List Byte} {i : Instr} (hi : decodeFrame h payload = .ok i) :
    Machine.isOperation i = false := by
  obtain ⟨k, _, hk⟩ := decodeFrame_ok hi
  cases k <;> rcases payload with _ | ⟨b0, _ | ⟨b1, _ | ⟨b2, p⟩⟩⟩ <;>
    simp only [FrameKind.instr?, noPayload, onePayload, twoPayload, reduceCtorEq] at hk
  case wrKeyClr.cons.nil =>
    split at hk <;> cases hk
    rfl
  all_goals (cases hk; rfl)

end Sys2Proof
end

