-- ==== Sys2Proof/Laws/Operands.lean ====
section
/-! SUPPORT. The range tests, the rate limit and the fields of an answer, in arithmetic. -/

namespace Sys2Proof.Machine

theorem counterInRange_iff (v : U16) : counterInRange v = true ↔ v.toNat ≤ 1023 := by
  unfold counterInRange
  rw [decide_eq_true_eq]
  rfl

theorem counterInRange_false_iff (v : U16) : counterInRange v = false ↔ 1023 < v.toNat := by
  rw [← Bool.not_eq_true, counterInRange_iff]
  omega

theorem gainInRange_iff (v : U16) : gainInRange v = true ↔ 1 ≤ v.toNat ∧ v.toNat ≤ 51 := by
  unfold gainInRange
  rw [Bool.and_eq_true, decide_eq_true_eq, decide_eq_true_eq]
  rfl

theorem gainInRange_false_iff (v : U16) : gainInRange v = false ↔ v.toNat < 1 ∨ 51 < v.toNat := by
  rw [← Bool.not_eq_true, gainInRange_iff]
  omega

theorem State.rateLimited_iff (s : State) (now : Nat) :
    s.rateLimited now = true ↔ s.lastPollValid = true ∧ now < s.lastPollTime + s.pollInterval := by
  unfold State.rateLimited
  rw [Bool.and_eq_true, decide_eq_true_eq]

theorem State.rateLimited_false_iff (s : State) (now : Nat) :
    s.rateLimited now = false ↔ s.lastPollValid = false ∨ s.lastPollTime + s.pollInterval ≤ now := by
  rw [← Bool.not_eq_true, State.rateLimited_iff, not_and_or, Bool.not_eq_true, not_lt]

theorem State.isOdd_iff (s : State) : s.isOdd = true ↔ s.pressCount % 2 = 1 := by simp [State.isOdd]

theorem State.isOdd_false_iff (s : State) : s.isOdd = false ↔ s.pressCount % 2 = 0 := by
  simp [State.isOdd]

theorem State.fsm_down_iff (s : State) : s.fsm = .down ↔ s.pressCount % 2 = 1 := by
  rw [← s.isOdd_iff]
  unfold State.fsm
  split <;> simp_all

theorem State.fsm_up_iff (s : State) : s.fsm = .up ↔ s.pressCount % 2 = 0 := by
  rw [← s.isOdd_false_iff]
  unfold State.fsm
  split <;> simp_all

/-- The button state is the parity of the count: equal parities, equal states. -/
theorem State.fsm_congr {s t : State} (h : s.pressCount % 2 = t.pressCount % 2) : s.fsm = t.fsm := by
  simp [State.fsm, State.isOdd, h]

/-- A byte as a response carries it. -/
theorem byte_setWidth (b : Byte) : b.setWidth 56 = BitVec.ofNat 56 b.toNat := by
  apply BitVec.eq_of_toNat_eq
  simp

/-- The value of a two-byte answer as a response carries it. -/
theorem be16_setWidth (b0 b1 : Byte) : (be16 b0 b1).setWidth 56 = BitVec.ofNat 56 (256 * b0.toNat + b1.toNat) := by
  apply BitVec.eq_of_toNat_eq
  simp [be16_toNat]

end Sys2Proof.Machine
end

