-- ==== Sys2Proof/Laws/State.lean ====
section
/-! SUPPORT. One lemma for each field and each named update: what the field holds after it. Tagged for simp, so that no
later proof unfolds a record update. -/

namespace Sys2Proof.Machine

/-! ### `respond` -/

@[simp] theorem State.respond_devAddr (s : State) (r : Rsp) : (s.respond r).devAddr = s.devAddr := rfl
@[simp] theorem State.respond_gainInit (s : State) (r : Rsp) : (s.respond r).gainInit = s.gainInit := rfl
@[simp] theorem State.respond_pollInterval (s : State) (r : Rsp) : (s.respond r).pollInterval = s.pollInterval := rfl
@[simp] theorem State.respond_stuckTimeout (s : State) (r : Rsp) : (s.respond r).stuckTimeout = s.stuckTimeout := rfl
@[simp] theorem State.respond_pressCount (s : State) (r : Rsp) : (s.respond r).pressCount = s.pressCount := rfl
@[simp] theorem State.respond_lastPollTime (s : State) (r : Rsp) : (s.respond r).lastPollTime = s.lastPollTime := rfl
@[simp] theorem State.respond_lastPollValid (s : State) (r : Rsp) : (s.respond r).lastPollValid = s.lastPollValid := rfl
@[simp] theorem State.respond_lastEdgeTime (s : State) (r : Rsp) : (s.respond r).lastEdgeTime = s.lastEdgeTime := rfl
@[simp] theorem State.respond_lastEdgeValid (s : State) (r : Rsp) : (s.respond r).lastEdgeValid = s.lastEdgeValid := rfl
@[simp] theorem State.respond_downPending (s : State) (r : Rsp) : (s.respond r).downPending = s.downPending := rfl
@[simp] theorem State.respond_upPending (s : State) (r : Rsp) : (s.respond r).upPending = s.upPending := rfl
@[simp] theorem State.respond_infoValid (s : State) (r : Rsp) : (s.respond r).infoValid = s.infoValid := rfl
@[simp] theorem State.respond_infoProductId (s : State) (r : Rsp) : (s.respond r).infoProductId = s.infoProductId := rfl
@[simp] theorem State.respond_infoVendorId (s : State) (r : Rsp) : (s.respond r).infoVendorId = s.infoVendorId := rfl
@[simp] theorem State.respond_infoVersion (s : State) (r : Rsp) : (s.respond r).infoVersion = s.infoVersion := rfl
@[simp] theorem State.respond_infoBusAddress (s : State) (r : Rsp) : (s.respond r).infoBusAddress = s.infoBusAddress := rfl
@[simp] theorem State.respond_regs (s : State) (r : Rsp) : (s.respond r).regs = s.regs := rfl
@[simp] theorem State.respond_clock (s : State) (r : Rsp) : (s.respond r).clock = s.clock := rfl
@[simp] theorem State.respond_agenda (s : State) (r : Rsp) : (s.respond r).agenda = s.agenda := rfl
@[simp] theorem State.respond_busTurns (s : State) (r : Rsp) : (s.respond r).busTurns = s.busTurns := rfl
@[simp] theorem State.respond_freeCount (s : State) (r : Rsp) : (s.respond r).freeCount = s.freeCount := rfl
@[simp] theorem State.respond_responses (s : State) (r : Rsp) : (s.respond r).responses = r :: s.responses := rfl
@[simp] theorem State.respond_trace (s : State) (r : Rsp) : (s.respond r).trace = s.trace := rfl

/-! ### `record` -/

@[simp] theorem State.record_devAddr (s : State) (t : Transaction) : (s.record t).devAddr = s.devAddr := rfl
@[simp] theorem State.record_gainInit (s : State) (t : Transaction) : (s.record t).gainInit = s.gainInit := rfl
@[simp] theorem State.record_pollInterval (s : State) (t : Transaction) : (s.record t).pollInterval = s.pollInterval := rfl
@[simp] theorem State.record_stuckTimeout (s : State) (t : Transaction) : (s.record t).stuckTimeout = s.stuckTimeout := rfl
@[simp] theorem State.record_pressCount (s : State) (t : Transaction) : (s.record t).pressCount = s.pressCount := rfl
@[simp] theorem State.record_lastPollTime (s : State) (t : Transaction) : (s.record t).lastPollTime = s.lastPollTime := rfl
@[simp] theorem State.record_lastPollValid (s : State) (t : Transaction) : (s.record t).lastPollValid = s.lastPollValid := rfl
@[simp] theorem State.record_lastEdgeTime (s : State) (t : Transaction) : (s.record t).lastEdgeTime = s.lastEdgeTime := rfl
@[simp] theorem State.record_lastEdgeValid (s : State) (t : Transaction) : (s.record t).lastEdgeValid = s.lastEdgeValid := rfl
@[simp] theorem State.record_downPending (s : State) (t : Transaction) : (s.record t).downPending = s.downPending := rfl
@[simp] theorem State.record_upPending (s : State) (t : Transaction) : (s.record t).upPending = s.upPending := rfl
@[simp] theorem State.record_infoValid (s : State) (t : Transaction) : (s.record t).infoValid = s.infoValid := rfl
@[simp] theorem State.record_infoProductId (s : State) (t : Transaction) : (s.record t).infoProductId = s.infoProductId := rfl
@[simp] theorem State.record_infoVendorId (s : State) (t : Transaction) : (s.record t).infoVendorId = s.infoVendorId := rfl
@[simp] theorem State.record_infoVersion (s : State) (t : Transaction) : (s.record t).infoVersion = s.infoVersion := rfl
@[simp] theorem State.record_infoBusAddress (s : State) (t : Transaction) : (s.record t).infoBusAddress = s.infoBusAddress := rfl
@[simp] theorem State.record_regs (s : State) (t : Transaction) : (s.record t).regs = s.regs := rfl
@[simp] theorem State.record_clock (s : State) (t : Transaction) : (s.record t).clock = s.clock := rfl
@[simp] theorem State.record_agenda (s : State) (t : Transaction) : (s.record t).agenda = s.agenda := rfl
@[simp] theorem State.record_busTurns (s : State) (t : Transaction) : (s.record t).busTurns = s.busTurns := rfl
@[simp] theorem State.record_freeCount (s : State) (t : Transaction) : (s.record t).freeCount = s.freeCount := rfl
@[simp] theorem State.record_responses (s : State) (t : Transaction) : (s.record t).responses = s.responses := rfl
@[simp] theorem State.record_trace (s : State) (t : Transaction) : (s.record t).trace = t :: s.trace := rfl

/-! ### `recordPoll` -/

@[simp] theorem State.recordPoll_devAddr (s : State) (now : Nat) : (s.recordPoll now).devAddr = s.devAddr := rfl
@[simp] theorem State.recordPoll_gainInit (s : State) (now : Nat) : (s.recordPoll now).gainInit = s.gainInit := rfl
@[simp] theorem State.recordPoll_pollInterval (s : State) (now : Nat) : (s.recordPoll now).pollInterval = s.pollInterval := rfl
@[simp] theorem State.recordPoll_stuckTimeout (s : State) (now : Nat) : (s.recordPoll now).stuckTimeout = s.stuckTimeout := rfl
@[simp] theorem State.recordPoll_pressCount (s : State) (now : Nat) : (s.recordPoll now).pressCount = s.pressCount := rfl
@[simp] theorem State.recordPoll_lastPollTime (s : State) (now : Nat) : (s.recordPoll now).lastPollTime = now := rfl
@[simp] theorem State.recordPoll_lastPollValid (s : State) (now : Nat) : (s.recordPoll now).lastPollValid = true := rfl
@[simp] theorem State.recordPoll_lastEdgeTime (s : State) (now : Nat) : (s.recordPoll now).lastEdgeTime = s.lastEdgeTime := rfl
@[simp] theorem State.recordPoll_lastEdgeValid (s : State) (now : Nat) : (s.recordPoll now).lastEdgeValid = s.lastEdgeValid := rfl
@[simp] theorem State.recordPoll_downPending (s : State) (now : Nat) : (s.recordPoll now).downPending = s.downPending := rfl
@[simp] theorem State.recordPoll_upPending (s : State) (now : Nat) : (s.recordPoll now).upPending = s.upPending := rfl
@[simp] theorem State.recordPoll_infoValid (s : State) (now : Nat) : (s.recordPoll now).infoValid = s.infoValid := rfl
@[simp] theorem State.recordPoll_infoProductId (s : State) (now : Nat) : (s.recordPoll now).infoProductId = s.infoProductId := rfl
@[simp] theorem State.recordPoll_infoVendorId (s : State) (now : Nat) : (s.recordPoll now).infoVendorId = s.infoVendorId := rfl
@[simp] theorem State.recordPoll_infoVersion (s : State) (now : Nat) : (s.recordPoll now).infoVersion = s.infoVersion := rfl
@[simp] theorem State.recordPoll_infoBusAddress (s : State) (now : Nat) : (s.recordPoll now).infoBusAddress = s.infoBusAddress := rfl
@[simp] theorem State.recordPoll_regs (s : State) (now : Nat) : (s.recordPoll now).regs = s.regs := rfl
@[simp] theorem State.recordPoll_clock (s : State) (now : Nat) : (s.recordPoll now).clock = s.clock := rfl
@[simp] theorem State.recordPoll_agenda (s : State) (now : Nat) : (s.recordPoll now).agenda = s.agenda := rfl
@[simp] theorem State.recordPoll_busTurns (s : State) (now : Nat) : (s.recordPoll now).busTurns = s.busTurns := rfl
@[simp] theorem State.recordPoll_freeCount (s : State) (now : Nat) : (s.recordPoll now).freeCount = s.freeCount := rfl
@[simp] theorem State.recordPoll_responses (s : State) (now : Nat) : (s.recordPoll now).responses = s.responses := rfl
@[simp] theorem State.recordPoll_trace (s : State) (now : Nat) : (s.recordPoll now).trace = s.trace := rfl

/-! ### `setRegs` -/

@[simp] theorem State.setRegs_devAddr (s : State) (m : Memory) : (s.setRegs m).devAddr = s.devAddr := rfl
@[simp] theorem State.setRegs_gainInit (s : State) (m : Memory) : (s.setRegs m).gainInit = s.gainInit := rfl
@[simp] theorem State.setRegs_pollInterval (s : State) (m : Memory) : (s.setRegs m).pollInterval = s.pollInterval := rfl
@[simp] theorem State.setRegs_stuckTimeout (s : State) (m : Memory) : (s.setRegs m).stuckTimeout = s.stuckTimeout := rfl
@[simp] theorem State.setRegs_pressCount (s : State) (m : Memory) : (s.setRegs m).pressCount = s.pressCount := rfl
@[simp] theorem State.setRegs_lastPollTime (s : State) (m : Memory) : (s.setRegs m).lastPollTime = s.lastPollTime := rfl
@[simp] theorem State.setRegs_lastPollValid (s : State) (m : Memory) : (s.setRegs m).lastPollValid = s.lastPollValid := rfl
@[simp] theorem State.setRegs_lastEdgeTime (s : State) (m : Memory) : (s.setRegs m).lastEdgeTime = s.lastEdgeTime := rfl
@[simp] theorem State.setRegs_lastEdgeValid (s : State) (m : Memory) : (s.setRegs m).lastEdgeValid = s.lastEdgeValid := rfl
@[simp] theorem State.setRegs_downPending (s : State) (m : Memory) : (s.setRegs m).downPending = s.downPending := rfl
@[simp] theorem State.setRegs_upPending (s : State) (m : Memory) : (s.setRegs m).upPending = s.upPending := rfl
@[simp] theorem State.setRegs_infoValid (s : State) (m : Memory) : (s.setRegs m).infoValid = s.infoValid := rfl
@[simp] theorem State.setRegs_infoProductId (s : State) (m : Memory) : (s.setRegs m).infoProductId = s.infoProductId := rfl
@[simp] theorem State.setRegs_infoVendorId (s : State) (m : Memory) : (s.setRegs m).infoVendorId = s.infoVendorId := rfl
@[simp] theorem State.setRegs_infoVersion (s : State) (m : Memory) : (s.setRegs m).infoVersion = s.infoVersion := rfl
@[simp] theorem State.setRegs_infoBusAddress (s : State) (m : Memory) : (s.setRegs m).infoBusAddress = s.infoBusAddress := rfl
@[simp] theorem State.setRegs_regs (s : State) (m : Memory) : (s.setRegs m).regs = m := rfl
@[simp] theorem State.setRegs_clock (s : State) (m : Memory) : (s.setRegs m).clock = s.clock := rfl
@[simp] theorem State.setRegs_agenda (s : State) (m : Memory) : (s.setRegs m).agenda = s.agenda := rfl
@[simp] theorem State.setRegs_busTurns (s : State) (m : Memory) : (s.setRegs m).busTurns = s.busTurns := rfl
@[simp] theorem State.setRegs_freeCount (s : State) (m : Memory) : (s.setRegs m).freeCount = s.freeCount := rfl
@[simp] theorem State.setRegs_responses (s : State) (m : Memory) : (s.setRegs m).responses = s.responses := rfl
@[simp] theorem State.setRegs_trace (s : State) (m : Memory) : (s.setRegs m).trace = s.trace := rfl

/-! ### `raiseDown` -/

@[simp] theorem State.raiseDown_devAddr (s : State) : s.raiseDown.devAddr = s.devAddr := rfl
@[simp] theorem State.raiseDown_gainInit (s : State) : s.raiseDown.gainInit = s.gainInit := rfl
@[simp] theorem State.raiseDown_pollInterval (s : State) : s.raiseDown.pollInterval = s.pollInterval := rfl
@[simp] theorem State.raiseDown_stuckTimeout (s : State) : s.raiseDown.stuckTimeout = s.stuckTimeout := rfl
@[simp] theorem State.raiseDown_pressCount (s : State) : s.raiseDown.pressCount = s.pressCount := rfl
@[simp] theorem State.raiseDown_lastPollTime (s : State) : s.raiseDown.lastPollTime = s.lastPollTime := rfl
@[simp] theorem State.raiseDown_lastPollValid (s : State) : s.raiseDown.lastPollValid = s.lastPollValid := rfl
@[simp] theorem State.raiseDown_lastEdgeTime (s : State) : s.raiseDown.lastEdgeTime = s.lastEdgeTime := rfl
@[simp] theorem State.raiseDown_lastEdgeValid (s : State) : s.raiseDown.lastEdgeValid = s.lastEdgeValid := rfl
@[simp] theorem State.raiseDown_downPending (s : State) : s.raiseDown.downPending = true := rfl
@[simp] theorem State.raiseDown_upPending (s : State) : s.raiseDown.upPending = s.upPending := rfl
@[simp] theorem State.raiseDown_infoValid (s : State) : s.raiseDown.infoValid = s.infoValid := rfl
@[simp] theorem State.raiseDown_infoProductId (s : State) : s.raiseDown.infoProductId = s.infoProductId := rfl
@[simp] theorem State.raiseDown_infoVendorId (s : State) : s.raiseDown.infoVendorId = s.infoVendorId := rfl
@[simp] theorem State.raiseDown_infoVersion (s : State) : s.raiseDown.infoVersion = s.infoVersion := rfl
@[simp] theorem State.raiseDown_infoBusAddress (s : State) : s.raiseDown.infoBusAddress = s.infoBusAddress := rfl
@[simp] theorem State.raiseDown_regs (s : State) : s.raiseDown.regs = s.regs := rfl
@[simp] theorem State.raiseDown_clock (s : State) : s.raiseDown.clock = s.clock := rfl
@[simp] theorem State.raiseDown_agenda (s : State) : s.raiseDown.agenda = s.agenda := rfl
@[simp] theorem State.raiseDown_busTurns (s : State) : s.raiseDown.busTurns = s.busTurns := rfl
@[simp] theorem State.raiseDown_freeCount (s : State) : s.raiseDown.freeCount = s.freeCount := rfl
@[simp] theorem State.raiseDown_responses (s : State) : s.raiseDown.responses = s.responses := rfl
@[simp] theorem State.raiseDown_trace (s : State) : s.raiseDown.trace = s.trace := rfl

/-! ### `withAgenda` -/

@[simp] theorem State.withAgenda_devAddr (s : State) (rest : List Turn) : (s.withAgenda rest).devAddr = s.devAddr := rfl
@[simp] theorem State.withAgenda_gainInit (s : State) (rest : List Turn) : (s.withAgenda rest).gainInit = s.gainInit := rfl
@[simp] theorem State.withAgenda_pollInterval (s : State) (rest : List Turn) : (s.withAgenda rest).pollInterval = s.pollInterval := rfl
@[simp] theorem State.withAgenda_stuckTimeout (s : State) (rest : List Turn) : (s.withAgenda rest).stuckTimeout = s.stuckTimeout := rfl
@[simp] theorem State.withAgenda_pressCount (s : State) (rest : List Turn) : (s.withAgenda rest).pressCount = s.pressCount := rfl
@[simp] theorem State.withAgenda_lastPollTime (s : State) (rest : List Turn) : (s.withAgenda rest).lastPollTime = s.lastPollTime := rfl
@[simp] theorem State.withAgenda_lastPollValid (s : State) (rest : List Turn) : (s.withAgenda rest).lastPollValid = s.lastPollValid := rfl
@[simp] theorem State.withAgenda_lastEdgeTime (s : State) (rest : List Turn) : (s.withAgenda rest).lastEdgeTime = s.lastEdgeTime := rfl
@[simp] theorem State.withAgenda_lastEdgeValid (s : State) (rest : List Turn) : (s.withAgenda rest).lastEdgeValid = s.lastEdgeValid := rfl
@[simp] theorem State.withAgenda_downPending (s : State) (rest : List Turn) : (s.withAgenda rest).downPending = s.downPending := rfl
@[simp] theorem State.withAgenda_upPending (s : State) (rest : List Turn) : (s.withAgenda rest).upPending = s.upPending := rfl
@[simp] theorem State.withAgenda_infoValid (s : State) (rest : List Turn) : (s.withAgenda rest).infoValid = s.infoValid := rfl
@[simp] theorem State.withAgenda_infoProductId (s : State) (rest : List Turn) : (s.withAgenda rest).infoProductId = s.infoProductId := rfl
@[simp] theorem State.withAgenda_infoVendorId (s : State) (rest : List Turn) : (s.withAgenda rest).infoVendorId = s.infoVendorId := rfl
@[simp] theorem State.withAgenda_infoVersion (s : State) (rest : List Turn) : (s.withAgenda rest).infoVersion = s.infoVersion := rfl
@[simp] theorem State.withAgenda_infoBusAddress (s : State) (rest : List Turn) : (s.withAgenda rest).infoBusAddress = s.infoBusAddress := rfl
@[simp] theorem State.withAgenda_regs (s : State) (rest : List Turn) : (s.withAgenda rest).regs = s.regs := rfl
@[simp] theorem State.withAgenda_clock (s : State) (rest : List Turn) : (s.withAgenda rest).clock = s.clock := rfl
@[simp] theorem State.withAgenda_agenda (s : State) (rest : List Turn) : (s.withAgenda rest).agenda = rest := rfl
@[simp] theorem State.withAgenda_busTurns (s : State) (rest : List Turn) : (s.withAgenda rest).busTurns = s.busTurns := rfl
@[simp] theorem State.withAgenda_freeCount (s : State) (rest : List Turn) : (s.withAgenda rest).freeCount = s.freeCount := rfl
@[simp] theorem State.withAgenda_responses (s : State) (rest : List Turn) : (s.withAgenda rest).responses = s.responses := rfl
@[simp] theorem State.withAgenda_trace (s : State) (rest : List Turn) : (s.withAgenda rest).trace = s.trace := rfl

/-! ### `clearDown` -/

@[simp] theorem State.clearDown_devAddr (s : State) : s.clearDown.devAddr = s.devAddr := rfl
@[simp] theorem State.clearDown_gainInit (s : State) : s.clearDown.gainInit = s.gainInit := rfl
@[simp] theorem State.clearDown_pollInterval (s : State) : s.clearDown.pollInterval = s.pollInterval := rfl
@[simp] theorem State.clearDown_stuckTimeout (s : State) : s.clearDown.stuckTimeout = s.stuckTimeout := rfl
@[simp] theorem State.clearDown_pressCount (s : State) : s.clearDown.pressCount = s.pressCount := rfl
@[simp] theorem State.clearDown_lastPollTime (s : State) : s.clearDown.lastPollTime = s.lastPollTime := rfl
@[simp] theorem State.clearDown_lastPollValid (s : State) : s.clearDown.lastPollValid = s.lastPollValid := rfl
@[simp] theorem State.clearDown_lastEdgeTime (s : State) : s.clearDown.lastEdgeTime = s.lastEdgeTime := rfl
@[simp] theorem State.clearDown_lastEdgeValid (s : State) : s.clearDown.lastEdgeValid = s.lastEdgeValid := rfl
@[simp] theorem State.clearDown_downPending (s : State) : s.clearDown.downPending = false := rfl
@[simp] theorem State.clearDown_upPending (s : State) : s.clearDown.upPending = s.upPending := rfl
@[simp] theorem State.clearDown_infoValid (s : State) : s.clearDown.infoValid = s.infoValid := rfl
@[simp] theorem State.clearDown_infoProductId (s : State) : s.clearDown.infoProductId = s.infoProductId := rfl
@[simp] theorem State.clearDown_infoVendorId (s : State) : s.clearDown.infoVendorId = s.infoVendorId := rfl
@[simp] theorem State.clearDown_infoVersion (s : State) : s.clearDown.infoVersion = s.infoVersion := rfl
@[simp] theorem State.clearDown_infoBusAddress (s : State) : s.clearDown.infoBusAddress = s.infoBusAddress := rfl
@[simp] theorem State.clearDown_regs (s : State) : s.clearDown.regs = s.regs := rfl
@[simp] theorem State.clearDown_clock (s : State) : s.clearDown.clock = s.clock := rfl
@[simp] theorem State.clearDown_agenda (s : State) : s.clearDown.agenda = s.agenda := rfl
@[simp] theorem State.clearDown_busTurns (s : State) : s.clearDown.busTurns = s.busTurns := rfl
@[simp] theorem State.clearDown_freeCount (s : State) : s.clearDown.freeCount = s.freeCount := rfl
@[simp] theorem State.clearDown_responses (s : State) : s.clearDown.responses = s.responses := rfl
@[simp] theorem State.clearDown_trace (s : State) : s.clearDown.trace = s.trace := rfl

/-! ### `forceUp` -/

@[simp] theorem State.forceUp_devAddr (s : State) : (s.forceUp).devAddr = s.devAddr := rfl
@[simp] theorem State.forceUp_gainInit (s : State) : (s.forceUp).gainInit = s.gainInit := rfl
@[simp] theorem State.forceUp_pollInterval (s : State) : (s.forceUp).pollInterval = s.pollInterval := rfl
@[simp] theorem State.forceUp_stuckTimeout (s : State) : (s.forceUp).stuckTimeout = s.stuckTimeout := rfl
@[simp] theorem State.forceUp_pressCount (s : State) : (s.forceUp).pressCount = 0 := rfl
@[simp] theorem State.forceUp_lastPollTime (s : State) : (s.forceUp).lastPollTime = s.lastPollTime := rfl
@[simp] theorem State.forceUp_lastPollValid (s : State) : (s.forceUp).lastPollValid = s.lastPollValid := rfl
@[simp] theorem State.forceUp_lastEdgeTime (s : State) : (s.forceUp).lastEdgeTime = s.lastEdgeTime := rfl
@[simp] theorem State.forceUp_lastEdgeValid (s : State) : (s.forceUp).lastEdgeValid = s.lastEdgeValid := rfl
@[simp] theorem State.forceUp_downPending (s : State) : (s.forceUp).downPending = false := rfl
@[simp] theorem State.forceUp_upPending (s : State) : (s.forceUp).upPending = true := rfl
@[simp] theorem State.forceUp_infoValid (s : State) : (s.forceUp).infoValid = s.infoValid := rfl
@[simp] theorem State.forceUp_infoProductId (s : State) : (s.forceUp).infoProductId = s.infoProductId := rfl
@[simp] theorem State.forceUp_infoVendorId (s : State) : (s.forceUp).infoVendorId = s.infoVendorId := rfl
@[simp] theorem State.forceUp_infoVersion (s : State) : (s.forceUp).infoVersion = s.infoVersion := rfl
@[simp] theorem State.forceUp_infoBusAddress (s : State) : (s.forceUp).infoBusAddress = s.infoBusAddress := rfl
@[simp] theorem State.forceUp_regs (s : State) : (s.forceUp).regs = s.regs := rfl
@[simp] theorem State.forceUp_clock (s : State) : (s.forceUp).clock = s.clock := rfl
@[simp] theorem State.forceUp_agenda (s : State) : (s.forceUp).agenda = s.agenda := rfl
@[simp] theorem State.forceUp_busTurns (s : State) : (s.forceUp).busTurns = s.busTurns := rfl
@[simp] theorem State.forceUp_freeCount (s : State) : (s.forceUp).freeCount = s.freeCount := rfl
@[simp] theorem State.forceUp_responses (s : State) : (s.forceUp).responses = s.responses := rfl
@[simp] theorem State.forceUp_trace (s : State) : (s.forceUp).trace = s.trace := rfl

/-! ### `cacheInfo` -/

@[simp] theorem State.cacheInfo_devAddr (s : State) (bytes : List Byte) : (s.cacheInfo bytes).devAddr = s.devAddr := rfl
@[simp] theorem State.cacheInfo_gainInit (s : State) (bytes : List Byte) : (s.cacheInfo bytes).gainInit = s.gainInit := rfl
@[simp] theorem State.cacheInfo_pollInterval (s : State) (bytes : List Byte) : (s.cacheInfo bytes).pollInterval = s.pollInterval := rfl
@[simp] theorem State.cacheInfo_stuckTimeout (s : State) (bytes : List Byte) : (s.cacheInfo bytes).stuckTimeout = s.stuckTimeout := rfl
@[simp] theorem State.cacheInfo_pressCount (s : State) (bytes : List Byte) : (s.cacheInfo bytes).pressCount = s.pressCount := rfl
@[simp] theorem State.cacheInfo_lastPollTime (s : State) (bytes : List Byte) : (s.cacheInfo bytes).lastPollTime = s.lastPollTime := rfl
@[simp] theorem State.cacheInfo_lastPollValid (s : State) (bytes : List Byte) : (s.cacheInfo bytes).lastPollValid = s.lastPollValid := rfl
@[simp] theorem State.cacheInfo_lastEdgeTime (s : State) (bytes : List Byte) : (s.cacheInfo bytes).lastEdgeTime = s.lastEdgeTime := rfl
@[simp] theorem State.cacheInfo_lastEdgeValid (s : State) (bytes : List Byte) : (s.cacheInfo bytes).lastEdgeValid = s.lastEdgeValid := rfl
@[simp] theorem State.cacheInfo_downPending (s : State) (bytes : List Byte) : (s.cacheInfo bytes).downPending = s.downPending := rfl
@[simp] theorem State.cacheInfo_upPending (s : State) (bytes : List Byte) : (s.cacheInfo bytes).upPending = s.upPending := rfl
@[simp] theorem State.cacheInfo_infoValid (s : State) (bytes : List Byte) : (s.cacheInfo bytes).infoValid = true := rfl
@[simp] theorem State.cacheInfo_infoProductId (s : State) (bytes : List Byte) : (s.cacheInfo bytes).infoProductId = wordAt bytes 0 := rfl
@[simp] theorem State.cacheInfo_infoVendorId (s : State) (bytes : List Byte) : (s.cacheInfo bytes).infoVendorId = wordAt bytes 2 := rfl
@[simp] theorem State.cacheInfo_infoVersion (s : State) (bytes : List Byte) : (s.cacheInfo bytes).infoVersion = wordAt bytes 4 := rfl
@[simp] theorem State.cacheInfo_infoBusAddress (s : State) (bytes : List Byte) : (s.cacheInfo bytes).infoBusAddress = byteAt bytes 7 := rfl
@[simp] theorem State.cacheInfo_regs (s : State) (bytes : List Byte) : (s.cacheInfo bytes).regs = s.regs := rfl
@[simp] theorem State.cacheInfo_clock (s : State) (bytes : List Byte) : (s.cacheInfo bytes).clock = s.clock := rfl
@[simp] theorem State.cacheInfo_agenda (s : State) (bytes : List Byte) : (s.cacheInfo bytes).agenda = s.agenda := rfl
@[simp] theorem State.cacheInfo_busTurns (s : State) (bytes : List Byte) : (s.cacheInfo bytes).busTurns = s.busTurns := rfl
@[simp] theorem State.cacheInfo_freeCount (s : State) (bytes : List Byte) : (s.cacheInfo bytes).freeCount = s.freeCount := rfl
@[simp] theorem State.cacheInfo_responses (s : State) (bytes : List Byte) : (s.cacheInfo bytes).responses = s.responses := rfl
@[simp] theorem State.cacheInfo_trace (s : State) (bytes : List Byte) : (s.cacheInfo bytes).trace = s.trace := rfl

/-! ### `dropTurn` -/

@[simp] theorem State.dropTurn_devAddr (s : State) : (s.dropTurn).devAddr = s.devAddr := by
  unfold State.dropTurn; split <;> rfl
@[simp] theorem State.dropTurn_gainInit (s : State) : (s.dropTurn).gainInit = s.gainInit := by
  unfold State.dropTurn; split <;> rfl
@[simp] theorem State.dropTurn_pollInterval (s : State) : (s.dropTurn).pollInterval = s.pollInterval := by
  unfold State.dropTurn; split <;> rfl
@[simp] theorem State.dropTurn_stuckTimeout (s : State) : (s.dropTurn).stuckTimeout = s.stuckTimeout := by
  unfold State.dropTurn; split <;> rfl
@[simp] theorem State.dropTurn_pressCount (s : State) : (s.dropTurn).pressCount = s.pressCount := by
  unfold State.dropTurn; split <;> rfl
@[simp] theorem State.dropTurn_lastPollTime (s : State) : (s.dropTurn).lastPollTime = s.lastPollTime := by
  unfold State.dropTurn; split <;> rfl
@[simp] theorem State.dropTurn_lastPollValid (s : State) : (s.dropTurn).lastPollValid = s.lastPollValid := by
  unfold State.dropTurn; split <;> rfl
@[simp] theorem State.dropTurn_lastEdgeTime (s : State) : (s.dropTurn).lastEdgeTime = s.lastEdgeTime := by
  unfold State.dropTurn; split <;> rfl
@[simp] theorem State.dropTurn_lastEdgeValid (s : State) : (s.dropTurn).lastEdgeValid = s.lastEdgeValid := by
  unfold State.dropTurn; split <;> rfl
@[simp] theorem State.dropTurn_downPending (s : State) : (s.dropTurn).downPending = s.downPending := by
  unfold State.dropTurn; split <;> rfl
@[simp] theorem State.dropTurn_upPending (s : State) : (s.dropTurn).upPending = s.upPending := by
  unfold State.dropTurn; split <;> rfl
@[simp] theorem State.dropTurn_infoValid (s : State) : (s.dropTurn).infoValid = s.infoValid := by
  unfold State.dropTurn; split <;> rfl
@[simp] theorem State.dropTurn_infoProductId (s : State) : (s.dropTurn).infoProductId = s.infoProductId := by
  unfold State.dropTurn; split <;> rfl
@[simp] theorem State.dropTurn_infoVendorId (s : State) : (s.dropTurn).infoVendorId = s.infoVendorId := by
  unfold State.dropTurn; split <;> rfl
@[simp] theorem State.dropTurn_infoVersion (s : State) : (s.dropTurn).infoVersion = s.infoVersion := by
  unfold State.dropTurn; split <;> rfl
@[simp] theorem State.dropTurn_infoBusAddress (s : State) : (s.dropTurn).infoBusAddress = s.infoBusAddress := by
  unfold State.dropTurn; split <;> rfl
@[simp] theorem State.dropTurn_regs (s : State) : (s.dropTurn).regs = s.regs := by
  unfold State.dropTurn; split <;> rfl
@[simp] theorem State.dropTurn_clock (s : State) : (s.dropTurn).clock = s.clock := by
  unfold State.dropTurn; split <;> rfl
@[simp] theorem State.dropTurn_agenda (s : State) : (s.dropTurn).agenda = s.agenda := by
  unfold State.dropTurn; split <;> rfl
@[simp] theorem State.dropTurn_responses (s : State) : (s.dropTurn).responses = s.responses := by
  unfold State.dropTurn; split <;> rfl
@[simp] theorem State.dropTurn_trace (s : State) : (s.dropTurn).trace = s.trace := by
  unfold State.dropTurn; split <;> rfl

/-! ### `applyMove` -/

@[simp] theorem State.applyMove_devAddr (s : State) (m : EnvMove) : (s.applyMove m).devAddr = s.devAddr := by
  cases m <;> rfl
@[simp] theorem State.applyMove_gainInit (s : State) (m : EnvMove) : (s.applyMove m).gainInit = s.gainInit := by
  cases m <;> rfl
@[simp] theorem State.applyMove_pollInterval (s : State) (m : EnvMove) : (s.applyMove m).pollInterval = s.pollInterval := by
  cases m <;> rfl
@[simp] theorem State.applyMove_stuckTimeout (s : State) (m : EnvMove) : (s.applyMove m).stuckTimeout = s.stuckTimeout := by
  cases m <;> rfl
@[simp] theorem State.applyMove_pressCount (s : State) (m : EnvMove) : (s.applyMove m).pressCount = s.pressCount := by
  cases m <;> rfl
@[simp] theorem State.applyMove_lastPollTime (s : State) (m : EnvMove) : (s.applyMove m).lastPollTime = s.lastPollTime := by
  cases m <;> rfl
@[simp] theorem State.applyMove_lastPollValid (s : State) (m : EnvMove) : (s.applyMove m).lastPollValid = s.lastPollValid := by
  cases m <;> rfl
@[simp] theorem State.applyMove_lastEdgeTime (s : State) (m : EnvMove) : (s.applyMove m).lastEdgeTime = s.lastEdgeTime := by
  cases m <;> rfl
@[simp] theorem State.applyMove_lastEdgeValid (s : State) (m : EnvMove) : (s.applyMove m).lastEdgeValid = s.lastEdgeValid := by
  cases m <;> rfl
@[simp] theorem State.applyMove_downPending (s : State) (m : EnvMove) : (s.applyMove m).downPending = s.downPending := by
  cases m <;> rfl
@[simp] theorem State.applyMove_upPending (s : State) (m : EnvMove) : (s.applyMove m).upPending = s.upPending := by
  cases m <;> rfl
@[simp] theorem State.applyMove_infoValid (s : State) (m : EnvMove) : (s.applyMove m).infoValid = s.infoValid := by
  cases m <;> rfl
@[simp] theorem State.applyMove_infoProductId (s : State) (m : EnvMove) : (s.applyMove m).infoProductId = s.infoProductId := by
  cases m <;> rfl
@[simp] theorem State.applyMove_infoVendorId (s : State) (m : EnvMove) : (s.applyMove m).infoVendorId = s.infoVendorId := by
  cases m <;> rfl
@[simp] theorem State.applyMove_infoVersion (s : State) (m : EnvMove) : (s.applyMove m).infoVersion = s.infoVersion := by
  cases m <;> rfl
@[simp] theorem State.applyMove_infoBusAddress (s : State) (m : EnvMove) : (s.applyMove m).infoBusAddress = s.infoBusAddress := by
  cases m <;> rfl
@[simp] theorem State.applyMove_agenda (s : State) (m : EnvMove) : (s.applyMove m).agenda = s.agenda := by
  cases m <;> rfl
@[simp] theorem State.applyMove_busTurns (s : State) (m : EnvMove) : (s.applyMove m).busTurns = s.busTurns := by
  cases m <;> rfl
@[simp] theorem State.applyMove_freeCount (s : State) (m : EnvMove) : (s.applyMove m).freeCount = s.freeCount := by
  cases m <;> rfl
@[simp] theorem State.applyMove_responses (s : State) (m : EnvMove) : (s.applyMove m).responses = s.responses := by
  cases m <;> rfl
@[simp] theorem State.applyMove_trace (s : State) (m : EnvMove) : (s.applyMove m).trace = s.trace := by
  cases m <;> rfl

/-! ### `afterAnswer` -/

@[simp] theorem State.afterAnswer_devAddr (s : State) (k : FrameKind) (dev : DevAddr) : (s.afterAnswer k dev).devAddr = s.devAddr := by
  unfold State.afterAnswer; split <;> rfl
@[simp] theorem State.afterAnswer_gainInit (s : State) (k : FrameKind) (dev : DevAddr) : (s.afterAnswer k dev).gainInit = s.gainInit := by
  unfold State.afterAnswer; split <;> rfl
@[simp] theorem State.afterAnswer_pollInterval (s : State) (k : FrameKind) (dev : DevAddr) : (s.afterAnswer k dev).pollInterval = s.pollInterval := by
  unfold State.afterAnswer; split <;> rfl
@[simp] theorem State.afterAnswer_stuckTimeout (s : State) (k : FrameKind) (dev : DevAddr) : (s.afterAnswer k dev).stuckTimeout = s.stuckTimeout := by
  unfold State.afterAnswer; split <;> rfl
@[simp] theorem State.afterAnswer_pressCount (s : State) (k : FrameKind) (dev : DevAddr) : (s.afterAnswer k dev).pressCount = s.pressCount := by
  unfold State.afterAnswer; split <;> rfl
@[simp] theorem State.afterAnswer_lastPollTime (s : State) (k : FrameKind) (dev : DevAddr) : (s.afterAnswer k dev).lastPollTime = s.lastPollTime := by
  unfold State.afterAnswer; split <;> rfl
@[simp] theorem State.afterAnswer_lastPollValid (s : State) (k : FrameKind) (dev : DevAddr) : (s.afterAnswer k dev).lastPollValid = s.lastPollValid := by
  unfold State.afterAnswer; split <;> rfl
@[simp] theorem State.afterAnswer_lastEdgeTime (s : State) (k : FrameKind) (dev : DevAddr) : (s.afterAnswer k dev).lastEdgeTime = s.lastEdgeTime := by
  unfold State.afterAnswer; split <;> rfl
@[simp] theorem State.afterAnswer_lastEdgeValid (s : State) (k : FrameKind) (dev : DevAddr) : (s.afterAnswer k dev).lastEdgeValid = s.lastEdgeValid := by
  unfold State.afterAnswer; split <;> rfl
@[simp] theorem State.afterAnswer_downPending (s : State) (k : FrameKind) (dev : DevAddr) : (s.afterAnswer k dev).downPending = s.downPending := by
  unfold State.afterAnswer; split <;> rfl
@[simp] theorem State.afterAnswer_upPending (s : State) (k : FrameKind) (dev : DevAddr) : (s.afterAnswer k dev).upPending = s.upPending := by
  unfold State.afterAnswer; split <;> rfl
@[simp] theorem State.afterAnswer_infoValid (s : State) (k : FrameKind) (dev : DevAddr) : (s.afterAnswer k dev).infoValid = s.infoValid := by
  unfold State.afterAnswer; split <;> rfl
@[simp] theorem State.afterAnswer_infoProductId (s : State) (k : FrameKind) (dev : DevAddr) : (s.afterAnswer k dev).infoProductId = s.infoProductId := by
  unfold State.afterAnswer; split <;> rfl
@[simp] theorem State.afterAnswer_infoVendorId (s : State) (k : FrameKind) (dev : DevAddr) : (s.afterAnswer k dev).infoVendorId = s.infoVendorId := by
  unfold State.afterAnswer; split <;> rfl
@[simp] theorem State.afterAnswer_infoVersion (s : State) (k : FrameKind) (dev : DevAddr) : (s.afterAnswer k dev).infoVersion = s.infoVersion := by
  unfold State.afterAnswer; split <;> rfl
@[simp] theorem State.afterAnswer_infoBusAddress (s : State) (k : FrameKind) (dev : DevAddr) : (s.afterAnswer k dev).infoBusAddress = s.infoBusAddress := by
  unfold State.afterAnswer; split <;> rfl
@[simp] theorem State.afterAnswer_regs (s : State) (k : FrameKind) (dev : DevAddr) : (s.afterAnswer k dev).regs = s.regs := by
  unfold State.afterAnswer; split <;> rfl
@[simp] theorem State.afterAnswer_clock (s : State) (k : FrameKind) (dev : DevAddr) : (s.afterAnswer k dev).clock = s.clock := by
  unfold State.afterAnswer; split <;> rfl
@[simp] theorem State.afterAnswer_agenda (s : State) (k : FrameKind) (dev : DevAddr) : (s.afterAnswer k dev).agenda = s.agenda := by
  unfold State.afterAnswer; split <;> rfl
@[simp] theorem State.afterAnswer_busTurns (s : State) (k : FrameKind) (dev : DevAddr) : (s.afterAnswer k dev).busTurns = s.busTurns := by
  unfold State.afterAnswer; split <;> rfl
@[simp] theorem State.afterAnswer_responses (s : State) (k : FrameKind) (dev : DevAddr) : (s.afterAnswer k dev).responses = s.responses := by
  unfold State.afterAnswer; split <;> rfl
@[simp] theorem State.afterAnswer_trace (s : State) (k : FrameKind) (dev : DevAddr) : (s.afterAnswer k dev).trace = s.trace := by
  unfold State.afterAnswer; split <;> rfl

/-! ### `afterWrite` -/

@[simp] theorem State.afterWrite_devAddr (s : State) (k : FrameKind) (dev : DevAddr) (p : List Byte) : (s.afterWrite k dev p).devAddr = s.devAddr := by
  unfold State.afterWrite; split <;> rfl
@[simp] theorem State.afterWrite_gainInit (s : State) (k : FrameKind) (dev : DevAddr) (p : List Byte) : (s.afterWrite k dev p).gainInit = s.gainInit := by
  unfold State.afterWrite; split <;> rfl
@[simp] theorem State.afterWrite_pollInterval (s : State) (k : FrameKind) (dev : DevAddr) (p : List Byte) : (s.afterWrite k dev p).pollInterval = s.pollInterval := by
  unfold State.afterWrite; split <;> rfl
@[simp] theorem State.afterWrite_stuckTimeout (s : State) (k : FrameKind) (dev : DevAddr) (p : List Byte) : (s.afterWrite k dev p).stuckTimeout = s.stuckTimeout := by
  unfold State.afterWrite; split <;> rfl
@[simp] theorem State.afterWrite_pressCount (s : State) (k : FrameKind) (dev : DevAddr) (p : List Byte) : (s.afterWrite k dev p).pressCount = s.pressCount := by
  unfold State.afterWrite; split <;> rfl
@[simp] theorem State.afterWrite_lastPollTime (s : State) (k : FrameKind) (dev : DevAddr) (p : List Byte) : (s.afterWrite k dev p).lastPollTime = s.lastPollTime := by
  unfold State.afterWrite; split <;> rfl
@[simp] theorem State.afterWrite_lastPollValid (s : State) (k : FrameKind) (dev : DevAddr) (p : List Byte) : (s.afterWrite k dev p).lastPollValid = s.lastPollValid := by
  unfold State.afterWrite; split <;> rfl
@[simp] theorem State.afterWrite_lastEdgeTime (s : State) (k : FrameKind) (dev : DevAddr) (p : List Byte) : (s.afterWrite k dev p).lastEdgeTime = s.lastEdgeTime := by
  unfold State.afterWrite; split <;> rfl
@[simp] theorem State.afterWrite_lastEdgeValid (s : State) (k : FrameKind) (dev : DevAddr) (p : List Byte) : (s.afterWrite k dev p).lastEdgeValid = s.lastEdgeValid := by
  unfold State.afterWrite; split <;> rfl
@[simp] theorem State.afterWrite_downPending (s : State) (k : FrameKind) (dev : DevAddr) (p : List Byte) : (s.afterWrite k dev p).downPending = s.downPending := by
  unfold State.afterWrite; split <;> rfl
@[simp] theorem State.afterWrite_upPending (s : State) (k : FrameKind) (dev : DevAddr) (p : List Byte) : (s.afterWrite k dev p).upPending = s.upPending := by
  unfold State.afterWrite; split <;> rfl
@[simp] theorem State.afterWrite_infoValid (s : State) (k : FrameKind) (dev : DevAddr) (p : List Byte) : (s.afterWrite k dev p).infoValid = s.infoValid := by
  unfold State.afterWrite; split <;> rfl
@[simp] theorem State.afterWrite_infoProductId (s : State) (k : FrameKind) (dev : DevAddr) (p : List Byte) : (s.afterWrite k dev p).infoProductId = s.infoProductId := by
  unfold State.afterWrite; split <;> rfl
@[simp] theorem State.afterWrite_infoVendorId (s : State) (k : FrameKind) (dev : DevAddr) (p : List Byte) : (s.afterWrite k dev p).infoVendorId = s.infoVendorId := by
  unfold State.afterWrite; split <;> rfl
@[simp] theorem State.afterWrite_infoVersion (s : State) (k : FrameKind) (dev : DevAddr) (p : List Byte) : (s.afterWrite k dev p).infoVersion = s.infoVersion := by
  unfold State.afterWrite; split <;> rfl
@[simp] theorem State.afterWrite_infoBusAddress (s : State) (k : FrameKind) (dev : DevAddr) (p : List Byte) : (s.afterWrite k dev p).infoBusAddress = s.infoBusAddress := by
  unfold State.afterWrite; split <;> rfl
@[simp] theorem State.afterWrite_clock (s : State) (k : FrameKind) (dev : DevAddr) (p : List Byte) : (s.afterWrite k dev p).clock = s.clock := by
  unfold State.afterWrite; split <;> rfl
@[simp] theorem State.afterWrite_agenda (s : State) (k : FrameKind) (dev : DevAddr) (p : List Byte) : (s.afterWrite k dev p).agenda = s.agenda := by
  unfold State.afterWrite; split <;> rfl
@[simp] theorem State.afterWrite_busTurns (s : State) (k : FrameKind) (dev : DevAddr) (p : List Byte) : (s.afterWrite k dev p).busTurns = s.busTurns := by
  unfold State.afterWrite; split <;> rfl
@[simp] theorem State.afterWrite_freeCount (s : State) (k : FrameKind) (dev : DevAddr) (p : List Byte) : (s.afterWrite k dev p).freeCount = s.freeCount := by
  unfold State.afterWrite; split <;> rfl
@[simp] theorem State.afterWrite_responses (s : State) (k : FrameKind) (dev : DevAddr) (p : List Byte) : (s.afterWrite k dev p).responses = s.responses := by
  unfold State.afterWrite; split <;> rfl
@[simp] theorem State.afterWrite_trace (s : State) (k : FrameKind) (dev : DevAddr) (p : List Byte) : (s.afterWrite k dev p).trace = s.trace := by
  unfold State.afterWrite; split <;> rfl

/-! ### `afterFailedWrite` -/

@[simp] theorem State.afterFailedWrite_devAddr (s : State) (k : FrameKind) (dev : DevAddr) (p : List Byte) (taken : Bool) :
    (s.afterFailedWrite k dev p taken).devAddr = s.devAddr := by
  unfold State.afterFailedWrite; split <;> simp
@[simp] theorem State.afterFailedWrite_gainInit (s : State) (k : FrameKind) (dev : DevAddr) (p : List Byte) (taken : Bool) :
    (s.afterFailedWrite k dev p taken).gainInit = s.gainInit := by
  unfold State.afterFailedWrite; split <;> simp
@[simp] theorem State.afterFailedWrite_pollInterval (s : State) (k : FrameKind) (dev : DevAddr) (p : List Byte) (taken : Bool) :
    (s.afterFailedWrite k dev p taken).pollInterval = s.pollInterval := by
  unfold State.afterFailedWrite; split <;> simp
@[simp] theorem State.afterFailedWrite_stuckTimeout (s : State) (k : FrameKind) (dev : DevAddr) (p : List Byte) (taken : Bool) :
    (s.afterFailedWrite k dev p taken).stuckTimeout = s.stuckTimeout := by
  unfold State.afterFailedWrite; split <;> simp
@[simp] theorem State.afterFailedWrite_pressCount (s : State) (k : FrameKind) (dev : DevAddr) (p : List Byte) (taken : Bool) :
    (s.afterFailedWrite k dev p taken).pressCount = s.pressCount := by
  unfold State.afterFailedWrite; split <;> simp
@[simp] theorem State.afterFailedWrite_lastPollTime (s : State) (k : FrameKind) (dev : DevAddr) (p : List Byte) (taken : Bool) :
    (s.afterFailedWrite k dev p taken).lastPollTime = s.lastPollTime := by
  unfold State.afterFailedWrite; split <;> simp
@[simp] theorem State.afterFailedWrite_lastPollValid (s : State) (k : FrameKind) (dev : DevAddr) (p : List Byte) (taken : Bool) :
    (s.afterFailedWrite k dev p taken).lastPollValid = s.lastPollValid := by
  unfold State.afterFailedWrite; split <;> simp
@[simp] theorem State.afterFailedWrite_lastEdgeTime (s : State) (k : FrameKind) (dev : DevAddr) (p : List Byte) (taken : Bool) :
    (s.afterFailedWrite k dev p taken).lastEdgeTime = s.lastEdgeTime := by
  unfold State.afterFailedWrite; split <;> simp
@[simp] theorem State.afterFailedWrite_lastEdgeValid (s : State) (k : FrameKind) (dev : DevAddr) (p : List Byte) (taken : Bool) :
    (s.afterFailedWrite k dev p taken).lastEdgeValid = s.lastEdgeValid := by
  unfold State.afterFailedWrite; split <;> simp
@[simp] theorem State.afterFailedWrite_downPending (s : State) (k : FrameKind) (dev : DevAddr) (p : List Byte) (taken : Bool) :
    (s.afterFailedWrite k dev p taken).downPending = s.downPending := by
  unfold State.afterFailedWrite; split <;> simp
@[simp] theorem State.afterFailedWrite_upPending (s : State) (k : FrameKind) (dev : DevAddr) (p : List Byte) (taken : Bool) :
    (s.afterFailedWrite k dev p taken).upPending = s.upPending := by
  unfold State.afterFailedWrite; split <;> simp
@[simp] theorem State.afterFailedWrite_infoValid (s : State) (k : FrameKind) (dev : DevAddr) (p : List Byte) (taken : Bool) :
    (s.afterFailedWrite k dev p taken).infoValid = s.infoValid := by
  unfold State.afterFailedWrite; split <;> simp
@[simp] theorem State.afterFailedWrite_infoProductId (s : State) (k : FrameKind) (dev : DevAddr) (p : List Byte) (taken : Bool) :
    (s.afterFailedWrite k dev p taken).infoProductId = s.infoProductId := by
  unfold State.afterFailedWrite; split <;> simp
@[simp] theorem State.afterFailedWrite_infoVendorId (s : State) (k : FrameKind) (dev : DevAddr) (p : List Byte) (taken : Bool) :
    (s.afterFailedWrite k dev p taken).infoVendorId = s.infoVendorId := by
  unfold State.afterFailedWrite; split <;> simp
@[simp] theorem State.afterFailedWrite_infoVersion (s : State) (k : FrameKind) (dev : DevAddr) (p : List Byte) (taken : Bool) :
    (s.afterFailedWrite k dev p taken).infoVersion = s.infoVersion := by
  unfold State.afterFailedWrite; split <;> simp
@[simp] theorem State.afterFailedWrite_infoBusAddress (s : State) (k : FrameKind) (dev : DevAddr) (p : List Byte) (taken : Bool) :
    (s.afterFailedWrite k dev p taken).infoBusAddress = s.infoBusAddress := by
  unfold State.afterFailedWrite; split <;> simp
@[simp] theorem State.afterFailedWrite_clock (s : State) (k : FrameKind) (dev : DevAddr) (p : List Byte) (taken : Bool) :
    (s.afterFailedWrite k dev p taken).clock = s.clock := by
  unfold State.afterFailedWrite; split <;> simp
@[simp] theorem State.afterFailedWrite_agenda (s : State) (k : FrameKind) (dev : DevAddr) (p : List Byte) (taken : Bool) :
    (s.afterFailedWrite k dev p taken).agenda = s.agenda := by
  unfold State.afterFailedWrite; split <;> simp
@[simp] theorem State.afterFailedWrite_busTurns (s : State) (k : FrameKind) (dev : DevAddr) (p : List Byte) (taken : Bool) :
    (s.afterFailedWrite k dev p taken).busTurns = s.busTurns := by
  unfold State.afterFailedWrite; split <;> simp
@[simp] theorem State.afterFailedWrite_freeCount (s : State) (k : FrameKind) (dev : DevAddr) (p : List Byte) (taken : Bool) :
    (s.afterFailedWrite k dev p taken).freeCount = s.freeCount := by
  unfold State.afterFailedWrite; split <;> simp
@[simp] theorem State.afterFailedWrite_responses (s : State) (k : FrameKind) (dev : DevAddr) (p : List Byte) (taken : Bool) :
    (s.afterFailedWrite k dev p taken).responses = s.responses := by
  unfold State.afterFailedWrite; split <;> simp
@[simp] theorem State.afterFailedWrite_trace (s : State) (k : FrameKind) (dev : DevAddr) (p : List Byte) (taken : Bool) :
    (s.afterFailedWrite k dev p taken).trace = s.trace := by
  unfold State.afterFailedWrite; split <;> simp

/-! ### `foreignFrame` -/

/-- What a frame's three parts leave alone, the whole frame leaves alone. -/
theorem State.foreignFrame_field {α : Type} (s : State) (f : State → α) (ha : ∀ k dev, f (s.afterAnswer k dev) = f s)
    (hw : ∀ k dev p, f (s.afterWrite k dev p) = f s) (hr : ∀ (u : State) t, f (u.record t) = f u) (k : FrameKind)
    (dev : DevAddr) (p : List Byte) (r : BusResult) : f (s.foreignFrame k dev p r) = f s := by
  have hf : ∀ taken, f (s.afterFailedWrite k dev p taken) = f s := fun taken => by
    cases taken
    · rfl
    · exact hw k dev p
  unfold State.foreignFrame
  cases r <;> split <;> simp only [State.writeAs, State.readAs, hr, ha, hw, hf]

@[simp] theorem State.foreignFrame_devAddr (s : State) (k : FrameKind) (dev : DevAddr) (p : List Byte) (r : BusResult) :
    (s.foreignFrame k dev p r).devAddr = s.devAddr := s.foreignFrame_field (·.devAddr) (by simp) (by simp) (by simp) k dev p r
@[simp] theorem State.foreignFrame_gainInit (s : State) (k : FrameKind) (dev : DevAddr) (p : List Byte) (r : BusResult) :
    (s.foreignFrame k dev p r).gainInit = s.gainInit := s.foreignFrame_field (·.gainInit) (by simp) (by simp) (by simp) k dev p r
@[simp] theorem State.foreignFrame_pollInterval (s : State) (k : FrameKind) (dev : DevAddr) (p : List Byte) (r : BusResult) :
    (s.foreignFrame k dev p r).pollInterval = s.pollInterval := s.foreignFrame_field (·.pollInterval) (by simp) (by simp) (by simp) k dev p r
@[simp] theorem State.foreignFrame_stuckTimeout (s : State) (k : FrameKind) (dev : DevAddr) (p : List Byte) (r : BusResult) :
    (s.foreignFrame k dev p r).stuckTimeout = s.stuckTimeout := s.foreignFrame_field (·.stuckTimeout) (by simp) (by simp) (by simp) k dev p r
@[simp] theorem State.foreignFrame_pressCount (s : State) (k : FrameKind) (dev : DevAddr) (p : List Byte) (r : BusResult) :
    (s.foreignFrame k dev p r).pressCount = s.pressCount := s.foreignFrame_field (·.pressCount) (by simp) (by simp) (by simp) k dev p r
@[simp] theorem State.foreignFrame_lastPollTime (s : State) (k : FrameKind) (dev : DevAddr) (p : List Byte) (r : BusResult) :
    (s.foreignFrame k dev p r).lastPollTime = s.lastPollTime := s.foreignFrame_field (·.lastPollTime) (by simp) (by simp) (by simp) k dev p r
@[simp] theorem State.foreignFrame_lastPollValid (s : State) (k : FrameKind) (dev : DevAddr) (p : List Byte) (r : BusResult) :
    (s.foreignFrame k dev p r).lastPollValid = s.lastPollValid := s.foreignFrame_field (·.lastPollValid) (by simp) (by simp) (by simp) k dev p r
@[simp] theorem State.foreignFrame_lastEdgeTime (s : State) (k : FrameKind) (dev : DevAddr) (p : List Byte) (r : BusResult) :
    (s.foreignFrame k dev p r).lastEdgeTime = s.lastEdgeTime := s.foreignFrame_field (·.lastEdgeTime) (by simp) (by simp) (by simp) k dev p r
@[simp] theorem State.foreignFrame_lastEdgeValid (s : State) (k : FrameKind) (dev : DevAddr) (p : List Byte) (r : BusResult) :
    (s.foreignFrame k dev p r).lastEdgeValid = s.lastEdgeValid := s.foreignFrame_field (·.lastEdgeValid) (by simp) (by simp) (by simp) k dev p r
@[simp] theorem State.foreignFrame_downPending (s : State) (k : FrameKind) (dev : DevAddr) (p : List Byte) (r : BusResult) :
    (s.foreignFrame k dev p r).downPending = s.downPending := s.foreignFrame_field (·.downPending) (by simp) (by simp) (by simp) k dev p r
@[simp] theorem State.foreignFrame_upPending (s : State) (k : FrameKind) (dev : DevAddr) (p : List Byte) (r : BusResult) :
    (s.foreignFrame k dev p r).upPending = s.upPending := s.foreignFrame_field (·.upPending) (by simp) (by simp) (by simp) k dev p r
@[simp] theorem State.foreignFrame_infoValid (s : State) (k : FrameKind) (dev : DevAddr) (p : List Byte) (r : BusResult) :
    (s.foreignFrame k dev p r).infoValid = s.infoValid := s.foreignFrame_field (·.infoValid) (by simp) (by simp) (by simp) k dev p r
@[simp] theorem State.foreignFrame_infoProductId (s : State) (k : FrameKind) (dev : DevAddr) (p : List Byte) (r : BusResult) :
    (s.foreignFrame k dev p r).infoProductId = s.infoProductId := s.foreignFrame_field (·.infoProductId) (by simp) (by simp) (by simp) k dev p r
@[simp] theorem State.foreignFrame_infoVendorId (s : State) (k : FrameKind) (dev : DevAddr) (p : List Byte) (r : BusResult) :
    (s.foreignFrame k dev p r).infoVendorId = s.infoVendorId := s.foreignFrame_field (·.infoVendorId) (by simp) (by simp) (by simp) k dev p r
@[simp] theorem State.foreignFrame_infoVersion (s : State) (k : FrameKind) (dev : DevAddr) (p : List Byte) (r : BusResult) :
    (s.foreignFrame k dev p r).infoVersion = s.infoVersion := s.foreignFrame_field (·.infoVersion) (by simp) (by simp) (by simp) k dev p r
@[simp] theorem State.foreignFrame_infoBusAddress (s : State) (k : FrameKind) (dev : DevAddr) (p : List Byte) (r : BusResult) :
    (s.foreignFrame k dev p r).infoBusAddress = s.infoBusAddress := s.foreignFrame_field (·.infoBusAddress) (by simp) (by simp) (by simp) k dev p r
@[simp] theorem State.foreignFrame_clock (s : State) (k : FrameKind) (dev : DevAddr) (p : List Byte) (r : BusResult) :
    (s.foreignFrame k dev p r).clock = s.clock := s.foreignFrame_field (·.clock) (by simp) (by simp) (by simp) k dev p r
@[simp] theorem State.foreignFrame_agenda (s : State) (k : FrameKind) (dev : DevAddr) (p : List Byte) (r : BusResult) :
    (s.foreignFrame k dev p r).agenda = s.agenda := s.foreignFrame_field (·.agenda) (by simp) (by simp) (by simp) k dev p r
@[simp] theorem State.foreignFrame_busTurns (s : State) (k : FrameKind) (dev : DevAddr) (p : List Byte) (r : BusResult) :
    (s.foreignFrame k dev p r).busTurns = s.busTurns := s.foreignFrame_field (·.busTurns) (by simp) (by simp) (by simp) k dev p r
@[simp] theorem State.foreignFrame_responses (s : State) (k : FrameKind) (dev : DevAddr) (p : List Byte) (r : BusResult) :
    (s.foreignFrame k dev p r).responses = s.responses := s.foreignFrame_field (·.responses) (by simp) (by simp) (by simp) k dev p r

/-! ### `applyEvent` -/

@[simp] theorem State.applyEvent_devAddr (s : State) (e : BusEvent) :
    (s.applyEvent e).devAddr = s.devAddr := by
  cases e <;> simp [State.applyEvent]
@[simp] theorem State.applyEvent_gainInit (s : State) (e : BusEvent) :
    (s.applyEvent e).gainInit = s.gainInit := by
  cases e <;> simp [State.applyEvent]
@[simp] theorem State.applyEvent_pollInterval (s : State) (e : BusEvent) :
    (s.applyEvent e).pollInterval = s.pollInterval := by
  cases e <;> simp [State.applyEvent]
@[simp] theorem State.applyEvent_stuckTimeout (s : State) (e : BusEvent) :
    (s.applyEvent e).stuckTimeout = s.stuckTimeout := by
  cases e <;> simp [State.applyEvent]
@[simp] theorem State.applyEvent_pressCount (s : State) (e : BusEvent) :
    (s.applyEvent e).pressCount = s.pressCount := by
  cases e <;> simp [State.applyEvent]
@[simp] theorem State.applyEvent_lastPollTime (s : State) (e : BusEvent) :
    (s.applyEvent e).lastPollTime = s.lastPollTime := by
  cases e <;> simp [State.applyEvent]
@[simp] theorem State.applyEvent_lastPollValid (s : State) (e : BusEvent) :
    (s.applyEvent e).lastPollValid = s.lastPollValid := by
  cases e <;> simp [State.applyEvent]
@[simp] theorem State.applyEvent_lastEdgeTime (s : State) (e : BusEvent) :
    (s.applyEvent e).lastEdgeTime = s.lastEdgeTime := by
  cases e <;> simp [State.applyEvent]
@[simp] theorem State.applyEvent_lastEdgeValid (s : State) (e : BusEvent) :
    (s.applyEvent e).lastEdgeValid = s.lastEdgeValid := by
  cases e <;> simp [State.applyEvent]
@[simp] theorem State.applyEvent_downPending (s : State) (e : BusEvent) :
    (s.applyEvent e).downPending = s.downPending := by
  cases e <;> simp [State.applyEvent]
@[simp] theorem State.applyEvent_upPending (s : State) (e : BusEvent) :
    (s.applyEvent e).upPending = s.upPending := by
  cases e <;> simp [State.applyEvent]
@[simp] theorem State.applyEvent_infoValid (s : State) (e : BusEvent) :
    (s.applyEvent e).infoValid = s.infoValid := by
  cases e <;> simp [State.applyEvent]
@[simp] theorem State.applyEvent_infoProductId (s : State) (e : BusEvent) :
    (s.applyEvent e).infoProductId = s.infoProductId := by
  cases e <;> simp [State.applyEvent]
@[simp] theorem State.applyEvent_infoVendorId (s : State) (e : BusEvent) :
    (s.applyEvent e).infoVendorId = s.infoVendorId := by
  cases e <;> simp [State.applyEvent]
@[simp] theorem State.applyEvent_infoVersion (s : State) (e : BusEvent) :
    (s.applyEvent e).infoVersion = s.infoVersion := by
  cases e <;> simp [State.applyEvent]
@[simp] theorem State.applyEvent_infoBusAddress (s : State) (e : BusEvent) :
    (s.applyEvent e).infoBusAddress = s.infoBusAddress := by
  cases e <;> simp [State.applyEvent]
@[simp] theorem State.applyEvent_agenda (s : State) (e : BusEvent) :
    (s.applyEvent e).agenda = s.agenda := by
  cases e <;> simp [State.applyEvent]
@[simp] theorem State.applyEvent_busTurns (s : State) (e : BusEvent) :
    (s.applyEvent e).busTurns = s.busTurns := by
  cases e <;> simp [State.applyEvent]
@[simp] theorem State.applyEvent_responses (s : State) (e : BusEvent) :
    (s.applyEvent e).responses = s.responses := by
  cases e <;> simp [State.applyEvent]

/-! ### `environment` -/

/-- What one event leaves alone, several leave alone. -/
theorem State.environment_field {α : Type} (f : State → α) (h : ∀ s e, f (s.applyEvent e) = f s) (s : State)
    (events : List BusEvent) : f (s.environment events) = f s := by
  induction events generalizing s with
  | nil => rfl
  | cons e rest ih => exact (ih (s.applyEvent e)).trans (h s e)

@[simp] theorem State.environment_devAddr (s : State) (events : List BusEvent) :
    (s.environment events).devAddr = s.devAddr := State.environment_field (·.devAddr) State.applyEvent_devAddr s events
@[simp] theorem State.environment_gainInit (s : State) (events : List BusEvent) :
    (s.environment events).gainInit = s.gainInit := State.environment_field (·.gainInit) State.applyEvent_gainInit s events
@[simp] theorem State.environment_pollInterval (s : State) (events : List BusEvent) :
    (s.environment events).pollInterval = s.pollInterval := State.environment_field (·.pollInterval) State.applyEvent_pollInterval s events
@[simp] theorem State.environment_stuckTimeout (s : State) (events : List BusEvent) :
    (s.environment events).stuckTimeout = s.stuckTimeout := State.environment_field (·.stuckTimeout) State.applyEvent_stuckTimeout s events
@[simp] theorem State.environment_pressCount (s : State) (events : List BusEvent) :
    (s.environment events).pressCount = s.pressCount := State.environment_field (·.pressCount) State.applyEvent_pressCount s events
@[simp] theorem State.environment_lastPollTime (s : State) (events : List BusEvent) :
    (s.environment events).lastPollTime = s.lastPollTime := State.environment_field (·.lastPollTime) State.applyEvent_lastPollTime s events
@[simp] theorem State.environment_lastPollValid (s : State) (events : List BusEvent) :
    (s.environment events).lastPollValid = s.lastPollValid := State.environment_field (·.lastPollValid) State.applyEvent_lastPollValid s events
@[simp] theorem State.environment_lastEdgeTime (s : State) (events : List BusEvent) :
    (s.environment events).lastEdgeTime = s.lastEdgeTime := State.environment_field (·.lastEdgeTime) State.applyEvent_lastEdgeTime s events
@[simp] theorem State.environment_lastEdgeValid (s : State) (events : List BusEvent) :
    (s.environment events).lastEdgeValid = s.lastEdgeValid := State.environment_field (·.lastEdgeValid) State.applyEvent_lastEdgeValid s events
@[simp] theorem State.environment_downPending (s : State) (events : List BusEvent) :
    (s.environment events).downPending = s.downPending := State.environment_field (·.downPending) State.applyEvent_downPending s events
@[simp] theorem State.environment_upPending (s : State) (events : List BusEvent) :
    (s.environment events).upPending = s.upPending := State.environment_field (·.upPending) State.applyEvent_upPending s events
@[simp] theorem State.environment_infoValid (s : State) (events : List BusEvent) :
    (s.environment events).infoValid = s.infoValid := State.environment_field (·.infoValid) State.applyEvent_infoValid s events
@[simp] theorem State.environment_infoProductId (s : State) (events : List BusEvent) :
    (s.environment events).infoProductId = s.infoProductId := State.environment_field (·.infoProductId) State.applyEvent_infoProductId s events
@[simp] theorem State.environment_infoVendorId (s : State) (events : List BusEvent) :
    (s.environment events).infoVendorId = s.infoVendorId := State.environment_field (·.infoVendorId) State.applyEvent_infoVendorId s events
@[simp] theorem State.environment_infoVersion (s : State) (events : List BusEvent) :
    (s.environment events).infoVersion = s.infoVersion := State.environment_field (·.infoVersion) State.applyEvent_infoVersion s events
@[simp] theorem State.environment_infoBusAddress (s : State) (events : List BusEvent) :
    (s.environment events).infoBusAddress = s.infoBusAddress := State.environment_field (·.infoBusAddress) State.applyEvent_infoBusAddress s events
@[simp] theorem State.environment_agenda (s : State) (events : List BusEvent) :
    (s.environment events).agenda = s.agenda := State.environment_field (·.agenda) State.applyEvent_agenda s events
@[simp] theorem State.environment_busTurns (s : State) (events : List BusEvent) :
    (s.environment events).busTurns = s.busTurns := State.environment_field (·.busTurns) State.applyEvent_busTurns s events
@[simp] theorem State.environment_responses (s : State) (events : List BusEvent) :
    (s.environment events).responses = s.responses := State.environment_field (·.responses) State.applyEvent_responses s events

/-! ### `atBus` -/

@[simp] theorem State.atBus_devAddr (s : State) :
    (s.atBus).devAddr = s.devAddr := by
  simp [State.atBus]
@[simp] theorem State.atBus_gainInit (s : State) :
    (s.atBus).gainInit = s.gainInit := by
  simp [State.atBus]
@[simp] theorem State.atBus_pollInterval (s : State) :
    (s.atBus).pollInterval = s.pollInterval := by
  simp [State.atBus]
@[simp] theorem State.atBus_stuckTimeout (s : State) :
    (s.atBus).stuckTimeout = s.stuckTimeout := by
  simp [State.atBus]
@[simp] theorem State.atBus_pressCount (s : State) :
    (s.atBus).pressCount = s.pressCount := by
  simp [State.atBus]
@[simp] theorem State.atBus_lastPollTime (s : State) :
    (s.atBus).lastPollTime = s.lastPollTime := by
  simp [State.atBus]
@[simp] theorem State.atBus_lastPollValid (s : State) :
    (s.atBus).lastPollValid = s.lastPollValid := by
  simp [State.atBus]
@[simp] theorem State.atBus_lastEdgeTime (s : State) :
    (s.atBus).lastEdgeTime = s.lastEdgeTime := by
  simp [State.atBus]
@[simp] theorem State.atBus_lastEdgeValid (s : State) :
    (s.atBus).lastEdgeValid = s.lastEdgeValid := by
  simp [State.atBus]
@[simp] theorem State.atBus_downPending (s : State) :
    (s.atBus).downPending = s.downPending := by
  simp [State.atBus]
@[simp] theorem State.atBus_upPending (s : State) :
    (s.atBus).upPending = s.upPending := by
  simp [State.atBus]
@[simp] theorem State.atBus_infoValid (s : State) :
    (s.atBus).infoValid = s.infoValid := by
  simp [State.atBus]
@[simp] theorem State.atBus_infoProductId (s : State) :
    (s.atBus).infoProductId = s.infoProductId := by
  simp [State.atBus]
@[simp] theorem State.atBus_infoVendorId (s : State) :
    (s.atBus).infoVendorId = s.infoVendorId := by
  simp [State.atBus]
@[simp] theorem State.atBus_infoVersion (s : State) :
    (s.atBus).infoVersion = s.infoVersion := by
  simp [State.atBus]
@[simp] theorem State.atBus_infoBusAddress (s : State) :
    (s.atBus).infoBusAddress = s.infoBusAddress := by
  simp [State.atBus]
@[simp] theorem State.atBus_agenda (s : State) :
    (s.atBus).agenda = s.agenda := by
  simp [State.atBus]
@[simp] theorem State.atBus_responses (s : State) :
    (s.atBus).responses = s.responses := by
  simp [State.atBus]

/-! ### `countEdge` and `debounce`: what the state machine's steps 3 to 5 leave alone -/

@[simp] theorem State.countEdge_devAddr (s : State) (now : Nat) (edge : Bool) : (s.countEdge now edge).devAddr = s.devAddr := by
  unfold State.countEdge; split <;> [split <;> rfl; rfl]
@[simp] theorem State.countEdge_gainInit (s : State) (now : Nat) (edge : Bool) : (s.countEdge now edge).gainInit = s.gainInit := by
  unfold State.countEdge; split <;> [split <;> rfl; rfl]
@[simp] theorem State.countEdge_pollInterval (s : State) (now : Nat) (edge : Bool) : (s.countEdge now edge).pollInterval = s.pollInterval := by
  unfold State.countEdge; split <;> [split <;> rfl; rfl]
@[simp] theorem State.countEdge_stuckTimeout (s : State) (now : Nat) (edge : Bool) : (s.countEdge now edge).stuckTimeout = s.stuckTimeout := by
  unfold State.countEdge; split <;> [split <;> rfl; rfl]
@[simp] theorem State.countEdge_lastPollTime (s : State) (now : Nat) (edge : Bool) : (s.countEdge now edge).lastPollTime = s.lastPollTime := by
  unfold State.countEdge; split <;> [split <;> rfl; rfl]
@[simp] theorem State.countEdge_lastPollValid (s : State) (now : Nat) (edge : Bool) : (s.countEdge now edge).lastPollValid = s.lastPollValid := by
  unfold State.countEdge; split <;> [split <;> rfl; rfl]
@[simp] theorem State.countEdge_downPending (s : State) (now : Nat) (edge : Bool) : (s.countEdge now edge).downPending = s.downPending := by
  unfold State.countEdge; split <;> [split <;> rfl; rfl]
@[simp] theorem State.countEdge_infoValid (s : State) (now : Nat) (edge : Bool) : (s.countEdge now edge).infoValid = s.infoValid := by
  unfold State.countEdge; split <;> [split <;> rfl; rfl]
@[simp] theorem State.countEdge_infoProductId (s : State) (now : Nat) (edge : Bool) : (s.countEdge now edge).infoProductId = s.infoProductId := by
  unfold State.countEdge; split <;> [split <;> rfl; rfl]
@[simp] theorem State.countEdge_infoVendorId (s : State) (now : Nat) (edge : Bool) : (s.countEdge now edge).infoVendorId = s.infoVendorId := by
  unfold State.countEdge; split <;> [split <;> rfl; rfl]
@[simp] theorem State.countEdge_infoVersion (s : State) (now : Nat) (edge : Bool) : (s.countEdge now edge).infoVersion = s.infoVersion := by
  unfold State.countEdge; split <;> [split <;> rfl; rfl]
@[simp] theorem State.countEdge_infoBusAddress (s : State) (now : Nat) (edge : Bool) : (s.countEdge now edge).infoBusAddress = s.infoBusAddress := by
  unfold State.countEdge; split <;> [split <;> rfl; rfl]
@[simp] theorem State.countEdge_regs (s : State) (now : Nat) (edge : Bool) : (s.countEdge now edge).regs = s.regs := by
  unfold State.countEdge; split <;> [split <;> rfl; rfl]
@[simp] theorem State.countEdge_clock (s : State) (now : Nat) (edge : Bool) : (s.countEdge now edge).clock = s.clock := by
  unfold State.countEdge; split <;> [split <;> rfl; rfl]
@[simp] theorem State.countEdge_agenda (s : State) (now : Nat) (edge : Bool) : (s.countEdge now edge).agenda = s.agenda := by
  unfold State.countEdge; split <;> [split <;> rfl; rfl]
@[simp] theorem State.countEdge_busTurns (s : State) (now : Nat) (edge : Bool) : (s.countEdge now edge).busTurns = s.busTurns := by
  unfold State.countEdge; split <;> [split <;> rfl; rfl]
@[simp] theorem State.countEdge_freeCount (s : State) (now : Nat) (edge : Bool) : (s.countEdge now edge).freeCount = s.freeCount := by
  unfold State.countEdge; split <;> [split <;> rfl; rfl]
@[simp] theorem State.countEdge_responses (s : State) (now : Nat) (edge : Bool) : (s.countEdge now edge).responses = s.responses := by
  unfold State.countEdge; split <;> [split <;> rfl; rfl]
@[simp] theorem State.countEdge_trace (s : State) (now : Nat) (edge : Bool) : (s.countEdge now edge).trace = s.trace := by
  unfold State.countEdge; split <;> [split <;> rfl; rfl]
@[simp] theorem State.recoverOrNotify_devAddr (s : State) (now : Nat) (d : Bool) :
    (s.recoverOrNotify now d).devAddr = s.devAddr := by
  unfold State.recoverOrNotify; split <;> [rfl; (split <;> rfl)]
@[simp] theorem State.recoverOrNotify_gainInit (s : State) (now : Nat) (d : Bool) :
    (s.recoverOrNotify now d).gainInit = s.gainInit := by
  unfold State.recoverOrNotify; split <;> [rfl; (split <;> rfl)]
@[simp] theorem State.recoverOrNotify_pollInterval (s : State) (now : Nat) (d : Bool) :
    (s.recoverOrNotify now d).pollInterval = s.pollInterval := by
  unfold State.recoverOrNotify; split <;> [rfl; (split <;> rfl)]
@[simp] theorem State.recoverOrNotify_stuckTimeout (s : State) (now : Nat) (d : Bool) :
    (s.recoverOrNotify now d).stuckTimeout = s.stuckTimeout := by
  unfold State.recoverOrNotify; split <;> [rfl; (split <;> rfl)]
@[simp] theorem State.recoverOrNotify_lastPollTime (s : State) (now : Nat) (d : Bool) :
    (s.recoverOrNotify now d).lastPollTime = s.lastPollTime := by
  unfold State.recoverOrNotify; split <;> [rfl; (split <;> rfl)]
@[simp] theorem State.recoverOrNotify_lastPollValid (s : State) (now : Nat) (d : Bool) :
    (s.recoverOrNotify now d).lastPollValid = s.lastPollValid := by
  unfold State.recoverOrNotify; split <;> [rfl; (split <;> rfl)]
@[simp] theorem State.recoverOrNotify_lastEdgeTime (s : State) (now : Nat) (d : Bool) :
    (s.recoverOrNotify now d).lastEdgeTime = s.lastEdgeTime := by
  unfold State.recoverOrNotify; split <;> [rfl; (split <;> rfl)]
@[simp] theorem State.recoverOrNotify_lastEdgeValid (s : State) (now : Nat) (d : Bool) :
    (s.recoverOrNotify now d).lastEdgeValid = s.lastEdgeValid := by
  unfold State.recoverOrNotify; split <;> [rfl; (split <;> rfl)]
@[simp] theorem State.recoverOrNotify_infoValid (s : State) (now : Nat) (d : Bool) :
    (s.recoverOrNotify now d).infoValid = s.infoValid := by
  unfold State.recoverOrNotify; split <;> [rfl; (split <;> rfl)]
@[simp] theorem State.recoverOrNotify_infoProductId (s : State) (now : Nat) (d : Bool) :
    (s.recoverOrNotify now d).infoProductId = s.infoProductId := by
  unfold State.recoverOrNotify; split <;> [rfl; (split <;> rfl)]
@[simp] theorem State.recoverOrNotify_infoVendorId (s : State) (now : Nat) (d : Bool) :
    (s.recoverOrNotify now d).infoVendorId = s.infoVendorId := by
  unfold State.recoverOrNotify; split <;> [rfl; (split <;> rfl)]
@[simp] theorem State.recoverOrNotify_infoVersion (s : State) (now : Nat) (d : Bool) :
    (s.recoverOrNotify now d).infoVersion = s.infoVersion := by
  unfold State.recoverOrNotify; split <;> [rfl; (split <;> rfl)]
@[simp] theorem State.recoverOrNotify_infoBusAddress (s : State) (now : Nat) (d : Bool) :
    (s.recoverOrNotify now d).infoBusAddress = s.infoBusAddress := by
  unfold State.recoverOrNotify; split <;> [rfl; (split <;> rfl)]
@[simp] theorem State.recoverOrNotify_regs (s : State) (now : Nat) (d : Bool) :
    (s.recoverOrNotify now d).regs = s.regs := by
  unfold State.recoverOrNotify; split <;> [rfl; (split <;> rfl)]
@[simp] theorem State.recoverOrNotify_clock (s : State) (now : Nat) (d : Bool) :
    (s.recoverOrNotify now d).clock = s.clock := by
  unfold State.recoverOrNotify; split <;> [rfl; (split <;> rfl)]
@[simp] theorem State.recoverOrNotify_agenda (s : State) (now : Nat) (d : Bool) :
    (s.recoverOrNotify now d).agenda = s.agenda := by
  unfold State.recoverOrNotify; split <;> [rfl; (split <;> rfl)]
@[simp] theorem State.recoverOrNotify_busTurns (s : State) (now : Nat) (d : Bool) :
    (s.recoverOrNotify now d).busTurns = s.busTurns := by
  unfold State.recoverOrNotify; split <;> [rfl; (split <;> rfl)]
@[simp] theorem State.recoverOrNotify_freeCount (s : State) (now : Nat) (d : Bool) :
    (s.recoverOrNotify now d).freeCount = s.freeCount := by
  unfold State.recoverOrNotify; split <;> [rfl; (split <;> rfl)]
@[simp] theorem State.recoverOrNotify_responses (s : State) (now : Nat) (d : Bool) :
    (s.recoverOrNotify now d).responses = s.responses := by
  unfold State.recoverOrNotify; split <;> [rfl; (split <;> rfl)]
@[simp] theorem State.recoverOrNotify_trace (s : State) (now : Nat) (d : Bool) :
    (s.recoverOrNotify now d).trace = s.trace := by
  unfold State.recoverOrNotify; split <;> [rfl; (split <;> rfl)]
@[simp] theorem State.debounce_devAddr (s : State) (now : Nat) (edge : Bool) : (s.debounce now edge).devAddr = s.devAddr := by
  simp [State.debounce]
@[simp] theorem State.debounce_gainInit (s : State) (now : Nat) (edge : Bool) : (s.debounce now edge).gainInit = s.gainInit := by
  simp [State.debounce]
@[simp] theorem State.debounce_pollInterval (s : State) (now : Nat) (edge : Bool) : (s.debounce now edge).pollInterval = s.pollInterval := by
  simp [State.debounce]
@[simp] theorem State.debounce_stuckTimeout (s : State) (now : Nat) (edge : Bool) : (s.debounce now edge).stuckTimeout = s.stuckTimeout := by
  simp [State.debounce]
@[simp] theorem State.debounce_lastPollTime (s : State) (now : Nat) (edge : Bool) : (s.debounce now edge).lastPollTime = s.lastPollTime := by
  simp [State.debounce]
@[simp] theorem State.debounce_lastPollValid (s : State) (now : Nat) (edge : Bool) : (s.debounce now edge).lastPollValid = s.lastPollValid := by
  simp [State.debounce]
@[simp] theorem State.debounce_infoValid (s : State) (now : Nat) (edge : Bool) : (s.debounce now edge).infoValid = s.infoValid := by
  simp [State.debounce]
@[simp] theorem State.debounce_infoProductId (s : State) (now : Nat) (edge : Bool) : (s.debounce now edge).infoProductId = s.infoProductId := by
  simp [State.debounce]
@[simp] theorem State.debounce_infoVendorId (s : State) (now : Nat) (edge : Bool) : (s.debounce now edge).infoVendorId = s.infoVendorId := by
  simp [State.debounce]
@[simp] theorem State.debounce_infoVersion (s : State) (now : Nat) (edge : Bool) : (s.debounce now edge).infoVersion = s.infoVersion := by
  simp [State.debounce]
@[simp] theorem State.debounce_infoBusAddress (s : State) (now : Nat) (edge : Bool) : (s.debounce now edge).infoBusAddress = s.infoBusAddress := by
  simp [State.debounce]
@[simp] theorem State.debounce_regs (s : State) (now : Nat) (edge : Bool) : (s.debounce now edge).regs = s.regs := by
  simp [State.debounce]
@[simp] theorem State.debounce_clock (s : State) (now : Nat) (edge : Bool) : (s.debounce now edge).clock = s.clock := by
  simp [State.debounce]
@[simp] theorem State.debounce_agenda (s : State) (now : Nat) (edge : Bool) : (s.debounce now edge).agenda = s.agenda := by
  simp [State.debounce]
@[simp] theorem State.debounce_busTurns (s : State) (now : Nat) (edge : Bool) : (s.debounce now edge).busTurns = s.busTurns := by
  simp [State.debounce]
@[simp] theorem State.debounce_freeCount (s : State) (now : Nat) (edge : Bool) : (s.debounce now edge).freeCount = s.freeCount := by
  simp [State.debounce]
@[simp] theorem State.debounce_responses (s : State) (now : Nat) (edge : Bool) : (s.debounce now edge).responses = s.responses := by
  simp [State.debounce]
@[simp] theorem State.debounce_trace (s : State) (now : Nat) (edge : Bool) : (s.debounce now edge).trace = s.trace := by
  simp [State.debounce]

end Sys2Proof.Machine
end

