-- ==== Sys2Proof/Laws/Bus.lean ====
section
/-! SUPPORT. The transport's two calls, the environment's moves and the read-and-acknowledge: everything each can
do, said once. -/

namespace Sys2Proof.Machine

/-! ### The environment -/

@[simp] theorem State.environment_nil (s : State) : s.environment [] = s := rfl

@[simp] theorem State.environment_cons (s : State) (e : BusEvent) (es : List BusEvent) :
    s.environment (e :: es) = (s.applyEvent e).environment es := rfl

/-- A property that the events of a list keep is kept by the list. -/
theorem State.environment_keeps {P : State → Prop} {events : List BusEvent}
    (h : ∀ s, ∀ e ∈ events, P s → P (s.applyEvent e)) {s : State} (hs : P s) : P (s.environment events) := by
  induction events generalizing s with
  | nil => exact hs
  | cons e rest ih =>
    exact ih (fun s e he => h s e (List.mem_cons_of_mem _ he)) (h s e List.mem_cons_self hs)

/-- A function of the state that commutes with single events commutes with several. -/
theorem State.environment_comm {p : State → State} (hp : ∀ s e, p (s.applyEvent e) = (p s).applyEvent e) (s : State)
    (events : List BusEvent) : p (s.environment events) = (p s).environment events := by
  induction events generalizing s with
  | nil => rfl
  | cons e rest ih => rw [State.environment_cons, State.environment_cons, ih, hp]

@[simp] theorem State.dropTurn_cons {s : State} {turn : BusTurn} {rest : List BusTurn}
    (h : s.busTurns = turn :: rest) : s.dropTurn = { s with busTurns := rest } := by
  simp [State.dropTurn, h]

theorem State.nextTurn_cons {s : State} {turn : BusTurn} {rest : List BusTurn} (h : s.busTurns = turn :: rest) :
    s.nextTurn = turn := by
  simp [State.nextTurn, h]

/-- With a scripted turn, the environment does what the script says. -/
theorem State.atBus_cons {s : State} {turn : BusTurn} {rest : List BusTurn} (h : s.busTurns = turn :: rest) :
    s.atBus = State.environment { s with busTurns := rest } turn.events := by
  rw [State.atBus, State.dropTurn_cons h, State.nextTurn_cons h]

theorem buttonByte_ne_zero (n : Fin 255) : buttonByte n ≠ 0x00#8 := by
  obtain ⟨n, hn⟩ := n
  simp only [buttonByte]
  intro h
  have := congrArg BitVec.toNat h
  simp at this
  omega

theorem FrameKind.payload_length {k : FrameKind} (h : k.isWrite = true) (value : U16) :
    (k.payload value).length = k.len.toNat := by
  cases k <;> first | rfl | cases h

/-- The only frames that write are the three, to cells 0x08 and above and within the map. -/
theorem FrameKind.write_reg {k : FrameKind} (h : k.isWrite = true) :
    0x08 ≤ k.reg.toNat ∧ k.reg.toNat + k.len.toNat ≤ Config.mapSize := by
  cases k <;> first | (cases h; done) | decide

/-- Everything a frame of another master can do to the state. -/
theorem State.foreignFrame_cases (s : State) (k : FrameKind) (dev : DevAddr) (payload : List Byte) (r : BusResult) :
    (k.isWrite = false ∧ ∃ reply, s.foreignFrame k dev payload r =
      (if r = .ok then s.afterAnswer k dev else s).record ⟨.other, k.header dev, [], reply⟩) ∨
    (k.isWrite = true ∧ ∃ reply, s.foreignFrame k dev payload r =
      (s.afterFailedWrite k dev payload r.took).record ⟨.other, k.header dev, payload, reply⟩) := by
  unfold State.foreignFrame
  cases hk : k.isWrite <;> cases r
  · exact .inl ⟨rfl, _, rfl⟩
  · exact .inl ⟨rfl, _, rfl⟩
  · exact .inr ⟨rfl, _, rfl⟩
  · exact .inr ⟨rfl, _, rfl⟩

/-- An event changes no cell but those it writes. -/
theorem State.applyEvent_read {s : State} {e : BusEvent} {a : Nat} (h : ¬ e.Writes s.devAddr a) :
    (s.applyEvent e).regs.read a = s.regs.read a := by
  cases e with
  | move m =>
    cases m with
    | button n => exact Memory.read_write_other _ _ h
    | rotate c =>
      simp only [BusEvent.Writes, Config.regCounter] at h
      exact Memory.read_writeBlock_outside _ (by simp [Config.regCounter, counterBytes]; omega)
    | clock t => rfl
    | exchange cells =>
      simp only [BusEvent.Writes, Config.mapSize] at h
      exact Memory.read_writeBlock_outside _ (by simp [Config.regPid]; omega)
    | readdress n => exact Memory.read_write_other _ _ h
  | frame k dev value r =>
    rcases s.foreignFrame_cases k dev (k.payload value) r with ⟨_, reply, hf⟩ | ⟨hk, reply, hf⟩ <;>
      rw [State.applyEvent, hf, State.record_regs]
    · split <;> simp
    · unfold State.afterFailedWrite State.afterWrite
      split
      · split
        · next ht hd =>
          simp only [BusEvent.Writes, hd, hk, ht, true_and] at h
          exact Memory.read_writeBlock_outside _ (by rw [FrameKind.payload_length hk]; omega)
        · rfl
      · rfl

theorem State.environment_read {s : State} {events : List BusEvent} {a : Nat}
    (h : ∀ e ∈ events, ¬ e.Writes s.devAddr a) : (s.environment events).regs.read a = s.regs.read a := by
  refine (State.environment_keeps (P := fun u => u.devAddr = s.devAddr ∧ u.regs.read a = s.regs.read a)
    (fun u e he hu => ⟨(u.applyEvent_devAddr e).trans hu.1, ?_⟩) ⟨rfl, rfl⟩).2
  rw [State.applyEvent_read (hu.1 ▸ h e he), hu.2]

/-- A cell that nothing writes before the transaction is as it was. -/
theorem State.atBus_read {s : State} {a : Nat} (h : ∀ e ∈ s.nextTurn.events, ¬ e.Writes s.devAddr a) :
    s.atBus.regs.read a = s.regs.read a := by
  rw [State.atBus, State.environment_read (by simpa using h), State.dropTurn_regs]

/-- What an exchange of the peripheral leaves (R205). -/
theorem State.exchange_read (s : State) (cells : Vector Byte 12) {a : Nat} (h : a < 12) :
    (s.applyMove (.exchange cells)).regs.read a = cells[a] := by
  show (s.regs.writeBlock 0 cells.toList).read a = _
  rw [Memory.read_writeBlock, if_pos ⟨Nat.zero_le a, by simpa using h⟩]
  simp [List.getD, h]

/-- Nothing writes the identity cells but an exchange and, `BUS_ADDR`, a new bus address (R51 (c), R57, R205). -/
theorem BusEvent.writes_identity {e : BusEvent} {dev : DevAddr} {a : Nat} (h : a < 0x08) (hw : e.Writes dev a) :
    ∃ m, e = .move m ∧ m.Reidentifies a := by
  revert hw
  cases e with
  | move m =>
    refine fun hw => ⟨m, rfl, ?_⟩
    cases m <;> simp only [BusEvent.Writes, EnvMove.Reidentifies, Config.regKeyStatus, Config.regCounter] at hw ⊢ <;>
      omega
  | frame k d v r =>
    rintro ⟨_, hk, _, hr, _⟩
    have := (FrameKind.write_reg hk).1
    omega

theorem State.afterWrite_wf {s : State} (h : s.regs.wf) {k : FrameKind} {payload : List Byte} (dev : DevAddr)
    (hp : k.reg.toNat + payload.length ≤ Config.mapSize) : (s.afterWrite k dev payload).regs.wf := by
  unfold State.afterWrite
  split
  · exact Memory.writeBlock_wf h hp
  · exact h

/-- A pending edge stays pending through everything that does not take it away (R51, R135, R200, R205). -/
theorem State.environment_pending {s : State} {events : List BusEvent}
    (h : ∀ e ∈ events, ¬ e.ClearsKey s.devAddr) (hs : s.keyStatus ≠ 0x00#8) :
    (s.environment events).keyStatus ≠ 0x00#8 := by
  refine (State.environment_keeps (P := fun u => u.devAddr = s.devAddr ∧ u.keyStatus ≠ 0x00#8)
    (fun u e he hu => ⟨(u.applyEvent_devAddr e).trans hu.1, ?_⟩) ⟨rfl, hs⟩).2
  have hack := hu.1 ▸ h e he
  by_cases hw : e.Writes u.devAddr Config.regKeyStatus
  · cases e with
    | move m =>
      cases m with
      | button n =>
        have : (u.applyEvent (.move (.button n))).keyStatus = buttonByte n := Memory.read_write_same _ _ _
        rw [this]
        exact buttonByte_ne_zero n
      | rotate c => simp [BusEvent.Writes, Config.regKeyStatus, Config.regCounter] at hw
      | clock t => exact absurd hw id
      | exchange cells =>
        have : (u.applyEvent (.move (.exchange cells))).keyStatus = cells[10] := u.exchange_read cells (by decide)
        rw [this]
        exact hack
      | readdress n => simp [BusEvent.Writes, Config.regKeyStatus, Config.regBusAddr] at hw
    | frame k d v r =>
      obtain ⟨hd, hk, ht, hlo, hhi⟩ := hw
      cases k <;> first | (cases hk; done) | skip
      · simp [FrameKind.reg, FrameKind.len, Config.regKeyStatus] at hhi
      · exact absurd ⟨hd, rfl, ht⟩ hack
      · simp [FrameKind.reg, Config.regKeyStatus] at hlo
  · rw [State.keyStatus, State.applyEvent_read hw]
    exact hu.2

/-! The block's own frames in the bus record. -/

@[simp] theorem State.record_blockFrames_own (s : State) (h : Word20) (p : List Byte) (r : Reply) :
    (s.record ⟨.block, h, p, r⟩).blockFrames = ⟨.block, h, p, r⟩ :: s.blockFrames := rfl

@[simp] theorem State.record_blockFrames_other (s : State) (h : Word20) (p : List Byte) (r : Reply) :
    (s.record ⟨.other, h, p, r⟩).blockFrames = s.blockFrames := rfl

theorem State.blockFrames_congr {s t : State} (h : t.trace = s.trace) : t.blockFrames = s.blockFrames := by
  rw [State.blockFrames, h, State.blockFrames]

/-- A frame of another master is none of the block's. -/
@[simp] theorem State.foreignFrame_blockFrames (s : State) (k : FrameKind) (dev : DevAddr) (p : List Byte)
    (r : BusResult) : (s.foreignFrame k dev p r).blockFrames = s.blockFrames := by
  rcases s.foreignFrame_cases k dev p r with ⟨_, reply, hf⟩ | ⟨_, reply, hf⟩ <;>
    rw [hf, State.record_blockFrames_other] <;> apply State.blockFrames_congr
  · split <;> simp
  · simp

@[simp] theorem State.applyEvent_blockFrames (s : State) (e : BusEvent) :
    (s.applyEvent e).blockFrames = s.blockFrames := by
  cases e with
  | move m => exact State.blockFrames_congr (s.applyMove_trace m)
  | frame k dev v r => exact s.foreignFrame_blockFrames k dev _ r

@[simp] theorem State.atBus_blockFrames (s : State) : s.atBus.blockFrames = s.blockFrames :=
  (State.environment_field State.blockFrames State.applyEvent_blockFrames _ _).trans
    (State.blockFrames_congr s.dropTurn_trace)

@[simp] theorem State.busFrame_blockFrames (s : State) (k : FrameKind) (dev : DevAddr) (p : List Byte) :
    (s.busFrame k dev p).blockFrames = s.blockFrames :=
  (State.foreignFrame_blockFrames _ _ _ _ _).trans s.atBus_blockFrames

theorem State.applyMove_wf {s : State} (h : s.regs.wf) (m : EnvMove) : (s.applyMove m).regs.wf := by
  cases m with
  | button n => exact Memory.write_wf h (by decide) _
  | rotate c => exact Memory.writeBlock_wf h (by simp [Config.regCounter, counterBytes, Config.mapSize])
  | clock t => exact h
  | exchange cells => exact Memory.writeBlock_wf h (by simp [Config.regPid, Config.mapSize])
  | readdress n => exact Memory.write_wf h (by decide) _

/-! What does not touch the bus commutes with all that happens on it. -/

/-- `p` changes nothing that a transaction or an event looks at, and is not changed by one. -/
structure BusIndependent (p : State → State) : Prop where
  record : ∀ s t, p (s.record t) = (p s).record t
  nextTurn : ∀ s, (p s).nextTurn = s.nextTurn
  drop : ∀ s, p s.dropTurn = (p s).dropTurn
  move : ∀ s m, p (s.applyMove m) = (p s).applyMove m
  answer : ∀ s k dev, p (s.afterAnswer k dev) = (p s).afterAnswer k dev
  bytes : ∀ s k dev, (p s).answerBytes k dev = s.answerBytes k dev
  write : ∀ s k dev payload, p (s.afterWrite k dev payload) = (p s).afterWrite k dev payload

section
variable {p : State → State}

theorem BusIndependent.readAs (h : BusIndependent p) (s : State) (m : Master) (k : FrameKind) (dev : DevAddr)
    (r : BusResult) : (p s).readAs m k dev r = ((s.readAs m k dev r).1, p (s.readAs m k dev r).2) := by
  cases r <;> simp only [State.readAs, h.record, h.answer, h.bytes]

theorem BusIndependent.writeAs (h : BusIndependent p) (s : State) (m : Master) (k : FrameKind) (dev : DevAddr)
    (payload : List Byte) (r : BusResult) :
    (p s).writeAs m k dev payload r = ((s.writeAs m k dev payload r).1, p (s.writeAs m k dev payload r).2) := by
  have hf : ∀ taken, p (s.afterFailedWrite k dev payload taken) = (p s).afterFailedWrite k dev payload taken :=
    fun taken => by cases taken <;> [rfl; exact h.write s k dev payload]
  cases r <;> simp only [State.writeAs, h.record, h.write, hf]

theorem BusIndependent.foreignFrame (h : BusIndependent p) (s : State) (k : FrameKind) (dev : DevAddr)
    (payload : List Byte) (r : BusResult) : p (s.foreignFrame k dev payload r) = (p s).foreignFrame k dev payload r := by
  unfold State.foreignFrame
  split
  · rw [h.writeAs]
  · rw [h.readAs]

theorem BusIndependent.atBus (h : BusIndependent p) (s : State) : p s.atBus = (p s).atBus := by
  rw [State.atBus, State.atBus, h.nextTurn, ← h.drop]
  refine State.environment_comm (fun s e => ?_) _ _
  cases e with
  | move m => exact h.move s m
  | frame k dev v r => exact h.foreignFrame s k dev _ r

end

/-- A record update of fields that the bus does not know commutes with all that happens on it. -/
theorem State.recordPoll_independent (now : Nat) : BusIndependent (State.recordPoll · now) where
  record _ _ := rfl
  nextTurn _ := rfl
  drop s := by unfold State.dropTurn; simp only [State.recordPoll_busTurns]; split <;> rfl
  move _ m := by cases m <;> rfl
  answer _ _ _ := apply_ite (State.recordPoll · now) _ _ _
  bytes _ _ _ := rfl
  write _ _ _ _ := apply_ite (State.recordPoll · now) _ _ _

theorem State.withAgenda_independent (rest : List Turn) : BusIndependent (State.withAgenda · rest) where
  record _ _ := rfl
  nextTurn _ := rfl
  drop s := by unfold State.dropTurn; simp only [State.withAgenda_busTurns]; split <;> rfl
  move _ m := by cases m <;> rfl
  answer _ _ _ := apply_ite (State.withAgenda · rest) _ _ _
  bytes _ _ _ := rfl
  write _ _ _ _ := apply_ite (State.withAgenda · rest) _ _ _

@[simp] theorem State.recordPoll_nextTurn (s : State) (now : Nat) : (s.recordPoll now).nextTurn = s.nextTurn := rfl

@[simp] theorem State.recordPoll_atBus (s : State) (now : Nat) :
    (s.recordPoll now).atBus = s.atBus.recordPoll now := ((State.recordPoll_independent now).atBus s).symm

@[simp] theorem State.withAgenda_nextTurn (s : State) (rest : List Turn) : (s.withAgenda rest).nextTurn = s.nextTurn :=
  rfl

@[simp] theorem State.withAgenda_atBus (s : State) (rest : List Turn) :
    (s.withAgenda rest).atBus = s.atBus.withAgenda rest := ((State.withAgenda_independent rest).atBus s).symm

/-! ### One transaction -/

/-- The block's own frames go to its peripheral: the answer is the cells. -/
@[simp] theorem State.answerBytes_own (s : State) (k : FrameKind) :
    s.answerBytes k s.devAddr = s.regs.readBlock k.reg.toNat k.len.toNat := by
  simp [State.answerBytes]

@[simp] theorem State.afterAnswer_own (s : State) (k : FrameKind) : s.afterAnswer k s.devAddr = s := by
  simp [State.afterAnswer]

@[simp] theorem State.afterWrite_own (s : State) (k : FrameKind) (payload : List Byte) :
    s.afterWrite k s.devAddr payload = s.setRegs (s.regs.writeBlock k.reg.toNat payload) := by
  simp [State.afterWrite]

/-- A write at another device changes nothing here. -/
theorem State.afterWrite_other {s : State} {dev : DevAddr} (h : dev ≠ s.devAddr) (k : FrameKind) (p : List Byte) :
    s.afterWrite k dev p = s := by
  simp [State.afterWrite, h]

theorem State.afterFailedWrite_own (s : State) (k : FrameKind) (payload : List Byte) (taken : Bool) :
    s.afterFailedWrite k s.devAddr payload taken =
      if taken then s.setRegs (s.regs.writeBlock k.reg.toNat payload) else s := by
  simp [State.afterFailedWrite]

/-- A frame's header at the block's peripheral, in the words of R76. -/
theorem header_own (s : State) (k : FrameKind) : k.header s.devAddr = s.headerTo (k.header 0#7) := header_eq_or _ _

/-- A successful read of the block: the cells it covers, and one entry in the bus record. -/
theorem State.memRead_ok {s : State} (h : s.nextTurn.result = .ok) (k : FrameKind) :
    s.memRead k =
      (.ok (s.atBus.regs.readBlock k.reg.toNat k.len.toNat),
        s.atBus.record ⟨.block, s.headerTo (k.header 0#7), [],
          .answered (s.atBus.regs.readBlock k.reg.toNat k.len.toNat)⟩) := by
  simp only [State.memRead, h, State.readAs]
  rw [← s.atBus_devAddr, State.answerBytes_own, State.afterAnswer_own, s.atBus_devAddr, header_own]

theorem State.memRead_err {s : State} {e : Byte} {taken : Bool} (h : s.nextTurn.result = .err e taken)
    (k : FrameKind) :
    s.memRead k = (.error e, s.atBus.record ⟨.block, s.headerTo (k.header 0#7), [], .failed e⟩) := by
  simp only [State.memRead, h, State.readAs, header_own]

/-- A successful write of the block: its bytes in their cells, and one entry in the bus record. -/
theorem State.memWrite_ok {s : State} (h : s.nextTurn.result = .ok) (k : FrameKind) (payload : List Byte) :
    s.memWrite k payload =
      (.ok (), (s.atBus.setRegs (s.atBus.regs.writeBlock k.reg.toNat payload)).record
        ⟨.block, s.headerTo (k.header 0#7), payload, .written⟩) := by
  simp only [State.memWrite, h, State.writeAs]
  rw [← s.atBus_devAddr, State.afterWrite_own, s.atBus_devAddr, header_own]

/-- A failed one: no cell has changed, unless the peripheral took the write nevertheless. -/
theorem State.memWrite_err {s : State} {e : Byte} {taken : Bool} (h : s.nextTurn.result = .err e taken)
    (k : FrameKind) (payload : List Byte) :
    s.memWrite k payload =
      (.error e, (if taken then s.atBus.setRegs (s.atBus.regs.writeBlock k.reg.toNat payload) else s.atBus).record
        ⟨.block, s.headerTo (k.header 0#7), payload, .failed e⟩) := by
  simp only [State.memWrite, h, State.writeAs]
  rw [← s.atBus_devAddr, State.afterFailedWrite_own, s.atBus_devAddr, header_own]

/-- Everything a read of the block can do. -/
theorem State.memRead_cases (s : State) (k : FrameKind) :
    (∃ e taken, s.nextTurn.result = .err e taken ∧
      s.memRead k = (.error e, s.atBus.record ⟨.block, s.headerTo (k.header 0#7), [], .failed e⟩)) ∨
    (s.nextTurn.result = .ok ∧ s.memRead k =
      (.ok (s.atBus.regs.readBlock k.reg.toNat k.len.toNat),
        s.atBus.record ⟨.block, s.headerTo (k.header 0#7), [],
          .answered (s.atBus.regs.readBlock k.reg.toNat k.len.toNat)⟩)) := by
  cases h : s.nextTurn.result with
  | ok => exact .inr ⟨rfl, State.memRead_ok h k⟩
  | err e taken => exact .inl ⟨e, taken, rfl, State.memRead_err h k⟩

/-- Everything a write of the block can do. -/
theorem State.memWrite_cases (s : State) (k : FrameKind) (payload : List Byte) :
    (∃ e taken, s.nextTurn.result = .err e taken ∧ s.memWrite k payload =
      (.error e, (if taken then s.atBus.setRegs (s.atBus.regs.writeBlock k.reg.toNat payload) else s.atBus).record
        ⟨.block, s.headerTo (k.header 0#7), payload, .failed e⟩)) ∨
    (s.nextTurn.result = .ok ∧ s.memWrite k payload =
      (.ok (), (s.atBus.setRegs (s.atBus.regs.writeBlock k.reg.toNat payload)).record
        ⟨.block, s.headerTo (k.header 0#7), payload, .written⟩)) := by
  cases h : s.nextTurn.result with
  | ok => exact .inr ⟨rfl, State.memWrite_ok h k payload⟩
  | err e taken => exact .inl ⟨e, taken, rfl, State.memWrite_err h k payload⟩

theorem State.answerBytes_length (s : State) (k : FrameKind) (dev : DevAddr) :
    (s.answerBytes k dev).length = k.len.toNat := by
  unfold State.answerBytes
  split <;> simp [State.foreignBytes]

theorem byteAt_readBlock (m : Memory) {reg n i : Nat} (h : i < n) : byteAt (m.readBlock reg n) i = m.read (reg + i) :=
  Memory.getD_readBlock m _ h

theorem wordAt_readBlock (m : Memory) {reg n i : Nat} (h : i + 1 < n) :
    wordAt (m.readBlock reg n) i = m.read16 (reg + i) := by
  simp only [wordAt, Memory.read16, byteAt_readBlock m (show i < n by omega), byteAt_readBlock m h, Nat.add_assoc]

/-! ### The end of an operation -/

@[simp] theorem finish_error {α : Type} (e : Byte) (t : State) (f : α → State → State) :
    finish (.error e, t) f = t.respond (transportErrorRsp e) := rfl

@[simp] theorem finish_ok {α : Type} (v : α) (t : State) (f : α → State → State) : finish (.ok v, t) f = f v t := rfl

/-! ### Read-and-acknowledge -/

@[simp] theorem byteAt_singleton (b : Byte) : byteAt [b] 0 = b := rfl

@[simp] theorem State.afterKeyRead_devAddr (s : State) : s.afterKeyRead.devAddr = s.devAddr := by
  simp [State.afterKeyRead]

theorem State.headerTo_congr {s t : State} (h : s.devAddr = t.devAddr) (base : Word20) :
    s.headerTo base = t.headerTo base := by
  simp [State.headerTo, h]

/-- The read-and-acknowledge in terms of its two transactions: what the second does with a nonzero byte. -/
theorem State.readAndAcknowledge_ok {s : State} (h : s.nextTurn.result = .ok) :
    s.readAndAcknowledge =
      if s.atBus.keyStatus = 0x00#8 then (.ok false, s.afterKeyRead)
      else match s.afterKeyRead.memWrite .wrKeyClr [0x00#8] with
        | (.error e, u) => (.error e, u)
        | (.ok _, u) => (.ok true, u) := by
  simp only [State.readAndAcknowledge, State.memRead_ok h]
  rfl

theorem State.readAndAcknowledge_fails {s u : State} {e : Byte} (h : s.KeyFails e u) :
    s.readAndAcknowledge = (.error e, u) := by
  obtain ⟨taken, ⟨hr, rfl⟩ | ⟨hr, hk, hw, rfl⟩⟩ := h
  · simp only [State.readAndAcknowledge, State.memRead_err hr]
    rfl
  · rw [State.readAndAcknowledge_ok hr, if_neg hk, State.memWrite_err hw,
      State.headerTo_congr s.afterKeyRead_devAddr]
    rfl

theorem State.readAndAcknowledge_idle {s u : State} (h : s.KeyIdle u) : s.readAndAcknowledge = (.ok false, u) := by
  obtain ⟨hr, hk, rfl⟩ := h
  rw [State.readAndAcknowledge_ok hr, if_pos hk]

theorem State.readAndAcknowledge_edge {s u : State} (h : s.KeyEdge u) : s.readAndAcknowledge = (.ok true, u) := by
  obtain ⟨hr, hk, hw, rfl⟩ := h
  rw [State.readAndAcknowledge_ok hr, if_neg hk, State.memWrite_ok hw,
    State.headerTo_congr s.afterKeyRead_devAddr]
  rfl

/-- One of the three always happens. -/
theorem State.key_cases (s : State) : (∃ e u, s.KeyFails e u) ∨ (∃ u, s.KeyIdle u) ∨ (∃ u, s.KeyEdge u) := by
  cases hr : s.nextTurn.result with
  | err e taken => exact .inl ⟨e, _, taken, .inl ⟨hr, rfl⟩⟩
  | ok =>
    by_cases hk : s.atBus.keyStatus = 0x00#8
    · exact .inr (.inl ⟨_, hr, hk, rfl⟩)
    · cases hw : s.afterKeyRead.nextTurn.result with
      | err e taken => exact .inl ⟨e, _, taken, .inr ⟨hr, hk, hw, rfl⟩⟩
      | ok => exact .inr (.inr ⟨_, hr, hk, hw, rfl⟩)

/-! The poll time and the bus are independent. -/

theorem State.afterKeyRead_recordPoll (s : State) (now : Nat) :
    (s.recordPoll now).afterKeyRead = s.afterKeyRead.recordPoll now := by
  simp only [State.afterKeyRead, State.recordPoll_atBus]
  rfl

theorem State.afterKeyClear_recordPoll (s : State) (now : Nat) :
    (s.recordPoll now).afterKeyClear = s.afterKeyClear.recordPoll now := by
  simp only [State.afterKeyClear, State.afterKeyRead_recordPoll, State.recordPoll_atBus]
  rfl

theorem State.afterFailedClear_recordPoll (s : State) (now : Nat) (e : Byte) (taken : Bool) :
    (s.recordPoll now).afterFailedClear e taken = (s.afterFailedClear e taken).recordPoll now := by
  simp only [State.afterFailedClear, State.afterKeyRead_recordPoll, State.recordPoll_atBus]
  cases taken <;> rfl

theorem State.KeyFails.recordPoll {s u : State} {e : Byte} (h : s.KeyFails e u) (now : Nat) :
    (s.recordPoll now).KeyFails e (u.recordPoll now) := by
  obtain ⟨taken, ⟨hr, rfl⟩ | ⟨hr, hk, hw, rfl⟩⟩ := h
  · exact ⟨taken, .inl ⟨hr, by rw [State.recordPoll_atBus]; rfl⟩⟩
  · refine ⟨taken, .inr ⟨hr, ?_, ?_, (s.afterFailedClear_recordPoll now e taken).symm⟩⟩
    · rw [State.recordPoll_atBus]; exact hk
    · rw [State.afterKeyRead_recordPoll]; exact hw

theorem State.KeyIdle.recordPoll {s u : State} (h : s.KeyIdle u) (now : Nat) :
    (s.recordPoll now).KeyIdle (u.recordPoll now) := by
  obtain ⟨hr, hk, rfl⟩ := h
  exact ⟨hr, by rw [State.recordPoll_atBus]; exact hk, (s.afterKeyRead_recordPoll now).symm⟩

theorem State.KeyEdge.recordPoll {s u : State} (h : s.KeyEdge u) (now : Nat) :
    (s.recordPoll now).KeyEdge (u.recordPoll now) := by
  obtain ⟨hr, hk, hw, rfl⟩ := h
  refine ⟨hr, ?_, ?_, (s.afterKeyClear_recordPoll now).symm⟩
  · rw [State.recordPoll_atBus]; exact hk
  · rw [State.afterKeyRead_recordPoll]; exact hw

end Sys2Proof.Machine
end

