-- ==== Sys2Proof/Laws/Poll.lean ====
section
/-! SUPPORT. Steps 3 to 5 of `POLL`, row by row of the table of R134, and everything they can do. -/

namespace Sys2Proof.Machine

/-- UP, no edge. -/
theorem State.debounce_up_idle {s : State} (h : s.isOdd = false) (now : Nat) : s.debounce now false = s := by
  simp [State.debounce, State.countEdge, State.recoverOrNotify, State.stuck, State.downNow, h]

/-- UP, edge: the timeout never fires in the same poll (R137), and the guard of step 5 decides nothing (R138). -/
theorem State.debounce_up_edge {s : State} (h : s.isOdd = false) (now : Nat) :
    s.debounce now true =
      { s with pressCount := s.pressCount + 1, lastEdgeTime := now, lastEdgeValid := true, downPending := true } := by
  obtain ⟨a, b, c, d, e, f, g, i, j, k, l, m, n, o, p, q, r, t, u, v, w, x, y⟩ := s
  cases k <;> simp_all [State.debounce, State.countEdge, State.recoverOrNotify, State.stuck, State.downNow, State.raiseDown]

/-- DOWN, no edge, timeout not run out. -/
theorem State.debounce_down_idle {s : State} {now : Nat} (ht : now ≤ s.lastEdgeTime + s.stuckTimeout) :
    s.debounce now false = s := by
  have : ¬ now > s.lastEdgeTime + s.stuckTimeout := by omega
  simp [State.debounce, State.countEdge, State.recoverOrNotify, State.stuck, State.downNow, this]

/-- DOWN, no edge, timeout run out: forced recovery. -/
theorem State.debounce_down_stuck {s : State} {now : Nat} (h : s.isOdd = true)
    (ht : s.lastEdgeTime + s.stuckTimeout < now) : s.debounce now false = s.forceUp := by
  simp [State.debounce, State.countEdge, State.recoverOrNotify, State.stuck, h, ht]

/-- DOWN, edge, timeout run out or not: genuine release. -/
theorem State.debounce_down_edge {s : State} (h : s.isOdd = true) (now : Nat) :
    s.debounce now true = { s with pressCount := s.pressCount + 1, upPending := true } := by
  have hc : s.countEdge now true = { s with pressCount := s.pressCount + 1, upPending := true } := by
    simp [State.countEdge, h]
  have hs : State.stuck { s with pressCount := s.pressCount + 1, upPending := true } now = false := by
    have := s.isOdd_iff.mp h
    have : (s.pressCount + 1) % 2 = 0 := by omega
    simp [State.stuck, State.isOdd, this]
  simp [State.debounce, hc, State.recoverOrNotify, hs, State.downNow, h]

/-- Everything steps 3 to 5 can do. -/
theorem State.debounce_cases (s : State) (now : Nat) (edge : Bool) :
    (edge = false ∧ s.debounce now edge = s) ∨
    (edge = true ∧ s.isOdd = false ∧ s.debounce now edge =
      { s with pressCount := s.pressCount + 1, lastEdgeTime := now, lastEdgeValid := true, downPending := true }) ∨
    (edge = false ∧ s.isOdd = true ∧ s.lastEdgeTime + s.stuckTimeout < now ∧ s.debounce now edge = s.forceUp) ∨
    (edge = true ∧ s.isOdd = true ∧ s.debounce now edge =
      { s with pressCount := s.pressCount + 1, upPending := true }) := by
  cases edge with
  | false =>
    cases ho : s.isOdd with
    | false => exact .inl ⟨rfl, State.debounce_up_idle ho now⟩
    | true =>
      by_cases ht : s.lastEdgeTime + s.stuckTimeout < now
      · exact .inr (.inr (.inl ⟨rfl, rfl, ht, State.debounce_down_stuck ho ht⟩))
      · exact .inl ⟨rfl, State.debounce_down_idle (by omega)⟩
  | true =>
    cases ho : s.isOdd with
    | false => exact .inr (.inl ⟨rfl, rfl, State.debounce_up_edge ho now⟩)
    | true => exact .inr (.inr (.inr ⟨rfl, rfl, State.debounce_down_edge ho now⟩))

/-- Everything a `POLL` can do (R131, R135): cut short; a transport error after the poll time is written; steps 3
to 5 without and with an edge. -/
theorem execPoll_cases (s : State) :
    (s.rateLimited s.clock = true ∧ execPoll s = .next (s.respond ⟨.ok, false, 0#56⟩)) ∨
    (s.rateLimited s.clock = false ∧
      ((∃ e u, s.KeyFails e u ∧
        execPoll s = .next ((u.recordPoll s.clock).respond (transportErrorRsp e))) ∨
      (∃ u, s.KeyIdle u ∧
        execPoll s = .next (((u.recordPoll s.clock).debounce s.clock false).respond ⟨.ok, false, 0#56⟩)) ∨
      (∃ u, s.KeyEdge u ∧
        execPoll s = .next (((u.recordPoll s.clock).debounce s.clock true).respond ⟨.ok, false, 0#56⟩)))) := by
  cases hl : s.rateLimited s.clock with
  | true => exact .inl ⟨rfl, by simp [execPoll, hl, okRsp]⟩
  | false =>
    refine .inr ⟨rfl, ?_⟩
    rcases s.key_cases with ⟨e, u, h⟩ | ⟨u, h⟩ | ⟨u, h⟩
    · exact .inl ⟨e, u, h, by simp [execPoll, hl, State.readAndAcknowledge_fails (h.recordPoll _)]⟩
    · exact .inr (.inl ⟨u, h, by simp [execPoll, hl, State.readAndAcknowledge_idle (h.recordPoll _), okRsp]⟩)
    · exact .inr (.inr ⟨u, h, by simp [execPoll, hl, State.readAndAcknowledge_edge (h.recordPoll _), okRsp]⟩)

/-- What the key read leaves of the state: only cells, clock, environment's ports and the bus record have moved. -/
theorem State.KeyFails.block {s u : State} {e : Byte} (h : s.KeyFails e u) :
    SameConfig s u ∧ SameDebounce s u ∧ SameCache s u ∧ u.agenda = s.agenda ∧ u.responses = s.responses := by
  obtain ⟨taken, ⟨_, rfl⟩ | ⟨_, _, _, rfl⟩⟩ := h
  · simp [SameConfig, SameDebounce, SameCache]
  · cases taken <;>
      simp [SameConfig, SameDebounce, SameCache, State.afterFailedClear, State.afterKeyRead, State.clearKey]

theorem State.KeyIdle.block {s u : State} (h : s.KeyIdle u) :
    SameConfig s u ∧ SameDebounce s u ∧ SameCache s u ∧ u.agenda = s.agenda ∧ u.responses = s.responses := by
  obtain ⟨_, _, rfl⟩ := h
  simp [SameConfig, SameDebounce, SameCache, State.afterKeyRead]

theorem State.KeyEdge.block {s u : State} (h : s.KeyEdge u) :
    SameConfig s u ∧ SameDebounce s u ∧ SameCache s u ∧ u.agenda = s.agenda ∧ u.responses = s.responses := by
  obtain ⟨_, _, _, rfl⟩ := h
  simp [SameConfig, SameDebounce, SameCache, State.afterKeyRead, State.afterKeyClear, State.clearKey]

end Sys2Proof.Machine
end

