-- ==== Sys2Proof/Laws/Step.lean ====
section
/-! SUPPORT. What `exec` and `step` can do, said once: every instruction answers a next state, a property that the
shared operations keep is kept by every instruction, and every next state of a step comes from one agent's turn. -/

namespace Sys2Proof.Machine

/-- The operations that touch neither the bus nor the timestamps, and the results of the others, in one form: `exec`
always answers a next state. -/
theorem exec_next (i : Instr) (s : State) : ∃ t, exec i s = .next t := by
  cases i <;> exact ⟨_, rfl⟩

/-- What a property needs so that every instruction and every event keeps it, as long as the environment makes only
the moves `M`. -/
structure Kept (P : State → Prop) (legal : Bool) (M : EnvMove → Prop) : Prop where
  respond : ∀ s r, P s → P (s.respond r)
  record : ∀ s t, P s → P (s.record t)
  drop : ∀ s, P s → P s.dropTurn
  move : ∀ s m, M m → P s → P (s.applyMove m)
  answer : ∀ s k dev, P s → P (s.afterAnswer k dev)
  wrCnt : ∀ s dev v, (legal = true → v.toNat ≤ Config.counterMax) → P s → P (s.afterWrite .wrCnt dev (counterBytes v))
  wrGain : ∀ s dev (b : Byte), (legal = true → Config.gainMin ≤ b.toNat ∧ b.toNat ≤ Config.gainMax) → P s →
    P (s.afterWrite .wrGain dev [b])
  wrKeyClr : ∀ s dev, P s → P (s.afterWrite .wrKeyClr dev [0x00#8])
  cache : ∀ s bytes, P s → P (s.cacheInfo bytes)
  poll : ∀ s now, s.rateLimited now = false → P s → P (s.recordPoll now)
  debounce : ∀ s edge, s.lastPollValid = true → P s → P (s.debounce s.lastPollTime edge)
  take : ∀ s, P s → P s.clearDown

section
variable {P : State → Prop} {legal : Bool} {M : EnvMove → Prop}

theorem Kept.readAs (h : Kept P legal M) {s : State} (hs : P s) (m : Master) (k : FrameKind) (dev : DevAddr)
    (r : BusResult) : P (s.readAs m k dev r).2 := by
  cases r with
  | ok => exact h.record _ _ (h.answer _ _ _ hs)
  | err e taken => exact h.record _ _ hs

theorem Kept.writeAs (h : Kept P legal M) {s : State} (hs : P s) {m : Master} {k : FrameKind} {dev : DevAddr}
    {payload : List Byte} (hw : ∀ s, P s → P (s.afterWrite k dev payload)) (r : BusResult) :
    P (s.writeAs m k dev payload r).2 := by
  cases r with
  | ok => exact h.record _ _ (hw _ hs)
  | err e taken => cases taken <;> exact h.record _ _ (by first | exact hs | exact hw _ hs)

theorem Kept.foreignFrame (h : Kept P legal M) {s : State} (hs : P s) {k : FrameKind} {dev : DevAddr}
    {payload : List Byte} (hw : k.isWrite = true → ∀ s, P s → P (s.afterWrite k dev payload)) (r : BusResult) :
    P (s.foreignFrame k dev payload r) := by
  unfold State.foreignFrame
  split
  · next hk => exact h.writeAs hs (hw hk) r
  · exact h.readAs hs _ _ _ r

theorem Kept.applyEvent (h : Kept P legal M) {s : State} (hs : P s) {e : BusEvent} (he : legal = true → e.Legal)
    (hm : ∀ m, e = .move m → M m) : P (s.applyEvent e) := by
  cases e with
  | move m => exact h.move _ m (hm m rfl) hs
  | frame k dev v r =>
    refine h.foreignFrame hs (fun hk s hs => ?_) r
    cases k <;> first | (cases hk; done) | skip
    · exact h.wrCnt s dev v he hs
    · exact h.wrKeyClr s dev hs
    · exact h.wrGain s dev _ he hs

theorem Kept.atBus (h : Kept P legal M) {s : State} (hs : P s) (hl : legal = true → s.nextTurn.Legal)
    (hm : ∀ m, .move m ∈ s.nextTurn.events → M m) : P s.atBus :=
  State.environment_keeps (P := P)
    (fun _ e he hs => h.applyEvent hs (fun hlegal => hl hlegal e he) fun m hem => hm m (hem ▸ he)) (h.drop _ hs)

theorem Kept.memRead (h : Kept P legal M) {s : State} (hs : P s) (hl : legal = true → s.nextTurn.Legal)
    (hm : ∀ m, .move m ∈ s.nextTurn.events → M m) (k : FrameKind) : P (s.memRead k).2 :=
  h.readAs (h.atBus hs hl hm) _ _ _ _

theorem Kept.memWrite (h : Kept P legal M) {s : State} (hs : P s) (hl : legal = true → s.nextTurn.Legal)
    (hm : ∀ m, .move m ∈ s.nextTurn.events → M m) {k : FrameKind} {payload : List Byte}
    (hw : ∀ s dev, P s → P (s.afterWrite k dev payload)) : P (s.memWrite k payload).2 :=
  h.writeAs (h.atBus hs hl hm) (fun s hs => hw s _ hs) _

theorem Kept.busFrame (h : Kept P legal M) {s : State} (hs : P s) (hl : legal = true → s.nextTurn.Legal)
    (hm : ∀ m, .move m ∈ s.nextTurn.events → M m) {k : FrameKind} {dev : DevAddr} {payload : List Byte}
    (hw : k.isWrite = true → ∀ s, P s → P (s.afterWrite k dev payload)) : P (s.busFrame k dev payload) :=
  h.foreignFrame (h.atBus hs hl hm) hw _

theorem Kept.finish (h : Kept P legal M) {α : Type} {r : Except Byte α × State} {f : α → State → State} (hr : P r.2)
    (hf : ∀ v t, P t → P (f v t)) : P (finish r f) := by
  obtain ⟨_ | v, t⟩ := r
  · exact h.respond _ _ hr
  · exact hf _ _ hr

/-- What happens before the second transaction of an operation is what `LegalTraffic` says. -/
theorem State.memRead_nextTurn (s : State) (k : FrameKind) : (s.memRead k).2.nextTurn = s.atBus.nextTurn := by
  rcases s.memRead_cases k with ⟨e, taken, _, hm⟩ | ⟨_, hm⟩ <;> rw [hm] <;> rfl

theorem Kept.readAndAcknowledge (h : Kept P legal M) {s : State} (hs : P s) (hl : legal = true → s.LegalTraffic)
    (hm : ∀ m, s.MayMove m → M m) : P s.readAndAcknowledge.2 := by
  have hread := h.memRead hs (fun hlegal => (hl hlegal).1) (fun m h => hm m (.inl h)) .rdKey
  have hnext := s.memRead_nextTurn .rdKey
  unfold State.readAndAcknowledge
  split
  · next ht => rw [ht] at hread; exact hread
  · next bytes t ht =>
    rw [ht] at hread hnext
    split
    · exact hread
    · have hwrite := h.memWrite hread (fun hlegal => hnext ▸ (hl hlegal).2)
        (fun m h => hm m (.inr (hnext ▸ h))) (k := .wrKeyClr) (payload := [0x00#8]) fun s dev hs => h.wrKeyClr s dev hs
      split <;> next hu => rw [hu] at hwrite; exact hwrite

/-- A property that the shared operations keep is kept by every instruction. `legal` may say that the payloads written
are in range, for the instructions whose own payload is. -/
theorem Kept.exec (h : Kept P legal M) {i : Instr} (hi : legal = true → i.wellFormed = true) {s t : State}
    (hb : legal = true → s.LegalTraffic) (hm : ∀ m, s.MayMove m → M m) (hs : P s) (ht : exec i s = .next t) :
    P t := by
  have hm1 : ∀ m, .move m ∈ s.nextTurn.events → M m := fun m h => hm m (.inl h)
  have hl : legal = true → s.nextTurn.Legal := fun hlegal => (hb hlegal).1
  cases i
  case identify | readCounter | readGain | encoderAsFraction =>
    cases ht; exact h.finish (h.memRead hs hl hm1 _) fun _ _ hu => h.respond _ _ hu
  case readInfo => cases ht; exact h.finish (h.memRead hs hl hm1 _) fun _ _ hu => h.respond _ _ (h.cache _ _ hu)
  case writeCounter v =>
    cases ht
    show P (if _ then _ else _)
    split
    · next hv =>
      exact h.finish (h.memWrite hs hl hm1 fun s dev hs => h.wrCnt s dev v (fun _ => of_decide_eq_true hv) hs) fun _ _ hu =>
        h.respond _ _ hu
    · exact h.respond _ _ hs
  case writeGain v =>
    cases ht
    show P (if _ then _ else _)
    split
    · next hv =>
      have hv' : Config.gainMin ≤ (lo8 v).toNat ∧ (lo8 v).toNat ≤ Config.gainMax := by
        have hv' := (gainInRange_iff v).mp hv
        rw [lo8_toNat, Config.gainMin, Config.gainMax]
        omega
      exact h.finish (h.memWrite hs hl hm1 fun s dev hs => h.wrGain s dev _ (fun _ => hv') hs) fun _ _ hu => h.respond _ _ hu
    · exact h.respond _ _ hs
  case readKeyStatus => cases ht; exact h.finish (h.readAndAcknowledge hs hb hm) fun _ _ hu => h.respond _ _ hu
  case poll =>
    rcases execPoll_cases s with ⟨_, hp⟩ | ⟨hl, hp⟩
    · cases hp.symm.trans ht; exact h.respond _ _ hs
    · have hrec := h.poll _ _ hl hs
      have hack := h.readAndAcknowledge hrec
        (fun hlegal => by
          simpa only [State.LegalTraffic, State.recordPoll_atBus, State.recordPoll_nextTurn] using hb hlegal)
        (by simpa only [State.MayMove, State.recordPoll_atBus, State.recordPoll_nextTurn] using hm)
      have hdeb : ∀ (u : State) edge, P (u.recordPoll s.clock) → P ((u.recordPoll s.clock).debounce s.clock edge) :=
        fun u edge hu => h.debounce (u.recordPoll s.clock) edge rfl hu
      rcases hp with ⟨e, u, hk, hp⟩ | ⟨u, hk, hp⟩ | ⟨u, hk, hp⟩ <;> cases hp.symm.trans ht
      · rw [State.readAndAcknowledge_fails (hk.recordPoll _)] at hack; exact h.respond _ _ hack
      · rw [State.readAndAcknowledge_idle (hk.recordPoll _)] at hack; exact h.respond _ _ (hdeb _ _ hack)
      · rw [State.readAndAcknowledge_edge (hk.recordPoll _)] at hack; exact h.respond _ _ (hdeb _ _ hack)
  case takeDownPending =>
    cases ht
    refine h.respond _ _ ?_
    split
    · exact h.take _ hs
    · exact hs
  case isDown => cases ht; exact h.respond _ _ hs
  case rdPid | rdInfo | rdCnt | rdKey | rdGain => cases ht; exact h.busFrame hs hl hm1 fun hk => by cases hk
  case wrCnt dev v =>
    cases ht
    exact h.busFrame hs hl hm1 fun _ s hs => h.wrCnt s _ v (fun hlegal => by
      have := hi hlegal
      simp only [Instr.wellFormed, Bool.and_eq_true, decide_eq_true_eq] at this
      exact this.2) hs
  case wrKeyClr => cases ht; exact h.busFrame hs hl hm1 fun _ s hs => h.wrKeyClr s _ hs
  case wrGain dev b =>
    cases ht
    exact h.busFrame hs hl hm1 fun _ s hs => h.wrGain s _ b (fun hlegal => by
      have := hi hlegal
      simp only [Instr.wellFormed, Bool.and_eq_true, decide_eq_true_eq] at this
      exact ⟨this.1.2, this.2⟩) hs

end

/-! ### Steps -/

/-- Where a next state of a step comes from. -/
theorem step_cases {s t : State} (h : step s = .next t) :
    (s.agenda = [] ∧ t = s) ∨
    ∃ turn rest, s.agenda = turn :: rest ∧
      ((∃ w i, turn = .caller w ∧ decodeCmd w = .ok i ∧ callerVisible i = true ∧
        exec i (s.withAgenda rest) = .next t) ∨
      (∃ w, turn = .caller w ∧ t = (s.withAgenda rest).illegalCommand) ∨
      (∃ w i, turn = .internal w ∧ decodeCmd w = .ok i ∧ internalOnly i = true ∧
        exec i (s.withAgenda rest) = .next t) ∨
      (∃ w, turn = .internal w ∧ t = (s.withAgenda rest).illegalCommand) ∨
      (∃ hd p i, turn = .bus hd p ∧ decodeFrame hd p = .ok i ∧ exec i (s.withAgenda rest) = .next t) ∨
      (∃ m, turn = .env m ∧ t = (s.withAgenda rest).applyMove m) ∨
      (∃ d g pi st, turn = .construct d g pi st ∧ construct d g pi st (s.withAgenda rest) = .next t)) := by
  unfold step fetch at h
  cases ha : s.agenda with
  | nil => simp only [ha] at h; cases h; exact .inl ⟨rfl, rfl⟩
  | cons turn rest =>
    refine .inr ⟨turn, rest, rfl, ?_⟩
    simp only [ha, takeTurn] at h
    cases turn with
    | caller w =>
      simp only [fetchCmd] at h
      cases hd : decodeCmd w with
      | error r => simp only [hd] at h; cases h; exact .inr (.inl ⟨w, rfl, rfl⟩)
      | ok i =>
        simp only [hd] at h
        cases hc : callerVisible i with
        | true => simp only [hc, if_true] at h; exact .inl ⟨w, i, rfl, hd, hc, h⟩
        | false =>
          simp only [hc, Bool.false_eq_true, if_false] at h
          cases h; exact .inr (.inl ⟨w, rfl, rfl⟩)
    | internal w =>
      simp only [fetchCmd] at h
      cases hd : decodeCmd w with
      | error r => simp only [hd] at h; cases h; exact .inr (.inr (.inr (.inl ⟨w, rfl, rfl⟩)))
      | ok i =>
        simp only [hd] at h
        cases hc : internalOnly i with
        | true => simp only [hc, if_true] at h; exact .inr (.inr (.inl ⟨w, i, rfl, hd, hc, h⟩))
        | false =>
          simp only [hc, Bool.false_eq_true, if_false] at h
          cases h; exact .inr (.inr (.inr (.inl ⟨w, rfl, rfl⟩)))
    | bus hd p =>
      simp only [fetchFrame] at h
      cases hi : decodeFrame hd p with
      | ok i => simp only [hi] at h; exact .inr (.inr (.inr (.inr (.inl ⟨hd, p, i, rfl, hi, h⟩))))
      | error r => cases r <;> simp only [hi] at h <;> cases h
    | env m => cases h; exact .inr (.inr (.inr (.inr (.inr (.inl ⟨m, rfl, rfl⟩)))))
    | construct d g pi st => exact .inr (.inr (.inr (.inr (.inr (.inr ⟨d, g, pi, st, rfl, h⟩)))))

/-- Everything a construction that is accepted leaves (R191). -/
theorem construct_next {d : Nat} {g : Byte} {pi st : Option Nat} {s t : State} (h : construct d g pi st s = .next t) :
    1 ≤ d ∧ d ≤ 127 ∧ t.devAddr = BitVec.ofNat 7 d ∧ t.gainInit = g ∧
      t.pollInterval = pi.getD Config.defaultPollInterval ∧ t.stuckTimeout = st.getD Config.defaultStuckTimeout ∧
      t.pressCount = 0 ∧ t.lastPollValid = false ∧ t.lastEdgeValid = false ∧ t.downPending = false ∧
      t.upPending = false ∧ t.infoValid = false ∧ SameOutside s t := by
  unfold construct at h
  split at h
  · next hd =>
    cases h
    exact ⟨hd.1, hd.2, rfl, rfl, rfl, rfl, rfl, rfl, rfl, rfl, rfl, rfl, rfl, rfl, rfl, rfl, rfl, rfl, rfl⟩
  · cases h

/-- A property that the shared operations, a construction and a shorter agenda keep is kept by every step; `legal` as
in `Kept.exec`. -/
theorem step_keeps {P : State → Prop} {legal : Bool} {M : EnvMove → Prop} (hk : Kept P legal M)
    (ha : ∀ s rest, P s → P (s.withAgenda rest))
    (hc : ∀ s d g pi st t, construct d g pi st s = .next t → P s → P t) {s t : State}
    (hl : legal = true → s.LegalTraffic ∧ ∀ turn rest, s.agenda = turn :: rest → turn.Legal)
    (hm : ∀ m, s.StepMayMove m → M m) (hs : P s) (h : step s = .next t) : P t := by
  rcases step_cases h with ⟨_, rfl⟩ | ⟨turn, rest, hag, hturn⟩
  · exact hs
  · have hs' := ha s rest hs
    have hb : legal = true → (s.withAgenda rest).LegalTraffic := fun hlegal => by
      simpa only [State.LegalTraffic, State.withAgenda_atBus, State.withAgenda_nextTurn] using (hl hlegal).1
    have may : ∀ m, (s.withAgenda rest).MayMove m → s.MayMove m := fun m => by
      simp only [State.MayMove, State.withAgenda_atBus, State.withAgenda_nextTurn, imp_self]
    simp only [State.StepMayMove, hag] at hm
    have cmd : ∀ w i, decodeCmd w = .ok i → i.wellFormed = true := by
      intro w i hi
      simp only [decodeCmd] at hi
      split at hi <;> first | (cases hi; rfl) | cases hi
    rcases hturn with ⟨w, i, rfl, hd, _, he⟩ | ⟨w, rfl, rfl⟩ | ⟨w, i, rfl, hd, _, he⟩ | ⟨w, rfl, rfl⟩ |
      ⟨hd, p, i, rfl, hi, he⟩ | ⟨m, rfl, rfl⟩ | ⟨d, g, pi, st, rfl, he⟩
    · exact hk.exec (fun _ => cmd w i hd) hb (fun m h => hm m (may m h)) hs' he
    · exact hk.respond _ _ hs'
    · exact hk.exec (fun _ => cmd w i hd) hb (fun m h => hm m (may m h)) hs' he
    · exact hk.respond _ _ hs'
    · exact hk.exec (fun hlegal => (hl hlegal).2 _ _ hag i hi) hb (fun m h => hm m (may m h)) hs' he
    · exact hk.move _ _ (hm m rfl) hs'
    · exact hc _ _ _ _ _ _ he hs'

/-! ### Runs -/

/-- A run of one step more: a step, and the run from what it leaves. -/
theorem run_next {M : Host.Core} {k : Nat} {s t : M.State} (h : M.run (k + 1) s = .next t) :
    ∃ u, M.step s = .next u ∧ M.run k u = .next t := by
  have h' : (match M.step s with
      | .next s' => M.run k s'
      | .fault r => .fault r
      | .refused r => .refused r) = Host.Outcome.next t := h
  cases hs : M.step s with
  | next u => rw [hs] at h'; exact ⟨u, rfl, h'⟩
  | fault r => rw [hs] at h'; cases h'
  | refused r => rw [hs] at h'; cases h'

end Sys2Proof.Machine
end

