-- ==== Sys2Proof/Laws/Forgets.lean ====
section
/-! SUPPORT. State that nothing else depends on: a projection that commutes with the shared operations commutes with
every instruction and every step. -/

namespace Sys2Proof.Machine

/-- What a projection `p` of the state needs so that the outcome of every instruction and every step, seen through `p`,
depends only on what `p` keeps. -/
structure Forgets (p : State → State) : Prop extends BusIndependent p where
  idem : ∀ s, p (p s) = p s
  respond : ∀ s r, p (s.respond r) = (p s).respond r
  devAddr : ∀ s, (p s).devAddr = s.devAddr
  clock : ∀ s, (p s).clock = s.clock
  cache : ∀ s b, p (s.cacheInfo b) = p ((p s).cacheInfo b)
  limited : ∀ s now, (p s).rateLimited now = s.rateLimited now
  poll : ∀ s now, p (s.recordPoll now) = (p s).recordPoll now
  debounce : ∀ s now e, p (s.debounce now e) = p ((p s).debounce now e)
  down : ∀ s, (p s).downPending = s.downPending
  take : ∀ s, p s.clearDown = (p s).clearDown
  odd : ∀ s, (p s).isOdd = s.isOdd
  withAgenda : ∀ s rest, p (s.withAgenda rest) = (p s).withAgenda rest
  agenda : ∀ s, (p s).agenda = s.agenda
  construct : ∀ d g pi st s, construct d g pi st (p s) = construct d g pi st s ∨
    ∃ t u, construct d g pi st (p s) = .next t ∧ construct d g pi st s = .next u ∧ p t = p u

/-- The outcomes agree in everything `p` keeps. -/
abbrev SameUpTo (p : State → State) : Result State → Result State → Prop := OutcomesRelated fun a b => p a = p b

variable {p : State → State}

theorem Forgets.memRead_eq (h : Forgets p) (s : State) (k : FrameKind) :
    (p s).memRead k = ((s.memRead k).1, p (s.memRead k).2) := by
  simp only [State.memRead, h.nextTurn, h.devAddr, ← h.atBus, h.readAs]

theorem Forgets.memWrite_eq (h : Forgets p) (s : State) (k : FrameKind) (b : List Byte) :
    (p s).memWrite k b = ((s.memWrite k b).1, p (s.memWrite k b).2) := by
  simp only [State.memWrite, h.nextTurn, h.devAddr, ← h.atBus, h.writeAs]

theorem Forgets.busFrame_eq (h : Forgets p) (s : State) (k : FrameKind) (dev : DevAddr) (b : List Byte) :
    p (s.busFrame k dev b) = (p s).busFrame k dev b := by
  simp only [State.busFrame, h.nextTurn, ← h.atBus, h.foreignFrame]

theorem Forgets.readAndAcknowledge_eq (h : Forgets p) (s : State) :
    (p s).readAndAcknowledge = (s.readAndAcknowledge.1, p s.readAndAcknowledge.2) := by
  unfold State.readAndAcknowledge
  rw [h.memRead_eq]
  obtain ⟨_ | bytes, t⟩ := s.memRead .rdKey
  · rfl
  · simp only
    split
    · rfl
    · rw [h.memWrite_eq]
      obtain ⟨_ | _, u⟩ := t.memWrite .wrKeyClr [0x00#8] <;> rfl

theorem Forgets.finish_eq (h : Forgets p) {α : Type} (r : Except Byte α × State) (f g : α → State → State)
    (hf : ∀ v t, p (f v t) = p (g v (p t))) : p (finish r f) = p (finish (r.1, p r.2) g) := by
  obtain ⟨_ | v, t⟩ := r
  · simp only [finish_error, h.respond, h.idem]
  · exact hf v t

/-- An instruction does not see what `p` forgets. -/
theorem Forgets.exec_eq (h : Forgets p) (i : Instr) (s : State) : SameUpTo p (exec i s) (exec i (p s)) := by
  have resp : ∀ r t, p (t.respond r) = p ((p t).respond r) := fun r t => by rw [h.respond, h.respond, h.idem]
  cases i
  case identify | readCounter | readGain | encoderAsFraction =>
    show p _ = p (finish ((p s).memRead _) _)
    rw [h.memRead_eq]; exact h.finish_eq _ _ _ fun v t => resp _ t
  case readInfo =>
    show p _ = p (finish ((p s).memRead _) _)
    rw [h.memRead_eq]; exact h.finish_eq _ _ _ fun v t => by rw [h.respond, h.cache, ← h.respond]
  case writeCounter v =>
    show p (if _ then _ else _) = p (if _ then finish ((p s).memWrite _ _) _ else _)
    rw [h.memWrite_eq]
    split
    · exact h.finish_eq _ _ _ fun v t => resp _ t
    · exact resp _ s
  case writeGain v =>
    show p (if _ then _ else _) = p (if _ then finish ((p s).memWrite _ _) _ else _)
    rw [h.memWrite_eq]
    split
    · exact h.finish_eq _ _ _ fun v t => resp _ t
    · exact resp _ s
  case readKeyStatus =>
    show p _ = p (finish ((p s).readAndAcknowledge) _)
    rw [h.readAndAcknowledge_eq]; exact h.finish_eq _ _ _ fun v t => resp _ t
  case poll =>
    show p (if _ then _ else finish _ _) = p (if (p s).rateLimited (p s).clock = true then _ else finish ((p s).recordPoll (p s).clock).readAndAcknowledge _)
    rw [h.clock, h.limited, ← h.poll, h.readAndAcknowledge_eq]
    split
    · exact resp _ s
    · exact h.finish_eq _ _ _ fun v t => by rw [h.respond, h.debounce, ← h.respond]
  case takeDownPending =>
    show p (State.respond (if _ then _ else _) _) = p (State.respond (if (p s).downPending = true then _ else _) _)
    rw [h.down]
    split
    · rw [← h.take]; exact resp _ _
    · exact resp _ s
  case isDown =>
    show p _ = p ((p s).respond (okRsp (p s).isOdd _))
    rw [h.odd]; exact resp _ s
  case rdPid | rdInfo | rdCnt | rdKey | rdGain | wrCnt | wrKeyClr | wrGain =>
    show p (s.busFrame _ _ _) = p ((p s).busFrame _ _ _)
    rw [← h.busFrame_eq, h.idem]

/-- A step does not see what `p` forgets. -/
theorem Forgets.step_eq (h : Forgets p) (s : State) : SameUpTo p (step s) (step (p s)) := by
  have refl : ∀ o, SameUpTo p o o := fun o => by cases o <;> simp [SameUpTo, OutcomesRelated]
  unfold step fetch
  rw [h.agenda]
  cases s.agenda with
  | nil => exact (h.idem s).symm
  | cons turn rest =>
    have cmd : ∀ acc w, SameUpTo p (match fetchCmd acc w (s.withAgenda rest) with | .run i t => exec i t | .ended o => o)
        (match fetchCmd acc w ((p s).withAgenda rest) with | .run i t => exec i t | .ended o => o) := by
      intro acc w
      unfold fetchCmd
      cases decodeCmd w with
      | error r => show p _ = p _; rw [← h.withAgenda]; simp only [State.illegalCommand, h.respond, h.idem]
      | ok i =>
        cases ha : acc i
        case true => simp only [ha, if_true]; rw [← h.withAgenda]; exact h.exec_eq i _
        case false =>
          simp only [ha, Bool.false_eq_true, if_false]
          show p _ = p _; rw [← h.withAgenda]; simp only [State.illegalCommand, h.respond, h.idem]
    cases turn with
    | caller w => exact cmd _ w
    | internal w => exact cmd _ w
    | bus hd payload =>
      simp only [takeTurn, fetchFrame]
      cases decodeFrame hd payload with
      | ok i => simp only; rw [← h.withAgenda]; exact h.exec_eq i _
      | error r => cases r <;> exact refl _
    | env m => show p _ = p _; rw [← h.withAgenda, ← h.move, h.idem]
    | construct d g pi st =>
      simp only [takeTurn]
      rw [← h.withAgenda]
      rcases h.construct d g pi st (s.withAgenda rest) with e | ⟨t, u, e1, e2, e3⟩
      · rw [e]; exact refl _
      · rw [e1, e2]; exact e3.symm

end Sys2Proof.Machine
end

