-- ==== Sys2Proof/Laws/PerInstr.lean ====
section
/-! SUPPORT. Statements about every instruction as syntax, one lemma for each constructor.

`TableRow`: the first word of an instruction's encoding has the fixed bits of its row of spec/opcode_table.json, and
the number of its payload bytes is that of its row (R72, R76). -/

namespace Sys2Proof.Laws.TableRow

/-- The first word of a packet. -/
def firstWord : Packet → Word20
  | .cmd word => word
  | .frame header _ => header

/-- The payload bytes of a packet. -/
def payload : Packet → List Byte
  | .cmd _ => []
  | .frame _ bytes => bytes

/-- `mask` and `match` of the instruction's row, and how many payload bytes follow. -/
def row : Instr → Word20 × Word20 × Nat
  | .identify _ => (0xF0000#20, 0x00000#20, 0)
  | .readInfo _ => (0xF0000#20, 0x10000#20, 0)
  | .readCounter _ => (0xF0000#20, 0x20000#20, 0)
  | .writeCounter _ => (0xF0000#20, 0x30000#20, 0)
  | .readGain _ => (0xF0000#20, 0x40000#20, 0)
  | .writeGain _ => (0xF0000#20, 0x50000#20, 0)
  | .readKeyStatus _ => (0xF0000#20, 0x60000#20, 0)
  | .encoderAsFraction _ => (0xF0000#20, 0x70000#20, 0)
  | .poll _ => (0xF0000#20, 0x80000#20, 0)
  | .takeDownPending _ => (0xF0000#20, 0x90000#20, 0)
  | .isDown _ => (0xF0000#20, 0xA0000#20, 0)
  | .rdPid _ => (0x80FFF#20, 0x00002#20, 0)
  | .rdInfo _ => (0x80FFF#20, 0x00008#20, 0)
  | .rdCnt _ => (0x80FFF#20, 0x00082#20, 0)
  | .wrCnt _ _ => (0x80FFF#20, 0x80082#20, 2)
  | .rdKey _ => (0x80FFF#20, 0x000A1#20, 0)
  | .wrKeyClr _ => (0x80FFF#20, 0x800A1#20, 1)
  | .rdGain _ => (0x80FFF#20, 0x000B1#20, 0)
  | .wrGain _ _ => (0x80FFF#20, 0x800B1#20, 1)

/-- The statement of the family. -/
def Statement (i : Instr) : Prop :=
  firstWord (encode i) &&& (row i).1 = (row i).2.1 ∧ (payload (encode i)).length = (row i).2.2

/-- The `op` of a CMD word is what the mask 0xF0000 leaves. -/
theorem cmd_bits (op : BitVec 4) (arg : U16) : cmdWord op arg &&& 0xF0000#20 = cmdWord op 0#16 := by
  have h : (0xF0000#20 : Word20) = 0xF#4 ++ 0#16 := by decide
  rw [cmdWord, h, BitVec.and_append, BitVec.and_zero, show op &&& 0xF#4 = op from by revert op; decide]
  rfl

/-- What the mask 0x80FFF leaves of a header. -/
theorem frame_bits (k : FrameKind) (dev : DevAddr) : k.header dev &&& 0x80FFF#20 = k.header 0#7 := by
  revert dev; cases k <;> decide

theorem identify (arg : U16) : Statement (.identify arg) := ⟨cmd_bits 0x0#4 arg, rfl⟩
theorem readInfo (arg : U16) : Statement (.readInfo arg) := ⟨cmd_bits 0x1#4 arg, rfl⟩
theorem readCounter (arg : U16) : Statement (.readCounter arg) := ⟨cmd_bits 0x2#4 arg, rfl⟩
theorem writeCounter (value : U16) : Statement (.writeCounter value) := ⟨cmd_bits 0x3#4 value, rfl⟩
theorem readGain (arg : U16) : Statement (.readGain arg) := ⟨cmd_bits 0x4#4 arg, rfl⟩
theorem writeGain (value : U16) : Statement (.writeGain value) := ⟨cmd_bits 0x5#4 value, rfl⟩
theorem readKeyStatus (arg : U16) : Statement (.readKeyStatus arg) := ⟨cmd_bits 0x6#4 arg, rfl⟩
theorem encoderAsFraction (arg : U16) : Statement (.encoderAsFraction arg) := ⟨cmd_bits 0x7#4 arg, rfl⟩
theorem poll (arg : U16) : Statement (.poll arg) := ⟨cmd_bits 0x8#4 arg, rfl⟩
theorem takeDownPending (arg : U16) : Statement (.takeDownPending arg) := ⟨cmd_bits 0x9#4 arg, rfl⟩
theorem isDown (arg : U16) : Statement (.isDown arg) := ⟨cmd_bits 0xA#4 arg, rfl⟩
theorem rdPid (dev : DevAddr) : Statement (.rdPid dev) := ⟨(frame_bits .rdPid dev).trans header0_rdPid, rfl⟩
theorem rdInfo (dev : DevAddr) : Statement (.rdInfo dev) := ⟨(frame_bits .rdInfo dev).trans header0_rdInfo, rfl⟩
theorem rdCnt (dev : DevAddr) : Statement (.rdCnt dev) := ⟨(frame_bits .rdCnt dev).trans header0_rdCnt, rfl⟩
theorem wrCnt (dev : DevAddr) (value : U16) : Statement (.wrCnt dev value) := ⟨(frame_bits .wrCnt dev).trans header0_wrCnt, rfl⟩
theorem rdKey (dev : DevAddr) : Statement (.rdKey dev) := ⟨(frame_bits .rdKey dev).trans header0_rdKey, rfl⟩
theorem wrKeyClr (dev : DevAddr) : Statement (.wrKeyClr dev) := ⟨(frame_bits .wrKeyClr dev).trans header0_wrKeyClr, rfl⟩
theorem rdGain (dev : DevAddr) : Statement (.rdGain dev) := ⟨(frame_bits .rdGain dev).trans header0_rdGain, rfl⟩
theorem wrGain (dev : DevAddr) (value : Byte) : Statement (.wrGain dev value) := ⟨(frame_bits .wrGain dev).trans header0_wrGain, rfl⟩

end Sys2Proof.Laws.TableRow
end

