-- ==== Sys2Proof/Tests/Slice0.lean ====
section
/-! SUPPORT. The model's own tests: ill-formed terms refused; every constructor decoded from a word written out from
the spec's encodings; single steps with the expected results of spec/95_test_vectors.md; and, for every obligation with
hypotheses, a witness that meets them. -/

namespace Sys2Proof.Tests

open Sys2Proof.Machine

/-! ### Well-formedness: each check refuses an ill-formed term -/

theorem test_wellFormed_dev_zero : [Instr.rdPid 0, .rdInfo 0, .rdCnt 0, .wrCnt 0 7, .rdKey 0, .wrKeyClr 0, .rdGain 0,
    .wrGain 0 7].all (fun i => !i.wellFormed) = true := by decide
theorem test_wellFormed_counter_high : (Instr.wrCnt 0x54 1024).wellFormed = false := by decide
theorem test_wellFormed_gain_low : (Instr.wrGain 0x54 0).wellFormed = false := by decide
theorem test_wellFormed_gain_high : (Instr.wrGain 0x54 52).wellFormed = false := by decide
theorem test_wellFormed_bounds : (Instr.wrCnt 1 1023).wellFormed = true ∧ (Instr.wrGain 127 1).wellFormed = true ∧
    (Instr.wrGain 127 51).wellFormed = true := by decide

/-! ### Decoding. CMD words: 4 bits of R72, 16 bits of `arg` (R71). BUS headers: bit 19 `dir`, seven bits 1010100 of
the sample address 0x54, eight bits of register, four of length (R75, R76). -/

theorem test_decode_identify : decode (.cmd 0b0000_0000000000000000#20) = .ok (.identify 0) := by decide
theorem test_decode_readInfo : decode (.cmd 0b0001_0000000000000001#20) = .ok (.readInfo 1) := by decide
theorem test_decode_readCounter : decode (.cmd 0b0010_1000000000000000#20) = .ok (.readCounter 0x8000) := by decide
theorem test_decode_writeCounter : decode (.cmd 0b0011_0000001000000000#20) = .ok (.writeCounter 512) := by decide
theorem test_decode_readGain : decode (.cmd 0b0100_0000000000000000#20) = .ok (.readGain 0) := by decide
theorem test_decode_writeGain : decode (.cmd 0b0101_0000000000110011#20) = .ok (.writeGain 51) := by decide
theorem test_decode_readKeyStatus : decode (.cmd 0b0110_0000000000000000#20) = .ok (.readKeyStatus 0) := by decide
theorem test_decode_encoderAsFraction :
    decode (.cmd 0b0111_0000000000000000#20) = .ok (.encoderAsFraction 0) := by decide
theorem test_decode_poll : decode (.cmd 0b1000_1111111111111111#20) = .ok (.poll 0xFFFF) := by decide
theorem test_decode_takeDownPending :
    decode (.cmd 0b1001_0000000000000000#20) = .ok (.takeDownPending 0) := by decide
theorem test_decode_isDown : decode (.cmd 0b1010_0001001000110100#20) = .ok (.isDown 0x1234) := by decide
theorem test_decode_rdPid : decode (.frame 0b0_1010100_00000000_0010#20 []) = .ok (.rdPid 0x54) := by decide
theorem test_decode_rdInfo : decode (.frame 0b0_1010100_00000000_1000#20 []) = .ok (.rdInfo 0x54) := by decide
theorem test_decode_rdCnt : decode (.frame 0b0_0000001_00001000_0010#20 []) = .ok (.rdCnt 0x01) := by decide
theorem test_decode_wrCnt :
    decode (.frame 0b1_1010100_00001000_0010#20 [0x03, 0xFF]) = .ok (.wrCnt 0x54 1023) := by decide
theorem test_decode_rdKey : decode (.frame 0b0_1010100_00001010_0001#20 []) = .ok (.rdKey 0x54) := by decide
theorem test_decode_wrKeyClr :
    decode (.frame 0b1_1010100_00001010_0001#20 [0x00]) = .ok (.wrKeyClr 0x54) := by decide
theorem test_decode_rdGain : decode (.frame 0b0_1111111_00001011_0001#20 []) = .ok (.rdGain 0x7F) := by decide
theorem test_decode_wrGain :
    decode (.frame 0b1_1010100_00001011_0001#20 [0x33]) = .ok (.wrGain 0x54 51) := by decide

/-- Reserved codes (R81), a register above the map (R36), a header and a payload that no frame has (R48). -/
theorem test_decode_rejects :
    decode (.cmd 0xB0000#20) = .error (.reservedOp 0xB) ∧ decode (.cmd 0xFFFFF#20) = .error (.reservedOp 0xF) ∧
    decode (.frame 0x540C1#20 []) = .error (.unmappedRegister 0x0C) ∧
    decode (.frame 0xD4002#20 [0x01, 0xF6]) = .error (.undefinedFrame 0xD4002) ∧
    decode (.frame 0xD40A1#20 [0x01]) = .error (.undefinedFrame 0xD40A1) := by decide

/-- Every row of spec/opcode_table.json, its `match` word in three bytes. -/
theorem test_decodeTableWord : [0x00000, 0x10000, 0x20000, 0x30000, 0x40000, 0x50000, 0x60000, 0x70000, 0x80000,
      0x90000, 0xA0000, 0x00002, 0x00008, 0x00082, 0x80082, 0x000A1, 0x800A1, 0x000B1, 0x800B1].map (decodeTableWord 24)
    = [Instr.identify 0, .readInfo 0, .readCounter 0, .writeCounter 0, .readGain 0, .writeGain 0, .readKeyStatus 0,
      .encoderAsFraction 0, .poll 0, .takeDownPending 0, .isDown 0, .rdPid 0, .rdInfo 0, .rdCnt 0, .wrCnt 0 0, .rdKey 0,
      .wrKeyClr 0, .rdGain 0, .wrGain 0 0].map some := by decide

/-- RSP words of 95_test_vectors.md, 2.1. -/
theorem test_rsp_words : (okRsp true 0x01F6).toWord = 0x1000000000001F6 ∧
    (okRsp false (infoData 0x01F6 0x3343 0x0100 0x54)).toWord = 0x001F63343010054 ∧
    (transportErrorRsp 1).toWord = 0x200000000000001 ∧ illegalCommandRsp.toWord = 0x400000000000000 := by decide

/-! ### Single steps. Expected results: 95_test_vectors.md, 2.2 to 2.4. -/

/-- The sample peripheral: identity, counter 512, an edge pending, gain 51. -/
def cells : Memory := [(0, 0x01), (1, 0xF6), (2, 0x33), (3, 0x43), (4, 0x01), (6, 0xAB), (7, 0x54), (8, 0x02),
  (10, 0x01), (11, 0x33)]

/-- The same with no edge pending. -/
def idleCells : Memory := cells.drop 10

/-- A transaction that succeeds with nothing happening before it. -/
def okTurn : BusTurn := ⟨[], .ok⟩

/-- A transaction that fails with the code `e`, and that the peripheral did not take. -/
def errTurn (e : Byte) : BusTurn := ⟨[], .err e false⟩

/-- One that fails although the peripheral took the write (R198). -/
def lateTurn (e : Byte) : BusTurn := ⟨[], .err e true⟩

/-- A fresh block at the given peripheral, whose next transactions go as scripted. -/
def scene (m : Memory) (turns : List BusTurn) : State := { State.reset with regs := m, busTurns := turns }

/-- A block in the state `{pc, lpt, let, dp, up}` of 95_test_vectors.md, at clock value `now`. -/
def block (pc lpt let_ : Nat) (dp up : Bool) (now : Nat) (m : Memory) (turns : List BusTurn) : State :=
  { scene m turns with
    pressCount := pc, lastPollTime := lpt, lastPollValid := true, lastEdgeTime := let_, lastEdgeValid := true,
    downPending := dp, upPending := up, clock := now }

/-- The state with one turn to take. -/
def facing (s : State) (turn : Turn) : State := s.withAgenda [turn]

/-- The RSP words given so far. -/
def words : Result State → List RspWord
  | .next s => s.responses.map Rsp.toWord
  | .fault _ | .refused _ => []

/-- `{pc, lpt, let, dp, up}` and `KEY_STATUS` after a step. -/
def debounceOf : Result State → Option (Nat × Nat × Nat × Bool × Bool × Byte)
  | .next s => some (s.pressCount, s.lastPollTime, s.lastEdgeTime, s.downPending, s.upPending, s.keyStatus)
  | .fault _ | .refused _ => none

/-- The cells 0x08 to 0x0B after a step. -/
def cellsOf : Result State → List Byte
  | .next s => s.regs.readBlock 8 4
  | .fault _ | .refused _ => []

/-- The headers of the frames put on the bus, newest first, and the last reply. -/
def busOf : Result State → List Word20 × Option Reply
  | .next s => (s.trace.map (·.header), s.trace.head?.map (·.reply))
  | .fault _ | .refused _ => ([], none)

theorem test_identify_match :
    words (exec (.identify 0) (scene cells [okTurn])) = [0x1000000000001F6] ∧
    busOf (exec (.identify 0) (scene cells [okTurn])) = ([0x54002], some (.answered [0x01, 0xF6])) := by decide
theorem test_identify_mismatch :
    words (exec (.identify 9) (scene (cells.write 0 0x41) [okTurn])) = [0x0000000000041F6] := by decide
theorem test_readInfo : words (exec (.readInfo 0) (scene cells [okTurn])) = [0x001F63343010054] := by decide
theorem test_readInfo_fails : words (exec (.readInfo 0) (scene cells [errTurn 1])) = [0x200000000000001] := by decide
theorem test_readCounter : words (exec (.readCounter 0) (scene cells [okTurn])) = [512] := by decide
theorem test_readCounter_unchecked :
    words (exec (.readCounter 0) (scene (cells.writeBlock 8 [0xFF, 0xFF]) [okTurn])) = [65535] := by decide
theorem test_writeCounter_max :
    cellsOf (exec (.writeCounter 1023) (scene cells [okTurn])) = [0x03, 0xFF, 0x01, 0x33] ∧
    busOf (exec (.writeCounter 1023) (scene cells [okTurn])) = ([0xD4082], some .written) := by decide
theorem test_writeCounter_range_before_bus :
    words (exec (.writeCounter 1024) (scene cells [errTurn 3])) = [0] ∧
    busOf (exec (.writeCounter 1024) (scene cells [errTurn 3])) = ([], none) := by decide
theorem test_readGain : words (exec (.readGain 0) (scene cells [okTurn])) = [51] := by decide
theorem test_writeGain_min :
    cellsOf (exec (.writeGain 1) (scene cells [okTurn])) = [0x02, 0x00, 0x01, 0x01] := by decide
theorem test_writeGain_not_truncated :
    words (exec (.writeGain 257) (scene cells [okTurn])) = [0] ∧
    cellsOf (exec (.writeGain 257) (scene cells [okTurn])) = [0x02, 0x00, 0x01, 0x33] := by decide
/-- A second button event between the two frames is erased (R195). -/
theorem test_readKeyStatus_window :
    words (exec (.readKeyStatus 0) (scene cells [okTurn, ⟨[.move (.button 0)], .ok⟩])) = [0x100000000000000] ∧
    cellsOf (exec (.readKeyStatus 0) (scene cells [okTurn, ⟨[.move (.button 0)], .ok⟩])) = [0x02, 0x00, 0x00, 0x33] := by
  decide
/-- Whole frames of others fall between the two frames of one `READ_KEY_STATUS` (R58, R200): a write of another instance
to its own peripheral and an acknowledge of a second master at this one. Both stand in the bus record there. -/
def foreignTurn : BusTurn := ⟨[.frame .wrGain 0x10 1 .ok, .frame .wrKeyClr 0x54 0 .ok], .ok⟩
theorem test_readKeyStatus_foreign_frames :
    busOf (exec (.readKeyStatus 0) (scene cells [okTurn, foreignTurn])) =
      ([0xD40A1, 0xD40A1, 0x900B1, 0x540A1], some .written) ∧
    cellsOf (exec (.readKeyStatus 0) (scene cells [okTurn, foreignTurn])) = [0x02, 0x00, 0x00, 0x33] ∧
    words (exec (.readKeyStatus 0) (scene cells [okTurn, foreignTurn])) = [0x100000000000000] := by decide
/-- `WR_KEY_CLR` fails after the peripheral took it: not counted and no longer pending (R198). -/
theorem test_poll_late_failure :
    debounceOf (exec (.poll 0) (block 1 400 0 true false 500 cells [okTurn, lateTurn 1])) =
      some (1, 500, 0, true, false, 0x00) ∧
    words (exec (.poll 0) (block 1 400 0 true false 500 cells [okTurn, lateTurn 1])) = [0x200000000000001] := by decide
/-- `WR_CNT` likewise: the new value, although the caller is told of a failure (R198). -/
theorem test_writeCounter_late_failure :
    cellsOf (exec (.writeCounter 1023) (scene cells [lateTurn 3])) = [0x03, 0xFF, 0x01, 0x33] ∧
    words (exec (.writeCounter 1023) (scene cells [lateTurn 3])) = [0x200000000000003] := by decide
/-- Another peripheral: other identity, counter 0, no edge, gain 1. -/
def newCells : Vector Byte 12 := #v[0x41, 0xF6, 0x33, 0x44, 0x02, 0x00, 0xFF, 0x10, 0x00, 0x00, 0x00, 0x01]
/-- The peripheral is exchanged (R205): the cache is stale, and asking again delivers the new identity. -/
theorem test_exchange :
    (∃ t, step (facing { scene cells [okTurn] with infoBusAddress := 0x54, infoValid := true } (.env (.exchange newCells)))
        = .next t ∧ t.infoBusAddress = 0x54 ∧ t.devAddr = 0x54 ∧ t.regs.readBlock 0 12 = newCells.toList ∧
      words (exec (.readInfo 0) t) = [0x041F63344020010]) := ⟨_, rfl, rfl, rfl, by decide, by decide⟩
/-- It is exchanged between the two frames of one `READ_KEY_STATUS`: the write goes to the new one, at the same address;
its bus address changed by some other master before a `READ_INFO` is read (R205). -/
theorem test_exchange_between :
    cellsOf (exec (.readKeyStatus 0) (scene cells [okTurn, ⟨[.move (.exchange newCells)], .ok⟩])) =
      [0x00, 0x00, 0x00, 0x01] ∧
    words (exec (.readInfo 0) (scene cells [⟨[.move (.readdress 126)], .ok⟩])) = [0x001F6334301007F] := by decide
theorem test_readKeyStatus_clear_fails :
    words (exec (.readKeyStatus 0) (scene cells [okTurn, errTurn 1])) = [0x200000000000001] ∧
    cellsOf (exec (.readKeyStatus 0) (scene cells [okTurn, errTurn 1])) = [0x02, 0x00, 0x01, 0x33] := by decide
theorem test_encoderAsFraction_not_clamped :
    words (exec (.encoderAsFraction 0) (scene (cells.writeBlock 8 [0x07, 0xD0]) [okTurn])) = [2000] := by decide
/-- Strictly later than the timeout: forced recovery to 0. -/
theorem test_poll_forced_recovery :
    debounceOf (exec (.poll 0) (block 1 1901 0 true false 2001 idleCells [okTurn])) =
      some (0, 2001, 0, false, true, 0x00) := by decide
/-- Edge and run-out timeout in one poll: a release, the notification survives (R137). -/
theorem test_poll_edge_after_timeout :
    debounceOf (exec (.poll 0) (block 1 10 10 true false 3000 cells [okTurn, okTurn])) =
      some (2, 3000, 10, true, true, 0x00) := by decide
theorem test_takeDownPending :
    debounceOf (exec (.takeDownPending 0) (block 2 300 0 true true 300 idleCells [])) =
      some (2, 300, 0, false, true, 0x00) ∧
    words (exec (.takeDownPending 0) (block 2 300 0 true true 300 idleCells [])) = [0x100000000000000] := by decide
theorem test_isDown : words (exec (.isDown 0) (block 3 0 0 false false 99999 idleCells [])) = [0x100000000000000] := by
  decide
theorem test_rdPid : busOf (step (facing (scene cells [okTurn]) (.bus 0x54002 []))) =
    ([0x54002], some (.answered [0x01, 0xF6])) := by decide
theorem test_rdInfo : busOf (step (facing (scene cells [okTurn]) (.bus 0x54008 []))) =
    ([0x54008], some (.answered [0x01, 0xF6, 0x33, 0x43, 0x01, 0x00, 0xAB, 0x54])) := by decide
theorem test_rdCnt : busOf (step (facing (scene cells [okTurn]) (.bus 0x54082 []))) =
    ([0x54082], some (.answered [0x02, 0x00])) := by decide
theorem test_wrCnt : cellsOf (step (facing (scene cells [okTurn]) (.bus 0xD4082 [0x00, 0x07]))) =
    [0x00, 0x07, 0x01, 0x33] := by decide
theorem test_rdKey : busOf (step (facing (scene cells [okTurn]) (.bus 0x540A1 []))) =
    ([0x540A1], some (.answered [0x01])) := by decide
theorem test_wrKeyClr : cellsOf (step (facing (scene cells [okTurn]) (.bus 0xD40A1 [0x00]))) =
    [0x02, 0x00, 0x00, 0x33] := by decide
theorem test_rdGain_fails : busOf (step (facing (scene cells [errTurn 2]) (.bus 0x540B1 []))) =
    ([0x540B1], some (.failed 2)) := by decide
/-- Another device's register (R58): this peripheral keeps its cells. -/
theorem test_wrGain_other_device : cellsOf (step (facing (scene cells [okTurn]) (.bus 0x810B1 [0x01]))) =
    [0x02, 0x00, 0x01, 0x33] := by decide

/-- Illegal CMD words (R81). -/
theorem test_illegal_commands : words (step (facing (scene cells []) (.caller 0xC1234))) = [0x400000000000000] ∧
    words (step (facing (scene cells []) (.caller 0x60000))) = [0x400000000000000] ∧
    words (step (facing (scene cells []) (.internal 0x80000))) = [0x400000000000000] := by decide

/-- Construction with the model's arguments gives the reset state, whatever the block was (2.4). -/
theorem test_construct_reset :
    construct 0x54 51 none none (block 3 10 10 true true 20 cells []) =
      .next { State.reset with regs := cells, clock := 20 } := rfl
theorem test_construct_accepts : (∃ t, construct 1 0 none none State.reset = .next t) ∧
    (∃ t, construct 127 200 none none State.reset = .next t) := ⟨⟨_, rfl⟩, ⟨_, rfl⟩⟩

/-- `withFetchWord` puts the word on the port it belongs to, before anything else. -/
theorem test_withFetchWord : (State.reset.withFetchWord 24 0x80000).agenda = [.caller 0x80000] ∧
    (State.reset.withFetchWord 24 0x60000).agenda = [.internal 0x60000] ∧
    (State.reset.withFetchWord 24 0x00082).agenda = [.bus 0x00082 []] ∧
    (State.reset.withFetchWord 40 0xFF030D4082).agenda = [.bus 0xD4082 [0x03, 0xFF]] := by decide

/-! ### Witnesses: states and operands that meet the hypotheses of the obligations, clause by clause -/

theorem witness_EncodeDecodeAgree : decode (.frame 0xD4082#20 [0x03, 0xFF]) = .ok (.wrCnt 0x54 1023) := by decide

theorem witness_RspWordRoundTrip : Rsp.ofWord 0x1000000000001F6 = some ⟨.ok, true, 0x01F6⟩ ∧
    Rsp.ofWord 0x600000000000000 = none := by decide

theorem witness_CanonicalMemoryIsUnique :
    cells.wf ∧ (idleCells.write 10 0x01).wf ∧ ∀ a, cells.read a = (idleCells.write 10 0x01).read a :=
  ⟨by decide, by decide, fun _ => rfl⟩

/-- One transaction that succeeds, one that fails. -/
theorem witness_TransactionCoversItsCells : (scene cells [okTurn]).nextTurn.result = .ok ∧
    7 < FrameKind.rdInfo.len.toNat ∧ 1 < [(0x03 : Byte), 0xFF].length ∧ 7 < FrameKind.wrCnt.reg.toNat ∧
    FrameKind.wrCnt.reg.toNat + 2 ≤ 0x0A := by decide
theorem witness_FailedTransactionChangesNoCell : (scene cells [errTurn 255]).nextTurn.result = .err 255 false ∧
    (scene cells [lateTurn 0]).nextTurn.result = .err 0 true ∧ FrameKind.rdKey.isWrite = false := ⟨rfl, rfl, rfl⟩

theorem witness_StepRunsDecodedInstruction :
    ((facing (scene cells []) (.caller 0x80000)).agenda = [.caller 0x80000] ∧
      decode (.cmd 0x80000) = .ok (.poll 0) ∧ callerVisible (.poll 0) = true) ∧
    ((facing (scene cells []) (.internal 0x60000)).agenda = [.internal 0x60000] ∧
      decode (.cmd 0x60000) = .ok (.readKeyStatus 0) ∧ internalOnly (.readKeyStatus 0) = true) ∧
    ((facing (scene cells []) (.bus 0x540A1 [])).agenda = [.bus 0x540A1 []] ∧
      decode (.frame 0x540A1 []) = .ok (.rdKey 0x54)) := by decide

theorem witness_IllegalCommandsAreRefused : (∀ op ∈ [0xB#4, 0xF#4, 0x6#4],
    (facing (scene cells []) (.caller (op ++ 0#16))).agenda = [.caller (op ++ 0#16)] ∧
      (0xB ≤ op.toNat ∨ op.toNat = 0x6)) ∧
    (∀ op ∈ [0x0#4, 0x5#4, 0x7#4, 0xF#4],
      (facing (scene cells []) (.internal (op ++ 0#16))).agenda = [.internal (op ++ 0#16)] ∧ op.toNat ≠ 0x6) := by decide

theorem witness_StopsAreNamed :
    step (facing (scene cells []) (.bus 0x540C1 [])) = .fault (.unmappedRegister 0x0C) ∧
    step (facing (scene cells []) (.bus 0x540A2 [])) = .refused (.undefinedFrame 0x540A2) ∧
    step (facing (scene cells []) (.construct 128 0 none none)) = .refused (.constructionRefused 128) ∧
    12 < (headerReg 0x540C1).toNat + (headerLen 0x540C1).toNat ∧ 12 < (headerReg 0x540B2).toNat + (headerLen 0x540B2).toNat ∧
    (headerReg 0x540A2).toNat + (headerLen 0x540A2).toNat ≤ 12 ∧ ∀ i, encode i ≠ .frame 0x540A2 [] := by
  refine ⟨rfl, rfl, rfl, by decide, by decide, by decide, fun i h => ?_⟩
  cases i <;> simp only [encode, reduceCtorEq, Packet.frame.injEq] at h
  all_goals
    have hn : frameKindOf 0x540A2#20 = none := by decide
    cases (frameKindOf_header _ _).symm.trans ((congrArg frameKindOf h.1).trans hn)

/-- The statement has one hypothesis, the turn; one witness for each kind of move, at the ends of its range. -/
theorem witness_EnvironmentMovesOnlyItsOwn :
    ∀ m ∈ [EnvMove.button 0, .button 254, .rotate 0, .rotate 1023, .clock 0, .exchange newCells, .readdress 0, .readdress 126],
      (facing (scene cells []) (.env m)).agenda = [.env m] := by decide

theorem witness_ConstructionResetsTheBlock : (∀ d ∈ [0, 128], d = 0 ∨ 127 < d) ∧ (∀ d ∈ [1, 127], 1 ≤ d ∧ d ≤ 127) ∧
    (facing (scene cells []) (.construct 127 200 (some 0) none)).agenda = [.construct 127 200 (some 0) none] := by
  decide

/-- The reading operations: a transaction that succeeds, one that fails. -/
theorem witness_reading_results : (scene cells [okTurn]).nextTurn.result = .ok ∧
    (scene cells [errTurn 2]).nextTurn.result = .err 2 false := ⟨rfl, rfl⟩
theorem witness_IdentifyResult : (scene cells [okTurn]).nextTurn.result = .ok ∧
    (scene cells [errTurn 2]).nextTurn.result = .err 2 false := witness_reading_results
theorem witness_ReadInfoResult : (scene cells [okTurn]).nextTurn.result = .ok ∧
    (scene cells [errTurn 2]).nextTurn.result = .err 2 false := witness_reading_results
theorem witness_ReadCounterResult : (scene cells [okTurn]).nextTurn.result = .ok ∧
    (scene cells [errTurn 2]).nextTurn.result = .err 2 false := witness_reading_results
theorem witness_EncoderAsFractionResult : (scene cells [okTurn]).nextTurn.result = .ok ∧
    (scene cells [errTurn 2]).nextTurn.result = .err 2 false := witness_reading_results
theorem witness_ReadGainResult : (scene cells [okTurn]).nextTurn.result = .ok ∧
    (scene cells [errTurn 2]).nextTurn.result = .err 2 false := witness_reading_results

theorem witness_WriteCounterResult : (0#16).toNat ≤ 1023 ∧ (1023#16).toNat ≤ 1023 ∧
    (scene cells [okTurn]).nextTurn.result = .ok ∧ (scene cells [errTurn 3]).nextTurn.result = .err 3 false := by decide
theorem witness_WriteGainResult : 1 ≤ (1#16).toNat ∧ (51#16).toNat ≤ 51 ∧
    (scene cells [okTurn]).nextTurn.result = .ok ∧ (scene cells [errTurn 3]).nextTurn.result = .err 3 false := by decide
theorem witness_OutOfRangeWritesAreRejected : 1023 < (1024#16).toNat ∧ 1023 < (65535#16).toNat ∧
    (0#16).toNat < 1 ∧ 51 < (52#16).toNat ∧ 51 < (257#16).toNat := by decide

/-! The key read in its four ways. -/

theorem key_read_fails : ∃ u, (scene cells [errTurn 2]).KeyFails 2 u := ⟨_, false, .inl ⟨rfl, rfl⟩⟩
theorem key_clear_fails : ∃ u, (scene cells [okTurn, errTurn 1]).KeyFails 1 u :=
  ⟨_, false, .inr ⟨rfl, by decide, rfl, rfl⟩⟩
theorem key_idle : ∃ u, (scene idleCells [okTurn]).KeyIdle u := ⟨_, rfl, rfl, rfl⟩
theorem key_edge : ∃ u, (scene cells [okTurn, okTurn]).KeyEdge u := ⟨_, rfl, by decide, rfl, rfl⟩

theorem witness_ReadKeyStatusResult : (∃ u, (scene cells [errTurn 2]).KeyFails 2 u) ∧
    (∃ u, (scene cells [okTurn, errTurn 1]).KeyFails 1 u) ∧ (∃ u, (scene idleCells [okTurn]).KeyIdle u) ∧
    (∃ u, (scene cells [okTurn, okTurn]).KeyEdge u) := ⟨key_read_fails, key_clear_fails, key_idle, key_edge⟩

/-- The last tick that is limited, the clock behind the last poll, the first tick that is not, the first poll. -/
theorem witness_RateLimitedPollDoesNothing :
    (let s := block 0 100 0 false false 199 cells []
     s.lastPollValid = true ∧ s.clock < s.lastPollTime + s.pollInterval) ∧
    (let s := block 0 500 0 false false 400 cells []
     s.lastPollValid = true ∧ s.clock < s.lastPollTime) ∧
    (let s := block 0 100 0 false false 200 cells []
     s.lastPollTime + s.pollInterval ≤ s.clock) ∧ State.reset.lastPollValid = false := by decide

/-- One state for each row of R134's table, the two timeout rows at the tick where they meet. -/
theorem witness_ButtonStateMachine :
    (let s := block 0 100 0 false false 200 idleCells [okTurn]
     s.lastPollTime + s.pollInterval ≤ s.clock ∧ s.fsm = .up ∧ ∃ u, s.KeyIdle u) ∧
    (let s := block 2 100 0 true true 200 cells [okTurn, okTurn]
     s.lastPollTime + s.pollInterval ≤ s.clock ∧ s.fsm = .up ∧ ∃ u, s.KeyEdge u) ∧
    (let s := block 1 1900 0 true false 2000 idleCells [okTurn]
     s.fsm = .down ∧ (∃ u, s.KeyIdle u) ∧ s.clock ≤ s.lastEdgeTime + s.stuckTimeout) ∧
    (let s := block 1 1901 0 true false 2001 idleCells [okTurn]
     s.fsm = .down ∧ (∃ u, s.KeyIdle u) ∧ s.lastEdgeTime + s.stuckTimeout < s.clock) ∧
    (let s := block 3 10 10 true false 3000 cells [okTurn, okTurn]
     s.fsm = .down ∧ ∃ u, s.KeyEdge u) ∧
    (let s := block 1 300 0 true false 400 cells [errTurn 2]
     s.lastPollTime + s.pollInterval ≤ s.clock ∧ ∃ u, s.KeyFails 2 u) ∧
    (let s := block 1 300 0 true false 399 cells []
     s.lastPollValid = true ∧ s.clock < s.lastPollTime + s.pollInterval) ∧
    (let s := facing (block 0 100 0 false false 200 cells [okTurn, okTurn]) (.caller 0x80000)
     ∃ t, step s = .next t ∧ s.fsm ≠ t.fsm) ∧
    State.reset.pressCount = 0 :=
  ⟨⟨by decide, rfl, _, rfl, rfl, rfl⟩, ⟨by decide, rfl, _, rfl, by decide, rfl, rfl⟩, ⟨rfl, ⟨_, rfl, rfl, rfl⟩, by decide⟩,
    ⟨rfl, ⟨_, rfl, rfl, rfl⟩, by decide⟩, ⟨rfl, _, rfl, by decide, rfl, rfl⟩, ⟨by decide, _, false, .inl ⟨rfl, rfl⟩⟩, by decide,
    ⟨_, rfl, by decide⟩, rfl⟩

/-- A button event and a frame of another instance fall between the two frames. -/
theorem witness_FailedPollPreservesDebounce :
    (let s := block 1 400 0 true false 500 cells
      [okTurn, ⟨[.move (.button 0), .frame .wrKeyClr 0x10 0 .ok], .err 1 false⟩]
     s.rateLimited s.clock = false ∧ (∃ u, s.KeyFails 1 u) ∧ s.nextTurn.result = .ok ∧
       s.afterKeyRead.nextTurn.result = .err 1 false ∧
       ∀ event ∈ s.afterKeyRead.nextTurn.events, ¬ event.ClearsKey s.devAddr) :=
  ⟨by decide, ⟨_, false, .inr ⟨rfl, by decide, rfl, rfl⟩⟩, rfl, rfl, fun e he => by
    rcases List.mem_cons.mp he with rfl | he
    · exact id
    · cases List.mem_singleton.mp he
      exact fun h => absurd h.1 (by decide)⟩

theorem witness_FailedPollCostsItsSlot :
    (let s := block 1 300 0 true false 400 cells [errTurn 2]
     s.rateLimited s.clock = false ∧ (∃ u, s.KeyFails 2 u) ∧ (∃ t, exec (.poll 0) s = .next t) ∧
       499 < s.clock + s.pollInterval) :=
  ⟨by decide, ⟨_, false, .inl ⟨rfl, rfl⟩⟩, ⟨_, rfl⟩, by decide⟩

theorem witness_TakeDownPendingResult : ∃ t, exec (.takeDownPending 0) (block 1 0 0 true false 0 cells []) = .next t :=
  ⟨_, rfl⟩

theorem witness_ReadFramesResult :
    (Instr.rdInfo 0x54, 0x00008#20, 0, 8) ∈ [(Instr.rdPid 0x54, 0x00002#20, 0, 2), (Instr.rdInfo 0x54, 0x00008#20, 0, 8),
      (Instr.rdCnt 0x54, 0x00082#20, 8, 2), (Instr.rdKey 0x54, 0x000A1#20, 0x0A, 1),
      (Instr.rdGain 0x54, 0x000B1#20, 0x0B, 1)] ∧
    (scene cells [okTurn]).nextTurn.result = .ok ∧ (scene cells [okTurn]).devAddr = 0x54 ∧
    (scene cells [okTurn]).devAddr ≠ 0x10 ∧ (scene cells [errTurn 1]).nextTurn.result = .err 1 false := by decide

theorem witness_WriteFramesResult :
    (Instr.wrCnt 0x54 1023, 0x80082#20, 8, [0x03#8, 0xFF#8]) ∈
      [(Instr.wrCnt 0x54 1023, 0x80082#20, 8, [hi8 1023, lo8 1023]),
        (Instr.wrKeyClr 0x54, 0x800A1#20, 0x0A, [0x00#8]), (Instr.wrGain 0x54 51, 0x800B1#20, 0x0B, [51#8])] ∧
    (scene cells [okTurn]).nextTurn.result = .ok ∧ (scene cells [okTurn]).devAddr = 0x54 ∧
    (scene cells [okTurn]).devAddr ≠ 0x10 ∧ (scene cells [errTurn 1]).nextTurn.result = .err 1 false ∧
    (scene cells [errTurn 1]).nextTurn.result.took = false ∧ (scene cells [lateTurn 1]).nextTurn.result.took = true ∧
    (7 < 8 ∨ 8 + 2 ≤ 7) ∧ (0x0A < 8 ∨ 8 + 2 ≤ 0x0A) := by decide

theorem witness_ReadOperationsFrame :
    ∀ i ∈ [Instr.identify 0, .readInfo 0, .readCounter 0, .readGain 0, .encoderAsFraction 0],
      ∃ t, exec i (scene cells [okTurn]) = .next t := fun i _ => exec_next i _

theorem witness_WriteOperationsFrame :
    (∀ v ∈ [0#16, 1023#16, 1024#16, 51#16, 52#16], (∃ t, exec (.writeCounter v) (scene cells [okTurn]) = .next t) ∧
      ∃ t, exec (.writeGain v) (scene cells [okTurn]) = .next t) ∧
    (∃ t, exec (.writeGain 51) (scene cells [errTurn 1]) = .next t) ∧
    (scene cells [errTurn 1]).nextTurn.result.took = false :=
  ⟨fun _ _ => ⟨exec_next _ _, exec_next _ _⟩, exec_next _ _, rfl⟩

theorem witness_KeyStatusOperationsFrame :
    (∃ t, exec (.readKeyStatus 0) (scene idleCells [okTurn]) = .next t) ∧
    (scene cells [okTurn, okTurn]).rateLimited 0 = false ∧
    (∃ t, exec (.poll 0) (scene cells [okTurn, okTurn]) = .next t) ∧
    (scene cells [errTurn 1]).nextTurn.result ≠ .ok ∧ (scene idleCells [okTurn]).atBus.keyStatus = 0x00#8 ∧
    (let s := scene cells [okTurn, errTurn 1]
     s.nextTurn.result = .ok ∧ s.atBus.keyStatus ≠ 0x00#8 ∧ s.afterKeyRead.nextTurn.result.took = false) :=
  ⟨exec_next _ _, by decide, exec_next _ _, by decide, rfl, by decide⟩

/-- Two blocks with the same outside and device address and different debounce state. -/
theorem witness_ProtocolLayerOwnership :
    (∃ t, exec (.identify 0) (scene cells [okTurn]) = .next t) ∧ isProtocolOperation (.identify 0) = true ∧
    (∀ arg, Instr.identify 0 ≠ .poll arg) ∧ (∀ arg, Instr.identify 0 ≠ .takeDownPending arg) ∧
    SameOutside (scene cells [okTurn]) (block 1 5 5 true true 0 cells [okTurn]) ∧
    (scene cells [okTurn]).devAddr = (block 1 5 5 true true 0 cells [okTurn]).devAddr :=
  ⟨exec_next _ _, rfl, by simp, by simp, ⟨rfl, rfl, rfl, rfl, rfl, rfl, rfl⟩, rfl⟩

theorem witness_OnlyReadInfoRefreshesTheCache :
    (∃ t, exec (.writeCounter 7) (scene cells [okTurn]) = .next t) ∧ (∀ arg, Instr.writeCounter 7 ≠ .readInfo arg) ∧
    (∃ t, exec (.readInfo 0) (scene cells [errTurn 1]) = .next t) ∧ (scene cells [errTurn 1]).nextTurn.result = .err 1 false ∧
    (∃ t, exec (.readInfo 0) (scene cells [okTurn]) = .next t) ∧ (scene cells [okTurn]).nextTurn.result = .ok :=
  ⟨exec_next _ _, by simp, exec_next _ _, rfl, exec_next _ _, rfl⟩

theorem witness_OperationsIssueTheirFrames : ∀ i ∈ [Instr.identify 0, .writeCounter 1023, .writeCounter 1024,
    .writeGain 51, .writeGain 52, .readKeyStatus 0, .poll 0, .takeDownPending 0],
      isOperation i = true ∧ ∃ t, exec i (scene cells [okTurn, okTurn]) = .next t := by
  refine fun i hi => ⟨?_, exec_next i _⟩
  revert i; decide

theorem witness_TransportErrorEndsTheOperation :
    ((scene cells [errTurn 2]).nextTurn.result = .err 2 false ∧ isOperation (.writeCounter 1023) = true ∧
      (1023#16).toNat ≤ 1023 ∧ (scene cells [errTurn 2]).rateLimited (scene cells [errTurn 2]).clock = false) ∧
    (let s := scene cells [okTurn, errTurn 1]
     s.nextTurn.result = .ok ∧ s.atBus.keyStatus ≠ 0x00#8 ∧ s.afterKeyRead.nextTurn.result = .err 1 false ∧
       s.rateLimited s.clock = false) ∧
    (let s := scene cells [okTurn, lateTurn 1]
     s.nextTurn.result = .ok ∧ s.atBus.keyStatus ≠ 0x00#8 ∧ s.afterKeyRead.nextTurn.result = .err 1 true) ∧
    (∃ t r, exec (.readGain 0) (scene cells [errTurn 2]) = .next t ∧
      t.responses = r :: (scene cells [errTurn 2]).responses ∧ r.status = .transportError) :=
  ⟨by decide, by decide, by decide, ⟨_, _, rfl, rfl, rfl⟩⟩

theorem witness_OneResponseForEachOperation : isOperation (.isDown 0) = true ∧ isOperation (.rdPid 0x54) = false :=
  ⟨rfl, rfl⟩

/-! Steps and runs. -/

/-- A DOWN state at the edge of its timeout, facing a `POLL`, meets the model's invariant and steps. -/
theorem witness_StepKeepsInvariant :
    (let s := facing (block 1 1901 0 true false 2001 idleCells [okTurn]) (.caller 0x80000)
     s.Inv ∧ ∃ t, step s = .next t) :=
  ⟨⟨by decide, by decide, fun _ => ⟨rfl, rfl, by decide⟩⟩, ⟨_, rfl⟩⟩

/-- Another master's legal write as the turn, and one before it. -/
theorem witness_StepKeepsTheContract :
    (let s := facing (scene cells [⟨[.frame .wrGain 0x54 51 .ok], .ok⟩, okTurn]) (.bus 0xD4082 [0x03, 0xFF])
     (∀ turn rest, s.agenda = turn :: rest → turn.Legal) ∧ s.LegalTraffic ∧ s.InContract ∧
       ∃ t, step s = .next t) := by
  refine ⟨fun turn rest h => ?_, ⟨fun e he => ?_, fun e he => ?_⟩, ⟨by decide, by decide, by decide⟩, ⟨_, rfl⟩⟩
  · cases h
    intro i hi
    have : decodeFrame 0xD4082#20 [0x03, 0xFF] = .ok (.wrCnt 0x54 1023) := by decide
    cases this.symm.trans hi
    decide
  · cases List.mem_singleton.mp he
    exact ⟨by decide, by decide⟩
  · cases he

/-- A rotation changes none of them; a new bus address only 0x07. -/
theorem witness_IdentityCellsChangeOnlyFromOutside :
    (∃ t, step (facing (scene cells []) (.env (.rotate 1023))) = .next t) ∧
    (∀ m, (facing (scene cells []) (.env (.rotate 1023))).StepMayMove m → ¬ m.Reidentifies 7) ∧
    (∀ m, (facing (scene cells []) (.env (.readdress 0))).StepMayMove m → ¬ m.Reidentifies 6) :=
  ⟨⟨_, rfl⟩, fun _ h => by cases h; exact id, fun _ h => by cases h; exact (by decide : ¬ 6 = Config.regBusAddr)⟩

theorem witness_ConfigurationNeverChanges :
    (∃ t, step (facing (scene cells []) (.env (.button 254))) = .next t) ∧ ∀ turn rest,
      (facing (scene cells []) (.env (.button 254))).agenda = turn :: rest → ¬ turn.isConstruct :=
  ⟨⟨_, rfl⟩, fun _ _ h => by cases h; exact id⟩

/-- An edge is counted. -/
theorem witness_AtMostOneEdgeIsCounted :
    ∃ t, step (facing (scene cells [okTurn, okTurn]) (.caller 0x80000)) = .next t ∧ t.pressCount = 1 := ⟨_, rfl, rfl⟩

/-- Raised by a press; lowered by its delivery, by forced recovery, by a construction. -/
theorem witness_DownPendingLifeCycle :
    (∃ t, step (facing (scene cells [okTurn, okTurn]) (.caller 0x80000)) = .next t ∧ t.downPending = true) ∧
    (∃ t, step (facing (block 1 0 0 true false 50 cells []) (.caller 0x90000)) = .next t ∧ t.downPending = false) ∧
    (∃ t, step (facing (block 1 1901 0 true false 2001 idleCells [okTurn]) (.caller 0x80000)) = .next t ∧
      t.downPending = false) ∧
    (∃ t, step (facing (block 1 0 0 true false 50 cells []) (.construct 1 0 none none)) = .next t ∧
      t.downPending = false) :=
  ⟨⟨_, rfl, rfl⟩, ⟨_, rfl, rfl⟩, ⟨_, rfl, rfl⟩, ⟨_, rfl, rfl⟩⟩

/-- A release and a forced recovery, no turn a construction. -/
theorem witness_UpPendingIsSetOnEveryRelease :
    (∃ t, step (facing (block 1 200 0 true false 300 cells [okTurn, okTurn]) (.caller 0x80000)) = .next t ∧
      t.fsm = .up ∧ t.upPending = true) ∧ (block 1 200 0 true false 300 cells []).fsm = .down ∧
    (∃ t, step (facing (block 2 200 0 true true 300 idleCells [okTurn]) (.caller 0x80000)) = .next t) ∧
    ∀ turn rest, (facing (block 1 200 0 true false 300 cells [okTurn, okTurn]) (.caller 0x80000)).agenda = turn :: rest →
      ¬ turn.isConstruct :=
  ⟨⟨_, rfl, rfl, rfl⟩, rfl, ⟨_, rfl⟩, fun _ _ h => by cases h; exact id⟩

/-- Two states that differ, in the hidden registers only. -/
theorem witness_HiddenStateNeverShows :
    AgreeButHidden (scene cells []) { scene cells [] with gainInit := 0, upPending := true, infoValid := true } ∧
    scene cells [] ≠ { scene cells [] with gainInit := 0, upPending := true, infoValid := true } :=
  ⟨⟨⟨rfl, rfl, rfl, rfl, rfl, rfl, rfl⟩, rfl, rfl, rfl, rfl, rfl, rfl, rfl, rfl, rfl⟩, by decide⟩

theorem witness_PressCountMayHaveAnyWidth : 1 ≤ 1 ∧ (block 3 0 0 false false 0 cells []).narrow 1 ≠
    block 3 0 0 false false 0 cells [] := by decide

/-- A run of two steps without a `POLL` or a construction. -/
theorem unpolled (s : State) :
    (s.withAgenda [.env (.clock 99999), .caller 0xA0000]).Unpolled := by
  intro turn h
  simp only [State.withAgenda, List.mem_cons, List.not_mem_nil, or_false] at h
  rcases h with rfl | rfl
  · exact ⟨id, id⟩
  · refine ⟨?_, id⟩
    rintro ⟨arg, h⟩
    have : decodeCmd 0xA0000#20 = .ok (.isDown 0) := by decide
    cases this.symm.trans h

theorem witness_OnlyPollsRecoverAStuckPress :
    (let s := (block 1 0 0 true false 50 cells []).withAgenda [.env (.clock 99999), .caller 0xA0000]
     s.Unpolled ∧ ∃ t, Host.Core.run Sys2Proof.core 2 s = .next t) := ⟨unpolled _, ⟨_, rfl⟩⟩

theorem witness_NotificationIsDeliveredOnce :
    (let s := (block 1 0 0 true false 50 cells []).withAgenda [.env (.clock 99999), .caller 0xA0000]
     s.Unpolled ∧ ∃ u, exec (.takeDownPending 0) s = .next u ∧
       ∃ t, Host.Core.run Sys2Proof.core 2 u = .next t) := ⟨unpolled _, ⟨_, rfl, ⟨_, rfl⟩⟩⟩

/-- Between the write and the read the clock moves and another instance writes its own counter. -/
theorem witness_CounterRoundTrip :
    (let s := scene cells [okTurn, ⟨[.move (.clock 7), .frame .wrCnt 0x10 5 .ok], .ok⟩]
     (∃ t, exec (.writeCounter 1023) s = .next t ∧ t.nextTurn.result = .ok ∧
       ∀ e ∈ t.nextTurn.events, ¬ e.Writes t.devAddr 0x08 ∧ ¬ e.Writes t.devAddr 0x09) ∧ (1023#16).toNat ≤ 1023 ∧
     s.nextTurn.result = .ok) ∧
    (∃ t, exec (.writeCounter 1024) (scene cells []) = .next t) ∧ 1023 < (1024#16).toNat := by
  refine ⟨⟨⟨_, rfl, rfl, fun e he => ?_⟩, by decide, rfl⟩, exec_next _ _, by decide⟩
  rcases List.mem_cons.mp he with rfl | he
  · exact ⟨id, id⟩
  · cases List.mem_singleton.mp he
    exact ⟨fun h => absurd h.1 (by decide), fun h => absurd h.1 (by decide)⟩

/-- Between the write and the read the counter turns and another instance writes its own gain. -/
theorem witness_GainRoundTrip :
    (let s := scene cells [okTurn, ⟨[.move (.rotate 0), .frame .wrGain 0x10 5 .ok], .ok⟩]
     (∃ t, exec (.writeGain 51) s = .next t ∧ t.nextTurn.result = .ok ∧
       ∀ e ∈ t.nextTurn.events, ¬ e.Writes t.devAddr 0x0B) ∧
     1 ≤ (51#16).toNat ∧ (51#16).toNat ≤ 51 ∧ s.nextTurn.result = .ok) ∧
    (∃ t, exec (.writeGain 52) (scene cells []) = .next t) ∧ 51 < (52#16).toNat := by
  refine ⟨⟨⟨_, rfl, rfl, fun e he => ?_⟩, by decide, by decide, rfl⟩, exec_next _ _, by decide⟩
  rcases List.mem_cons.mp he with rfl | he
  · exact (by decide : ¬ (0x0B = Config.regCounter ∨ 0x0B = Config.regCounter + 1))
  · cases List.mem_singleton.mp he
    exact fun h => absurd h.1 (by decide)

theorem witness_WindowEdgeIsErased :
    (let s := scene cells [okTurn, ⟨[.move (.button 0)], .ok⟩]
     (∃ u, s.KeyEdge u) ∧ s.rateLimited s.clock = false ∧ ∃ t, exec (.poll 0) s = .next t) :=
  ⟨⟨_, rfl, by decide, rfl, rfl⟩, by decide, exec_next _ _⟩

theorem witness_ForeignAcknowledgeTakesTheEdge :
    (let s := facing (scene cells [okTurn, okTurn]) (.bus 0xD40A1 [0x00])
     s.agenda = [.bus (s.headerTo 0x800A1#20) [0x00#8]] ∧ s.nextTurn.result = .ok ∧ s.fsm = .up ∧
     ∃ t, step s = .next t ∧ t.rateLimited t.clock = false ∧ t.nextTurn.result = .ok ∧
       (∀ e ∈ t.nextTurn.events, ¬ e.RaisesKey) ∧ ∃ v, exec (.poll 0) t = .next v) :=
  ⟨by decide, rfl, rfl, ⟨_, rfl, by decide, rfl, fun _ h => by (cases h), exec_next _ _⟩⟩

theorem witness_LateFailureLosesTheEdge :
    (let s := scene cells [okTurn, lateTurn 1]
     s.nextTurn.result = .ok ∧ s.atBus.keyStatus ≠ 0x00#8 ∧ s.afterKeyRead.nextTurn.result = .err 1 true ∧
       s.rateLimited s.clock = false) ∧
    (scene cells [lateTurn 3]).nextTurn.result = .err 3 true ∧ (1023#16).toNat ≤ 1023 ∧ 1 ≤ (1#16).toNat ∧
    (51#16).toNat ≤ 51 ∧ isOperation (.poll 0) = true ∧ (lateTurn 3).strict ≠ lateTurn 3 := by decide

/-- The scripts with and without the other instance's frame differ. -/
theorem witness_OtherInstancesAreHarmless :
    isOperation (.readKeyStatus 0) = true ∧ 2 ≤ (scene cells [okTurn, foreignTurn]).busTurns.length ∧
    (scene cells [okTurn, foreignTurn]).alone ≠ scene cells [okTurn, foreignTurn] := by decide

/-- A cached identity, an exchange, a poll and the time; then `READ_INFO` finds the new peripheral. -/
theorem witness_StaleIdentityUntilReadAgain :
    (facing (scene cells []) (.env (.exchange newCells))).agenda = [.env (.exchange newCells)] ∧
    (facing (scene cells []) (.env (.readdress 126))).agenda = [.env (.readdress 126)] ∧
    (let s := (scene cells [okTurn]).withAgenda [.env (.exchange newCells), .env (.readdress 0), .env (.clock 5)]
     s.Unasked ∧ ∃ t, Host.Core.run Sys2Proof.core 3 s = .next t) ∧
    (let s := scene (cells.writeBlock 0 newCells.toList) [⟨[.move (.clock 3)], .ok⟩]
     (∀ a, (h : a < 8) → s.regs.read a = newCells[a]) ∧ s.nextTurn.result = .ok ∧
       ∀ e ∈ s.nextTurn.events, ∀ a, a < 8 → ¬ e.Writes s.devAddr a) := by
  refine ⟨rfl, rfl, ⟨fun turn h => ?_, ⟨_, rfl⟩⟩, by decide, rfl, fun e he a _ => ?_⟩
  · simp only [State.withAgenda, List.mem_cons, List.not_mem_nil, or_false] at h
    rcases h with rfl | rfl | rfl <;> exact ⟨id, id⟩
  · cases List.mem_singleton.mp he
    exact id

end Sys2Proof.Tests
end

section
/-! What the instructions leave of the block's own registers, and what the Register Protocol Layer sees of them (R22). -/

namespace Sys2Proof.Machine

/-! ### Who writes the block's registers -/

/-- The block's own registers agree: configuration, debounce state and identity cache. -/
def SameBlock (s t : State) : Prop := SameConfig s t ∧ SameDebounce s t ∧ SameCache s t

theorem SameBlock.refl (s : State) : SameBlock s s := by simp [SameBlock, SameConfig, SameDebounce, SameCache]

theorem SameBlock.of_and {s t : State} {q : Prop} (h : SameConfig s t ∧ SameDebounce s t ∧ SameCache s t ∧ q) :
    SameBlock s t := by
  obtain ⟨hconfig, hdebounce, hcache, _⟩ := h
  exact ⟨hconfig, hdebounce, hcache⟩

theorem SameBlock.respond {s t : State} (h : SameBlock s t) (r : Rsp) : SameBlock s (t.respond r) := h

theorem State.memRead_sameBlock (s : State) (k : FrameKind) : SameBlock s (s.memRead k).2 := by
  rcases s.memRead_cases k with ⟨e, taken, _, hm⟩ | ⟨_, hm⟩ <;>
    simp [hm, SameBlock, SameConfig, SameDebounce, SameCache]

theorem State.memWrite_sameBlock (s : State) (k : FrameKind) (payload : List Byte) :
    SameBlock s (s.memWrite k payload).2 := by
  rcases s.memWrite_cases k payload with ⟨e, taken, _, hm⟩ | ⟨_, hm⟩
  · cases taken <;> simp [hm, SameBlock, SameConfig, SameDebounce, SameCache]
  · simp [hm, SameBlock, SameConfig, SameDebounce, SameCache]

theorem State.busFrame_sameBlock (s : State) (k : FrameKind) (dev : DevAddr) (payload : List Byte) :
    SameBlock s (s.busFrame k dev payload) := by
  simp [State.busFrame, SameBlock, SameConfig, SameDebounce, SameCache]

theorem State.readAndAcknowledge_sameBlock (s : State) : SameBlock s s.readAndAcknowledge.2 := by
  rcases s.key_cases with ⟨e, u, h⟩ | ⟨u, h⟩ | ⟨u, h⟩
  · rw [State.readAndAcknowledge_fails h]; exact .of_and h.block
  · rw [State.readAndAcknowledge_idle h]; exact .of_and h.block
  · rw [State.readAndAcknowledge_edge h]; exact .of_and h.block

/-- What a response and the rest of the operation keep holds at the end of the operation. -/
theorem finish_keeps {P : State → Prop} {α : Type} {r : Except Byte α × State} {f : α → State → State}
    (hr : P r.2) (herr : ∀ u rsp, P u → P (u.respond rsp)) (hok : ∀ v u, P u → P (f v u)) : P (finish r f) := by
  obtain ⟨e | v, t⟩ := r
  · exact herr t _ hr
  · exact hok v t hr

/-- An operation that only responds after its transactions leaves the block's registers as the transactions do. -/
theorem finish_respond_sameBlock {s : State} {α : Type} {r : Except Byte α × State} (hr : SameBlock s r.2)
    (rsp : α → Rsp) : SameBlock s (finish r fun v u => u.respond (rsp v)) :=
  finish_keeps hr (fun _ _ hu => hu.respond _) fun _ _ hu => hu.respond _

/-- The instructions other than `POLL`, `TAKE_DOWN_PENDING` and `READ_INFO` write none of the block's registers. -/
theorem exec_sameBlock {i : Instr} {s t : State} (h : exec i s = .next t) (hpoll : ∀ arg, i ≠ .poll arg)
    (htake : ∀ arg, i ≠ .takeDownPending arg) (hinfo : ∀ arg, i ≠ .readInfo arg) : SameBlock s t := by
  cases i
  case identify | readCounter | readGain | encoderAsFraction =>
    cases h; exact finish_respond_sameBlock (s.memRead_sameBlock _) _
  case writeCounter | writeGain =>
    cases h
    show SameBlock s (if _ then _ else _)
    split
    · exact finish_respond_sameBlock (s.memWrite_sameBlock _ _) _
    · exact (SameBlock.refl s).respond _
  case readKeyStatus => cases h; exact finish_respond_sameBlock s.readAndAcknowledge_sameBlock _
  case isDown => cases h; exact (SameBlock.refl s).respond _
  case rdPid | rdInfo | rdCnt | wrCnt | rdKey | wrKeyClr | rdGain | wrGain =>
    cases h; exact s.busFrame_sameBlock _ _ _
  case poll arg => exact absurd rfl (hpoll arg)
  case takeDownPending arg => exact absurd rfl (htake arg)
  case readInfo arg => exact absurd rfl (hinfo arg)

/-- `READ_INFO` writes the cache and nothing else of the block. -/
theorem execReadInfo_sameConfig_sameDebounce {s t : State} (h : execReadInfo s = .next t) :
    SameConfig s t ∧ SameDebounce s t := by
  cases h
  obtain ⟨hconfig, hdebounce, _⟩ := s.memRead_sameBlock .rdInfo
  exact finish_keeps (P := fun u => SameConfig s u ∧ SameDebounce s u) ⟨hconfig, hdebounce⟩ (fun _ _ hu => hu)
    fun _ _ hu => hu

theorem exec_sameConfig_sameDebounce {i : Instr} {s t : State} (h : exec i s = .next t)
    (hpoll : ∀ arg, i ≠ .poll arg) (htake : ∀ arg, i ≠ .takeDownPending arg) : SameConfig s t ∧ SameDebounce s t := by
  by_cases hinfo : ∃ arg, i = .readInfo arg
  · obtain ⟨arg, rfl⟩ := hinfo
    exact execReadInfo_sameConfig_sameDebounce h
  · obtain ⟨hconfig, hdebounce, _⟩ := exec_sameBlock h hpoll htake (not_exists.mp hinfo)
    exact ⟨hconfig, hdebounce⟩

theorem isProtocolOperation_ne_poll {i : Instr} (h : isProtocolOperation i = true) (arg : U16) : i ≠ .poll arg := by
  rintro rfl; cases h

theorem isProtocolOperation_ne_takeDownPending {i : Instr} (h : isProtocolOperation i = true) (arg : U16) :
    i ≠ .takeDownPending arg := by
  rintro rfl; cases h

/-! ### What the protocol layer reads -/

/-- What the Register Protocol Layer may read of a state: all that is outside the block, and `dev_addr`. Every other
register of the block is replaced by its reset value. -/
def State.protocolView (s : State) : State :=
  { State.reset with
    devAddr := s.devAddr, regs := s.regs, clock := s.clock, agenda := s.agenda, busTurns := s.busTurns,
    freeCount := s.freeCount, responses := s.responses, trace := s.trace }

theorem State.protocolView_eq_iff {s t : State} :
    s.protocolView = t.protocolView ↔ SameOutside s t ∧ s.devAddr = t.devAddr := by
  simp only [State.protocolView, SameOutside, State.mk.injEq, true_and]
  exact and_comm

@[simp] theorem State.protocolView_idem (s : State) : s.protocolView.protocolView = s.protocolView := rfl

@[simp] theorem State.protocolView_respond (s : State) (r : Rsp) :
    (s.respond r).protocolView = s.protocolView.respond r := rfl

@[simp] theorem State.protocolView_cacheInfo (s : State) (bytes : List Byte) :
    (s.cacheInfo bytes).protocolView = s.protocolView := rfl

/-- The bus knows nothing of the block but `dev_addr`. -/
theorem State.protocolView_independent : BusIndependent State.protocolView where
  record _ _ := rfl
  nextTurn _ := rfl
  drop s := by
    unfold State.dropTurn
    rw [show s.protocolView.busTurns = s.busTurns from rfl]
    split <;> rfl
  move _ m := by cases m <;> rfl
  answer _ _ _ := apply_ite State.protocolView _ _ _
  bytes _ _ _ := rfl
  write _ _ _ _ := apply_ite State.protocolView _ _ _

theorem State.memRead_protocolView (s : State) (k : FrameKind) :
    s.protocolView.memRead k = ((s.memRead k).1, (s.memRead k).2.protocolView) := by
  rw [State.memRead, ← State.protocolView_independent.atBus]
  exact State.protocolView_independent.readAs _ _ _ _ _

theorem State.memWrite_protocolView (s : State) (k : FrameKind) (payload : List Byte) :
    s.protocolView.memWrite k payload = ((s.memWrite k payload).1, (s.memWrite k payload).2.protocolView) := by
  rw [State.memWrite, ← State.protocolView_independent.atBus]
  exact State.protocolView_independent.writeAs _ _ _ _ _ _

/-- If the rest of an operation does not look beyond the view, its end does not either. -/
theorem finish_protocolView {α : Type} (r : Except Byte α × State) {f : α → State → State}
    (hf : ∀ v t, (f v t).protocolView = (f v t.protocolView).protocolView) :
    (finish r f).protocolView = (finish (r.1, r.2.protocolView) f).protocolView := by
  obtain ⟨e | v, t⟩ := r
  · rfl
  · exact hf v t

/-- A protocol operation does not see what the view leaves out. -/
theorem exec_protocolView {i : Instr} (hi : isProtocolOperation i = true) (s : State) :
    SameUpTo State.protocolView (exec i s) (exec i s.protocolView) := by
  cases i
  case identify | readCounter | readGain | encoderAsFraction | readInfo =>
    show (finish (s.memRead _) _).protocolView = (finish (s.protocolView.memRead _) _).protocolView
    rw [State.memRead_protocolView]
    exact finish_protocolView _ fun _ _ => by simp
  case writeCounter | writeGain =>
    show State.protocolView (if _ then finish (s.memWrite _ _) _ else _) =
      State.protocolView (if _ then finish (s.protocolView.memWrite _ _) _ else _)
    rw [State.memWrite_protocolView]
    split
    · exact finish_protocolView _ fun _ _ => by simp
    · simp
  case readKeyStatus | poll | takeDownPending | isDown => cases hi
  case rdPid | rdInfo | rdCnt | wrCnt | rdKey | wrKeyClr | rdGain | wrGain => cases hi

/-- Two states with one view give outcomes with one view. -/
theorem exec_protocolView_congr {i : Instr} (hi : isProtocolOperation i = true) {s s' t t' : State}
    (hview : s.protocolView = s'.protocolView) (h : exec i s = .next t) (h' : exec i s' = .next t') :
    t.protocolView = t'.protocolView := by
  obtain ⟨u, hu⟩ := exec_next i s.protocolView
  have hs := exec_protocolView hi s
  have hs' := exec_protocolView hi s'
  rw [h, hu] at hs
  rw [← hview, h', hu] at hs'
  calc t.protocolView = u.protocolView := hs
    _ = t'.protocolView := hs'.symm

/-- Settles O36: the frames of the instructions give the two clauses on writing, and the protocol layer's view of a
state the clause on reading. -/
theorem protocolLayerOwnership : Obligations.ProtocolLayerOwnership := by
  refine ⟨fun i s t h hpoll htake => (exec_sameConfig_sameDebounce h hpoll htake).2, fun i s t hi h => ?_,
    fun i s s' hi hout hdev => ?_⟩
  · have hpoll := isProtocolOperation_ne_poll hi
    have htake := isProtocolOperation_ne_takeDownPending hi
    obtain ⟨hconfig, hdebounce⟩ := exec_sameConfig_sameDebounce h hpoll htake
    refine ⟨hconfig, hdebounce, fun hinfo => ?_⟩
    obtain ⟨_, _, hcache⟩ := exec_sameBlock h hpoll htake hinfo
    exact hcache
  · obtain ⟨t, ht⟩ := exec_next i s
    obtain ⟨t', ht'⟩ := exec_next i s'
    have hview := State.protocolView_eq_iff.mpr ⟨hout, hdev⟩
    obtain ⟨hout', _⟩ := State.protocolView_eq_iff.mp (exec_protocolView_congr hi hview ht ht')
    exact ⟨t, t', ht, ht', hout'⟩

end Sys2Proof.Machine
end

section
/-! Which frames each operation issues (R48): what the block's own record grows by, first of the shared operations, then
of each operation of the table. -/

namespace Sys2Proof.Machine

/-! ### What leaves the block's record alone -/

@[simp] theorem State.respond_blockFrames (s : State) (r : Rsp) : (s.respond r).blockFrames = s.blockFrames := rfl

@[simp] theorem State.recordPoll_blockFrames (s : State) (now : Nat) :
    (s.recordPoll now).blockFrames = s.blockFrames := rfl

@[simp] theorem State.setRegs_blockFrames (s : State) (m : Memory) : (s.setRegs m).blockFrames = s.blockFrames := rfl

@[simp] theorem State.clearKey_blockFrames (s : State) : s.clearKey.blockFrames = s.blockFrames := rfl

@[simp] theorem State.debounce_blockFrames (s : State) (now : Nat) (edge : Bool) :
    (s.debounce now edge).blockFrames = s.blockFrames :=
  State.blockFrames_congr (s.debounce_trace now edge)

/-- An operation issues no frame after its transactions. -/
theorem finish_blockFrames {α : Type} (r : Except Byte α × State) {f : α → State → State}
    (hf : ∀ v u, (f v u).blockFrames = u.blockFrames) : (finish r f).blockFrames = r.2.blockFrames := by
  obtain ⟨e | v, t⟩ := r
  · rfl
  · exact hf v t

theorem finish_respond_blockFrames {α : Type} (r : Except Byte α × State) (rsp : α → Rsp) :
    (finish r fun v u => u.respond (rsp v)).blockFrames = r.2.blockFrames :=
  finish_blockFrames r fun _ _ => rfl

/-! ### What the transactions add to it -/

/-- A read of the block is one read frame at its device. -/
theorem State.memRead_blockFrames (s : State) (k : FrameKind) : ∃ r,
    (s.memRead k).2.blockFrames = ⟨.block, s.headerTo (k.header 0#7), [], r⟩ :: s.blockFrames := by
  rcases s.memRead_cases k with ⟨e, taken, _, hm⟩ | ⟨_, hm⟩
  · exact ⟨.failed e, by simp [hm]⟩
  · exact ⟨.answered _, by rw [hm, State.record_blockFrames_own, State.atBus_blockFrames]⟩

/-- A write of the block is one write frame at its device. -/
theorem State.memWrite_blockFrames (s : State) (k : FrameKind) (payload : List Byte) : ∃ r,
    (s.memWrite k payload).2.blockFrames = ⟨.block, s.headerTo (k.header 0#7), payload, r⟩ :: s.blockFrames := by
  rcases s.memWrite_cases k payload with ⟨e, taken, _, hm⟩ | ⟨_, hm⟩
  · refine ⟨.failed e, ?_⟩
    cases taken <;> simp [hm]
  · exact ⟨.written, by simp [hm]⟩

/-- The frames of a read-and-acknowledge (R107), newest first: `RD_KEY`, and `WR_KEY_CLR` after it exactly when it read
a nonzero byte. -/
def State.KeyFrames (s : State) (new : List Transaction) : Prop :=
  (∃ r, new = [⟨.block, s.headerTo 0x000A1#20, [], r⟩] ∧ ∀ b, r = .answered [b] → b = 0x00#8) ∨
  (∃ r b, new = [⟨.block, s.headerTo 0x800A1#20, [0x00#8], r⟩, ⟨.block, s.headerTo 0x000A1#20, [], .answered [b]⟩] ∧
    b ≠ 0x00#8)

@[simp] theorem State.afterKeyRead_blockFrames (s : State) : s.afterKeyRead.blockFrames =
    ⟨.block, s.headerTo 0x000A1#20, [], .answered [s.atBus.keyStatus]⟩ :: s.blockFrames := by
  simp [State.afterKeyRead]

@[simp] theorem State.afterKeyClear_blockFrames (s : State) : s.afterKeyClear.blockFrames =
    ⟨.block, s.headerTo 0x800A1#20, [0x00#8], .written⟩ :: s.afterKeyRead.blockFrames := by
  simp [State.afterKeyClear]

@[simp] theorem State.afterFailedClear_blockFrames (s : State) (e : Byte) (taken : Bool) :
    (s.afterFailedClear e taken).blockFrames =
      ⟨.block, s.headerTo 0x800A1#20, [0x00#8], .failed e⟩ :: s.afterKeyRead.blockFrames := by
  cases taken <;> simp [State.afterFailedClear]

theorem State.KeyFails.blockFrames {s u : State} {e : Byte} (h : s.KeyFails e u) :
    ∃ new, u.blockFrames = new ++ s.blockFrames ∧ s.KeyFrames new := by
  obtain ⟨taken, ⟨_, rfl⟩ | ⟨_, hk, _, rfl⟩⟩ := h
  · exact ⟨[_], by simp, .inl ⟨.failed e, rfl, nofun⟩⟩
  · exact ⟨[_, _], by simp, .inr ⟨.failed e, _, rfl, hk⟩⟩

theorem State.KeyIdle.blockFrames {s u : State} (h : s.KeyIdle u) :
    ∃ new, u.blockFrames = new ++ s.blockFrames ∧ s.KeyFrames new := by
  obtain ⟨_, hk, rfl⟩ := h
  refine ⟨[_], s.afterKeyRead_blockFrames, .inl ⟨_, rfl, fun b hb => ?_⟩⟩
  cases hb
  exact hk

theorem State.KeyEdge.blockFrames {s u : State} (h : s.KeyEdge u) :
    ∃ new, u.blockFrames = new ++ s.blockFrames ∧ s.KeyFrames new := by
  obtain ⟨_, hk, _, rfl⟩ := h
  exact ⟨[_, _], by simp, .inr ⟨.written, _, rfl, hk⟩⟩

theorem State.readAndAcknowledge_blockFrames (s : State) :
    ∃ new, s.readAndAcknowledge.2.blockFrames = new ++ s.blockFrames ∧ s.KeyFrames new := by
  rcases s.key_cases with ⟨e, u, h⟩ | ⟨u, h⟩ | ⟨u, h⟩
  · rw [State.readAndAcknowledge_fails h]; exact h.blockFrames
  · rw [State.readAndAcknowledge_idle h]; exact h.blockFrames
  · rw [State.readAndAcknowledge_edge h]; exact h.blockFrames

/-! ### What each operation adds to it -/

/-- An operation that reads and then answers issues one read frame. -/
theorem finish_memRead_blockFrames (s : State) (k : FrameKind) {f : List Byte → State → State}
    (hf : ∀ v u, (f v u).blockFrames = u.blockFrames) : ∃ new,
      (finish (s.memRead k) f).blockFrames = new ++ s.blockFrames ∧
        ∃ r, new = [⟨.block, s.headerTo (k.header 0#7), [], r⟩] := by
  obtain ⟨r, hr⟩ := s.memRead_blockFrames k
  exact ⟨[_], (finish_blockFrames _ hf).trans hr, r, rfl⟩

/-- An operation that writes an operand in its range issues one write frame, and none otherwise. -/
theorem ite_memWrite_blockFrames (s : State) (k : FrameKind) (payload : List Byte) {c : Bool} {q : Prop} [Decidable q]
    (hc : c = true ↔ q) (ok out : Rsp) : ∃ new,
      State.blockFrames (if c then finish (s.memWrite k payload) fun _ u => u.respond ok else s.respond out) =
        new ++ s.blockFrames ∧
      if q then ∃ r, new = [⟨.block, s.headerTo (k.header 0#7), payload, r⟩] else new = [] := by
  by_cases hq : q
  · obtain ⟨r, hr⟩ := s.memWrite_blockFrames k payload
    rw [if_pos (hc.mpr hq)]
    exact ⟨[_], (finish_respond_blockFrames _ _).trans hr, by rw [if_pos hq]; exact ⟨r, rfl⟩⟩
  · rw [if_neg (mt hc.mp hq)]
    exact ⟨[], rfl, by rw [if_neg hq]⟩

/-- `POLL` issues no frame when it is rate-limited, and else those of the read-and-acknowledge. -/
theorem execPoll_blockFrames {s t : State} (h : execPoll s = .next t) : ∃ new,
    t.blockFrames = new ++ s.blockFrames ∧
      ((s.rateLimited s.clock = true ∧ new = []) ∨ (s.rateLimited s.clock = false ∧ s.KeyFrames new)) := by
  rcases execPoll_cases s with ⟨hl, hp⟩ | ⟨hl, ⟨e, u, hk, hp⟩ | ⟨u, hk, hp⟩ | ⟨u, hk, hp⟩⟩ <;> cases hp.symm.trans h
  · exact ⟨[], rfl, .inl ⟨hl, rfl⟩⟩
  all_goals
    obtain ⟨new, hnew, hframes⟩ := hk.blockFrames
    exact ⟨new, by simpa using hnew, .inr ⟨hl, hframes⟩⟩

/-- Settles O38: the operations of the table one by one, by what the read, the write or the read-and-acknowledge that
each is made of adds to the record. -/
theorem operationsIssueTheirFrames : Obligations.OperationsIssueTheirFrames := by
  intro i s t hi h
  cases i
  case identify | readInfo | readCounter | readGain | encoderAsFraction =>
    cases h; exact finish_memRead_blockFrames s _ fun _ _ => rfl
  case writeCounter v => cases h; exact ite_memWrite_blockFrames s _ _ (counterInRange_iff v) _ _
  case writeGain v => cases h; exact ite_memWrite_blockFrames s _ _ (gainInRange_iff v) _ _
  case readKeyStatus =>
    cases h
    rw [finish_respond_blockFrames]
    exact s.readAndAcknowledge_blockFrames
  case poll => exact execPoll_blockFrames h
  case takeDownPending =>
    cases h
    refine ⟨[], ?_, rfl⟩
    rw [State.respond_blockFrames]
    split <;> rfl
  case isDown => cases h; exact ⟨[], rfl, rfl⟩
  case rdPid | rdInfo | rdCnt | wrCnt | rdKey | wrKeyClr | rdGain | wrGain => cases hi

end Sys2Proof.Machine
end

section
/-! Two-byte values are put together and split with the more significant byte first (R77). -/

namespace Sys2Proof.Machine

/-- Settles O6: composing and splitting by the values of `be16`, `hi8` and `lo8` and their round trips; the layouts of a
register read and of `WR_CNT` are those of the definitions, and the rule's examples are computed. -/
theorem bigEndianPairs : Obligations.BigEndianPairs := by
  refine ⟨fun b0 b1 => ?composed, fun v => ?split, fun m reg => ?readFromCells, fun dev v => ?counterPayload, ?examples⟩
  case composed => exact ⟨rfl, be16_toNat b0 b1, hi8_be16 b0 b1, lo8_be16 b0 b1⟩
  case split => exact ⟨be16_hi8_lo8 v, hi8_toNat v, lo8_toNat v⟩
  case readFromCells => rfl
  case counterPayload => rfl
  case examples => decide

end Sys2Proof.Machine
end

section
/-! The four reads of the Register Protocol Layer that answer the cells they cover (R101, R102, R103, R105): how an
operation that reads goes on, the bytes of each frame, and each operation's answer. -/

namespace Sys2Proof.Machine

/-! ### An operation that reads -/

/-- After a successful read the operation goes on with the cells the frame covers (R100). -/
theorem State.finish_memRead_ok {s : State} (h : s.nextTurn.result = .ok) (k : FrameKind)
    (f : List Byte → State → State) :
    finish (s.memRead k) f = f (s.atBus.regs.readBlock k.reg.toNat k.len.toNat)
      (s.atBus.record ⟨.block, s.headerTo (k.header 0#7), [],
        .answered (s.atBus.regs.readBlock k.reg.toNat k.len.toNat)⟩) := by
  rw [State.memRead_ok h, finish_ok]

/-- A failed read ends the operation with the transport's code, whatever the operation was to do next (R100, R161). -/
theorem State.finish_memRead_err {s : State} {e : Byte} {taken : Bool} (h : s.nextTurn.result = .err e taken)
    (k : FrameKind) (f : List Byte → State → State) :
    finish (s.memRead k) f =
      (s.atBus.record ⟨.block, s.headerTo (k.header 0#7), [], .failed e⟩).respond (transportErrorRsp e) := by
  rw [State.memRead_err h, finish_error]

/-! ### The bytes of the frames -/

theorem Memory.readBlock_rdPid (m : Memory) :
    m.readBlock FrameKind.rdPid.reg.toNat FrameKind.rdPid.len.toNat = [m.read 0, m.read 1] := rfl

theorem Memory.readBlock_rdInfo (m : Memory) :
    m.readBlock FrameKind.rdInfo.reg.toNat FrameKind.rdInfo.len.toNat =
      [m.read 0, m.read 1, m.read 2, m.read 3, m.read 4, m.read 5, m.read 6, m.read 7] := rfl

theorem Memory.readBlock_rdCnt (m : Memory) :
    m.readBlock FrameKind.rdCnt.reg.toNat FrameKind.rdCnt.len.toNat = [m.read 8, m.read 9] := rfl

theorem Memory.readBlock_rdGain (m : Memory) :
    m.readBlock FrameKind.rdGain.reg.toNat FrameKind.rdGain.len.toNat = [m.read 0x0B] := rfl

@[simp] theorem wordAt_pair (b0 b1 : Byte) : wordAt [b0, b1] 0 = be16 b0 b1 := rfl

/-- Comparing a composed pair is comparing its value, on all 16 bits. -/
theorem be16_beq (b0 b1 : Byte) (v : U16) : (be16 b0 b1 == v) = decide (256 * b0.toNat + b1.toNat = v.toNat) := by
  rw [Bool.beq_eq_decide_eq, ← be16_toNat, decide_eq_decide]
  exact BitVec.toNat_inj.symm

/-! ### The answers -/

/-- Settles O16: the product ID is the pair of cells 0 and 1, compared by its value. -/
theorem identifyResult : Obligations.IdentifyResult := by
  refine fun s arg => ⟨fun hok => ?_, fun e taken herr => congrArg _ (State.finish_memRead_err herr .rdPid _)⟩
  show Host.Outcome.next (finish (s.memRead .rdPid) _) = _
  rw [State.finish_memRead_ok hok, Memory.readBlock_rdPid, header0_rdPid, wordAt_pair, be16_beq, be16_setWidth]
  rfl

/-- Settles O17: the burst is the eight cells 0 to 7 in order, so that the fields at its offsets are those cells'; the
cache update and the response leave all else as the read did. -/
theorem readInfoResult : Obligations.ReadInfoResult := by
  refine fun s arg => ⟨fun hok => ⟨_, rfl, ?_⟩, fun e taken herr => congrArg _ (State.finish_memRead_err herr .rdInfo _)⟩
  obtain ⟨hconfig, hdebounce⟩ := execReadInfo_sameConfig_sameDebounce (s := s) rfl
  rw [State.finish_memRead_ok hok, Memory.readBlock_rdInfo, header0_rdInfo] at hconfig hdebounce ⊢
  have hresponses (r : Rsp) : r :: s.atBus.responses = r :: s.responses := by rw [s.atBus_responses]
  exact ⟨⟨rfl, rfl, rfl, rfl, rfl, hresponses _, rfl⟩, hconfig, hdebounce, fun _ => rfl, rfl, s.atBus_agenda⟩

/-- Settles O18: the counter is the pair of cells 8 and 9, answered without a range check. -/
theorem readCounterResult : Obligations.ReadCounterResult := by
  refine fun s arg => ⟨fun hok => ?_, fun e taken herr => congrArg _ (State.finish_memRead_err herr .rdCnt _)⟩
  show Host.Outcome.next (finish (s.memRead .rdCnt) _) = _
  rw [State.finish_memRead_ok hok, Memory.readBlock_rdCnt, header0_rdCnt, wordAt_pair, be16_setWidth]
  rfl

/-- Settles O20: the gain is the byte of cell 0x0B, answered without a range check. -/
theorem readGainResult : Obligations.ReadGainResult := by
  refine fun s arg => ⟨fun hok => ?_, fun e taken herr => congrArg _ (State.finish_memRead_err herr .rdGain _)⟩
  show Host.Outcome.next (finish (s.memRead .rdGain) _) = _
  rw [State.finish_memRead_ok hok, Memory.readBlock_rdGain, header0_rdGain, byteAt_singleton, byte_setWidth]
  rfl

end Sys2Proof.Machine
end

section
/-! The Button Debounce State Machine (R132 to R134): what the two queries answer, each row of the table of `POLL` as a
whole poll, and which turns leave the press count alone. -/

namespace Sys2Proof.Machine

/-! ### The two queries -/

/-- Clearing a notification that is not there changes nothing. -/
theorem State.clearDown_of_not_pending {s : State} (h : s.downPending = false) : s.clearDown = s := by
  rw [State.clearDown, ← h]

/-- `TAKE_DOWN_PENDING` clears the flag and answers what it was, whichever it was (R132). -/
theorem execTakeDownPending_eq (s : State) :
    execTakeDownPending s = .next (s.clearDown.respond ⟨.ok, s.downPending, 0#56⟩) := by
  unfold execTakeDownPending
  split
  · rfl
  · next h => rw [State.clearDown_of_not_pending (Bool.eq_false_of_not_eq_true h)]; rfl

/-- Settles O29: both clauses are what the operation does in every state; in the state it leaves the flag is 0. -/
theorem takeDownPendingResult : Obligations.TakeDownPendingResult := by
  refine fun s arg => ⟨execTakeDownPending_eq s, fun t arg' h => ?_⟩
  cases (execTakeDownPending_eq s).symm.trans h
  exact execTakeDownPending_eq _

/-- Settles O30: the answer is the parity of the count, which the model computes as a Boolean equality. -/
theorem isDownResult : Obligations.IsDownResult := by
  intro s arg
  show Host.Outcome.next (s.respond (okRsp s.isOdd 0#56)) = _
  rw [State.isOdd, Bool.beq_eq_decide_eq]
  rfl

/-! ### A poll by the end of its key read -/

theorem execPoll_rateLimited {s : State} (h : s.rateLimited s.clock = true) :
    execPoll s = .next (s.respond ⟨.ok, false, 0#56⟩) := by
  unfold execPoll
  rw [if_pos h]
  rfl

section
variable {s u : State} (hl : s.rateLimited s.clock = false)
include hl

/-- An effective poll records its time and goes on with the key read (R131). -/
theorem execPoll_effective : execPoll s =
    .next (finish (s.recordPoll s.clock).readAndAcknowledge fun edge t =>
      (t.debounce s.clock edge).respond ⟨.ok, false, 0#56⟩) := by
  unfold execPoll
  rw [if_neg (Bool.eq_false_iff.mp hl)]
  rfl

theorem execPoll_fails {e : Byte} (h : s.KeyFails e u) :
    execPoll s = .next ((u.recordPoll s.clock).respond (transportErrorRsp e)) := by
  rw [execPoll_effective hl, State.readAndAcknowledge_fails (h.recordPoll _), finish_error]

theorem execPoll_idle (h : s.KeyIdle u) :
    execPoll s = .next (((u.recordPoll s.clock).debounce s.clock false).respond ⟨.ok, false, 0#56⟩) := by
  rw [execPoll_effective hl, State.readAndAcknowledge_idle (h.recordPoll _), finish_ok]

theorem execPoll_edge (h : s.KeyEdge u) :
    execPoll s = .next (((u.recordPoll s.clock).debounce s.clock true).respond ⟨.ok, false, 0#56⟩) := by
  rw [execPoll_effective hl, State.readAndAcknowledge_edge (h.recordPoll _), finish_ok]

end

/-! ### The rows of R134's table -/

theorem State.fsm_down_iff_isOdd (s : State) : s.fsm = .down ↔ s.isOdd = true :=
  s.fsm_down_iff.trans s.isOdd_iff.symm

theorem State.fsm_up_iff_not_isOdd (s : State) : s.fsm = .up ↔ s.isOdd = false :=
  s.fsm_up_iff.trans s.isOdd_false_iff.symm

/-- The parity that steps 3 to 5 test is the one the poll began with. -/
theorem SameDebounce.isOdd_recordPoll {s u : State} (h : SameDebounce s u) (now : Nat) :
    (u.recordPoll now).isOdd = s.isOdd := by
  obtain ⟨hcount, _⟩ := h
  rw [State.isOdd, State.recordPoll_pressCount, ← hcount, State.isOdd]

section
variable {s u : State} (hl : s.rateLimited s.clock = false)
include hl

theorem execPoll_up_idle (hup : s.fsm = .up) (h : s.KeyIdle u) :
    execPoll s = .next ((u.recordPoll s.clock).respond ⟨.ok, false, 0#56⟩) := by
  obtain ⟨_, hdebounce, _⟩ := h.block
  have hodd := (hdebounce.isOdd_recordPoll s.clock).trans (s.fsm_up_iff_not_isOdd.mp hup)
  rw [execPoll_idle hl h, State.debounce_up_idle hodd]

theorem execPoll_up_edge (hup : s.fsm = .up) (h : s.KeyEdge u) :
    execPoll s = .next (State.respond { u.recordPoll s.clock with
      pressCount := s.pressCount + 1, lastEdgeTime := s.clock, lastEdgeValid := true, downPending := true }
        ⟨.ok, false, 0#56⟩) := by
  obtain ⟨_, hdebounce, _⟩ := h.block
  have hodd := (hdebounce.isOdd_recordPoll s.clock).trans (s.fsm_up_iff_not_isOdd.mp hup)
  obtain ⟨hcount, _⟩ := hdebounce
  rw [execPoll_edge hl h, State.debounce_up_edge hodd, State.recordPoll_pressCount, hcount]

theorem execPoll_down_idle (h : s.KeyIdle u) (ht : s.clock ≤ s.lastEdgeTime + s.stuckTimeout) :
    execPoll s = .next ((u.recordPoll s.clock).respond ⟨.ok, false, 0#56⟩) := by
  obtain ⟨⟨_, _, _, htimeout⟩, ⟨_, _, _, hedge, _⟩, _⟩ := h.block
  rw [hedge, htimeout] at ht
  rw [execPoll_idle hl h, State.debounce_down_idle (s := u.recordPoll s.clock) ht]

theorem execPoll_down_stuck (hdown : s.fsm = .down) (h : s.KeyIdle u)
    (ht : s.lastEdgeTime + s.stuckTimeout < s.clock) :
    execPoll s = .next ((u.recordPoll s.clock).forceUp.respond ⟨.ok, false, 0#56⟩) := by
  obtain ⟨⟨_, _, _, htimeout⟩, hdebounce, _⟩ := h.block
  have hodd := (hdebounce.isOdd_recordPoll s.clock).trans (s.fsm_down_iff_isOdd.mp hdown)
  obtain ⟨_, _, _, hedge, _⟩ := hdebounce
  rw [hedge, htimeout] at ht
  rw [execPoll_idle hl h, State.debounce_down_stuck hodd ht]

theorem execPoll_down_edge (hdown : s.fsm = .down) (h : s.KeyEdge u) :
    execPoll s = .next (State.respond { u.recordPoll s.clock with
      pressCount := s.pressCount + 1, upPending := true } ⟨.ok, false, 0#56⟩) := by
  obtain ⟨_, hdebounce, _⟩ := h.block
  have hodd := (hdebounce.isOdd_recordPoll s.clock).trans (s.fsm_down_iff_isOdd.mp hdown)
  obtain ⟨hcount, _⟩ := hdebounce
  rw [execPoll_edge hl h, State.debounce_down_edge hodd, State.recordPoll_pressCount, hcount]

end

/-! ### Nothing else moves the press count -/

theorem exec_pressCount {i : Instr} {s t : State} (h : exec i s = .next t) (hpoll : ∀ arg, i ≠ .poll arg) :
    t.pressCount = s.pressCount := by
  by_cases htake : ∃ arg, i = .takeDownPending arg
  · obtain ⟨arg, rfl⟩ := htake
    cases (execTakeDownPending_eq s).symm.trans h
    rfl
  · obtain ⟨_, hcount, _⟩ := exec_sameConfig_sameDebounce h hpoll (not_exists.mp htake)
    exact hcount.symm

/-- Only a `POLL` of the caller and a construction move the press count (R134): the internal path and the bus bring no
`POLL`. -/
theorem step_pressCount {s t : State} (h : step s = .next t) :
    t.pressCount = s.pressCount ∨ ∃ turn rest, s.agenda = turn :: rest ∧ (turn.isPoll ∨ turn.isConstruct) := by
  rcases step_cases h with ⟨_, rfl⟩ | ⟨turn, rest, hagenda, hturn⟩
  · exact .inl rfl
  have hkeep (i : Instr) (hexec : exec i (s.withAgenda rest) = .next t) (hpoll : ∀ arg, i ≠ .poll arg) :
      t.pressCount = s.pressCount := (exec_pressCount hexec hpoll).trans (s.withAgenda_pressCount rest)
  rcases hturn with ⟨w, i, rfl, hdecode, _, hexec⟩ | ⟨w, rfl, rfl⟩ | ⟨w, i, rfl, _, hinternal, hexec⟩ | ⟨w, rfl, rfl⟩ |
    ⟨header, payload, i, rfl, hdecode, hexec⟩ | ⟨m, rfl, rfl⟩ | ⟨d, g, pi, st, rfl, _⟩
  · by_cases hpoll : ∃ arg, i = .poll arg
    · obtain ⟨arg, rfl⟩ := hpoll
      exact .inr ⟨_, rest, hagenda, .inl ⟨arg, hdecode⟩⟩
    · exact .inl (hkeep i hexec (not_exists.mp hpoll))
  · exact .inl rfl
  · refine .inl (hkeep i hexec ?_)
    rintro arg rfl
    cases hinternal
  · exact .inl rfl
  · refine .inl (hkeep i hexec ?_)
    rintro arg rfl
    cases decodeFrame_not_operation hdecode
  · exact .inl (State.applyMove_pressCount _ m)
  · exact .inr ⟨_, rest, hagenda, .inr trivial⟩

/-- Settles O26: the table row by row; a rate-limited poll only responds; a step that moves the state moves the press
count. -/
theorem buttonStateMachine : Obligations.ButtonStateMachine := by
  refine ⟨?rows, ?rateLimited, ?steps, State.key_cases, ?countZero, rfl⟩
  case rows =>
    rintro s u arg now rfl hdue
    have hl := (s.rateLimited_false_iff s.clock).mpr hdue
    exact ⟨execPoll_up_idle hl, execPoll_up_edge hl, fun _ => execPoll_down_idle hl, execPoll_down_stuck hl,
      execPoll_down_edge hl, fun e => execPoll_fails hl⟩
  case rateLimited =>
    intro s arg hvalid hearly
    exact ⟨_, execPoll_rateLimited ((s.rateLimited_iff s.clock).mpr ⟨hvalid, hearly⟩),
      ⟨rfl, rfl, rfl, rfl, rfl, rfl, rfl⟩, rfl⟩
  case steps =>
    intro s t h hmoved
    refine (step_pressCount h).resolve_left fun hcount => hmoved ?_
    exact State.fsm_congr (congrArg (· % 2) hcount.symm)
  case countZero =>
    intro s hzero
    rw [State.fsm_up_iff, hzero]

end Sys2Proof.Machine
end

section
/-! How an operation ends without doing its work: a write that is out of range is rejected (R163), and a transport error
ends the operation at the failed transaction (R161). -/

namespace Sys2Proof.Machine

/-! ### Rejected writes -/

theorem execWriteCounter_inRange {value : U16} (h : value.toNat ≤ 1023) (s : State) :
    execWriteCounter value s =
      .next (finish (s.memWrite .wrCnt (counterBytes value)) fun _ t => t.respond (okRsp true 0#56)) := by
  rw [execWriteCounter, if_pos ((counterInRange_iff value).mpr h)]

theorem execWriteCounter_outOfRange {value : U16} (h : 1023 < value.toNat) (s : State) :
    execWriteCounter value s = .next (s.respond (okRsp false 0#56)) := by
  rw [execWriteCounter, (counterInRange_false_iff value).mpr h, if_neg Bool.false_ne_true]

theorem execWriteGain_inRange {value : U16} (h : 1 ≤ value.toNat ∧ value.toNat ≤ 51) (s : State) :
    execWriteGain value s =
      .next (finish (s.memWrite .wrGain [lo8 value]) fun _ t => t.respond (okRsp true 0#56)) := by
  rw [execWriteGain, if_pos ((gainInRange_iff value).mpr h)]

theorem execWriteGain_outOfRange {value : U16} (h : value.toNat < 1 ∨ 51 < value.toNat) (s : State) :
    execWriteGain value s = .next (s.respond (okRsp false 0#56)) := by
  rw [execWriteGain, (gainInRange_false_iff value).mpr h, if_neg Bool.false_ne_true]

/-- Settles O23: an operand outside its range takes each write to its response at once. -/
theorem outOfRangeWritesAreRejected : Obligations.OutOfRangeWritesAreRejected :=
  fun s _ => ⟨fun h => execWriteCounter_outOfRange h s, fun h => execWriteGain_outOfRange h s⟩

/-! ### The bus record only grows -/

theorem State.applyEvent_trace_length_le (s : State) (e : BusEvent) :
    s.trace.length ≤ (s.applyEvent e).trace.length := by
  cases e with
  | move m => exact le_of_eq (congrArg List.length (s.applyMove_trace m).symm)
  | frame k dev v r =>
    rcases s.foreignFrame_cases k dev (k.payload v) r with ⟨_, reply, hf⟩ | ⟨_, reply, hf⟩ <;>
      rw [State.applyEvent, hf]
    · split <;> simp
    · simp

theorem State.atBus_trace_length_le (s : State) : s.trace.length ≤ s.atBus.trace.length :=
  State.environment_keeps (P := fun u => s.trace.length ≤ u.trace.length)
    (fun u e _ hu => hu.trans (u.applyEvent_trace_length_le e)) (le_of_eq (congrArg List.length s.dropTurn_trace.symm))

/-! ### A failed transaction -/

/-- `b` is reached from `s` by what happens on the bus alone: nothing of the block has moved, and the bus record has not
shrunk. -/
structure State.Reaches (s b : State) : Prop where
  block : SameBlock s b
  responses : b.responses = s.responses
  trace : s.trace.length ≤ b.trace.length

/-- From `s`, a transaction of the block that acted in `b` failed with the code `e`, `taken` or not, and left `u`: it is
the one new entry in the bus record since `b`. -/
structure State.FailedIn (s b : State) (e : Byte) (taken : Bool) (u : State) : Prop where
  block : SameBlock s u
  responses : u.responses = s.responses
  later : s.trace.length ≤ b.trace.length
  record : ∃ header payload, u.trace = ⟨.block, header, payload, .failed e⟩ :: b.trace
  cells : taken = false → SameCells b u

section
variable {s b u : State} {e : Byte} {taken : Bool}

theorem State.reaches_atBus (s : State) : s.Reaches s.atBus where
  block := by simp [SameBlock, SameConfig, SameDebounce, SameCache]
  responses := s.atBus_responses
  trace := s.atBus_trace_length_le

/-- The clearing write of the read-and-acknowledge acts in a state that the operation reaches. -/
theorem State.reaches_afterKeyRead_atBus (s : State) : s.Reaches s.afterKeyRead.atBus where
  block := by simp [State.afterKeyRead, SameBlock, SameConfig, SameDebounce, SameCache]
  responses := by simp [State.afterKeyRead]
  trace := calc
    s.trace.length ≤ s.atBus.trace.length := s.atBus_trace_length_le
    _ ≤ s.afterKeyRead.trace.length := Nat.le_succ _
    _ ≤ s.afterKeyRead.atBus.trace.length := s.afterKeyRead.atBus_trace_length_le

/-- A failed read, or a failed write that was not taken. -/
theorem State.Reaches.failedUntaken (h : s.Reaches b) (header : Word20) (payload : List Byte) :
    s.FailedIn b e taken (b.record ⟨.block, header, payload, .failed e⟩) :=
  ⟨h.block, h.responses, h.trace, ⟨header, payload, rfl⟩, fun _ _ => rfl⟩

theorem State.Reaches.failedWrite (h : s.Reaches b) (m : Memory) (header : Word20) (payload : List Byte) :
    s.FailedIn b e taken ((if taken then b.setRegs m else b).record ⟨.block, header, payload, .failed e⟩) := by
  cases taken with
  | false => exact h.failedUntaken header payload
  | true => exact ⟨h.block, h.responses, h.trace, ⟨header, payload, rfl⟩, nofun⟩

theorem State.FailedIn.trace_length (h : s.FailedIn b e taken u) : u.trace.length = b.trace.length + 1 := by
  obtain ⟨header, payload, htrace⟩ := h.record
  rw [htrace, List.length_cons]

theorem State.keyRead_failedIn (s : State) (e : Byte) (taken : Bool) :
    s.FailedIn s.atBus e taken (s.atBus.record ⟨.block, s.headerTo 0x000A1#20, [], .failed e⟩) :=
  s.reaches_atBus.failedUntaken _ _

theorem State.keyClear_failedIn (s : State) (e : Byte) (taken : Bool) :
    s.FailedIn s.afterKeyRead.atBus e taken (s.afterFailedClear e taken) :=
  s.reaches_afterKeyRead_atBus.failedWrite _ _ _

theorem State.KeyFails.failedIn (h : s.KeyFails e u) : ∃ b taken, s.FailedIn b e taken u := by
  obtain ⟨taken, ⟨_, rfl⟩ | ⟨_, _, _, rfl⟩⟩ := h
  · exact ⟨_, taken, s.keyRead_failedIn e taken⟩
  · exact ⟨_, taken, s.keyClear_failedIn e taken⟩

/-! ### The end of an operation by a transport error -/

theorem execReadKeyStatus_fails (h : s.KeyFails e u) :
    execReadKeyStatus s = .next (u.respond (transportErrorRsp e)) := by
  rw [execReadKeyStatus, State.readAndAcknowledge_fails h, finish_error]

/-- The operation that began in `s` ended in `t` by the failure of a transaction that acted in `b`: the error is
reported, that transaction is the last one, and configuration and cache are as before (R161). -/
def State.EndedIn (s b : State) (e : Byte) (taken : Bool) (t : State) : Prop :=
  t.responses = ⟨.transportError, false, e.setWidth 56⟩ :: s.responses ∧ t.trace.length = b.trace.length + 1 ∧
    (taken = false → SameCells b t) ∧ SameConfig s t ∧ SameCache s t

/-- Of the debounce state only the time of the last effective poll has moved, to `now`. -/
def State.OnlyPolled (s : State) (now : Nat) (t : State) : Prop :=
  t.pressCount = s.pressCount ∧ t.lastEdgeTime = s.lastEdgeTime ∧ t.lastEdgeValid = s.lastEdgeValid ∧
    t.downPending = s.downPending ∧ t.upPending = s.upPending ∧ t.lastPollTime = now ∧ t.lastPollValid = true

theorem State.FailedIn.endedIn (h : s.FailedIn b e taken u) :
    s.EndedIn b e taken (u.respond (transportErrorRsp e)) := by
  obtain ⟨hconfig, _, hcache⟩ := h.block
  exact ⟨congrArg _ h.responses, h.trace_length, h.cells, hconfig, hcache⟩

theorem State.FailedIn.sameDebounce (h : s.FailedIn b e taken u) (r : Rsp) : SameDebounce s (u.respond r) := by
  obtain ⟨_, hdebounce, _⟩ := h.block
  exact hdebounce

/-- A `POLL` has written its poll time before its key read (R131); otherwise it ends as the other operations do. -/
theorem State.FailedIn.endedIn_recordPoll (h : s.FailedIn b e taken u) (now : Nat) :
    s.EndedIn b e taken ((u.recordPoll now).respond (transportErrorRsp e)) := h.endedIn

theorem State.FailedIn.onlyPolled (h : s.FailedIn b e taken u) (now : Nat) (r : Rsp) :
    s.OnlyPolled now ((u.recordPoll now).respond r) := by
  obtain ⟨_, ⟨hcount, _, _, hedgeTime, hedgeValid, hdown, hup⟩, _⟩ := h.block
  exact ⟨hcount.symm, hedgeTime.symm, hedgeValid.symm, hdown.symm, hup.symm, rfl, rfl⟩

/-! ### An operation whose first transaction fails -/

theorem State.finish_memRead_failedIn (h : s.nextTurn.result = .err e taken) (k : FrameKind)
    (f : List Byte → State → State) : ∃ u, s.FailedIn s.atBus e taken u ∧
      finish (s.memRead k) f = u.respond (transportErrorRsp e) :=
  ⟨_, s.reaches_atBus.failedUntaken _ _, State.finish_memRead_err h k f⟩

/-- A failed write ends the operation with the transport's code, as a failed read does. -/
theorem State.finish_memWrite_failedIn (h : s.nextTurn.result = .err e taken) (k : FrameKind) (payload : List Byte)
    (f : Unit → State → State) : ∃ u, s.FailedIn s.atBus e taken u ∧
      finish (s.memWrite k payload) f = u.respond (transportErrorRsp e) := by
  rw [State.memWrite_err h]
  exact ⟨_, s.reaches_atBus.failedWrite _ _ _, rfl⟩

/-- Every operation but `POLL` that issues a transaction ends at the failed one. -/
theorem exec_failedIn {i : Instr} (h : s.nextTurn.result = .err e taken) (hop : isOperation i = true)
    (htake : ∀ arg, i ≠ .takeDownPending arg) (hdown : ∀ arg, i ≠ .isDown arg)
    (hcounter : ∀ v, i = .writeCounter v → v.toNat ≤ 1023)
    (hgain : ∀ v, i = .writeGain v → 1 ≤ v.toNat ∧ v.toNat ≤ 51) (hpoll : ∀ arg, i ≠ .poll arg) :
    ∃ u, s.FailedIn s.atBus e taken u ∧ exec i s = .next (u.respond (transportErrorRsp e)) := by
  cases i
  case identify | readInfo | readCounter | readGain | encoderAsFraction =>
    obtain ⟨u, hu, hfinish⟩ := State.finish_memRead_failedIn h _ _
    exact ⟨u, hu, congrArg _ hfinish⟩
  case writeCounter v =>
    obtain ⟨u, hu, hfinish⟩ := State.finish_memWrite_failedIn h _ _ _
    exact ⟨u, hu, (execWriteCounter_inRange (hcounter v rfl) s).trans (congrArg _ hfinish)⟩
  case writeGain v =>
    obtain ⟨u, hu, hfinish⟩ := State.finish_memWrite_failedIn h _ _ _
    exact ⟨u, hu, (execWriteGain_inRange (hgain v rfl) s).trans (congrArg _ hfinish)⟩
  case readKeyStatus =>
    exact ⟨_, s.keyRead_failedIn e taken, execReadKeyStatus_fails ⟨taken, .inl ⟨h, rfl⟩⟩⟩
  case poll arg => exact absurd rfl (hpoll arg)
  case takeDownPending arg => exact absurd rfl (htake arg)
  case isDown arg => exact absurd rfl (hdown arg)
  case rdPid | rdInfo | rdCnt | wrCnt | rdKey | wrKeyClr | rdGain | wrGain => cases hop

end

/-! ### No operation reports an error that did not happen -/

/-- What a call of the bus by an operation begun in `s` comes to: no response yet, and an error only after a failed
transaction. -/
structure State.Called (s : State) {α : Type} (r : Except Byte α × State) : Prop where
  responses : r.2.responses = s.responses
  failed : ∀ e, r.1 = .error e → ∃ b taken, s.FailedIn b e taken r.2

theorem State.memRead_called (s : State) (k : FrameKind) : s.Called (s.memRead k) := by
  rcases s.memRead_cases k with ⟨e, taken, _, hm⟩ | ⟨_, hm⟩ <;> rw [hm]
  · refine ⟨s.atBus_responses, ?_⟩
    rintro _ ⟨⟩
    exact ⟨_, taken, s.reaches_atBus.failedUntaken _ _⟩
  · exact ⟨s.atBus_responses, nofun⟩

theorem State.memWrite_called (s : State) (k : FrameKind) (payload : List Byte) : s.Called (s.memWrite k payload) := by
  rcases s.memWrite_cases k payload with ⟨e, taken, _, hm⟩ | ⟨_, hm⟩ <;> rw [hm]
  · refine ⟨(s.reaches_atBus.failedWrite _ _ _).responses, ?_⟩
    rintro _ ⟨⟩
    exact ⟨_, taken, s.reaches_atBus.failedWrite _ _ _⟩
  · exact ⟨s.atBus_responses, nofun⟩

theorem State.readAndAcknowledge_called (s : State) : s.Called s.readAndAcknowledge := by
  rcases s.key_cases with ⟨e, u, h⟩ | ⟨u, h⟩ | ⟨u, h⟩ <;> obtain ⟨_, _, _, _, hresponses⟩ := h.block
  · rw [State.readAndAcknowledge_fails h]
    refine ⟨hresponses, ?_⟩
    rintro _ ⟨⟩
    exact h.failedIn
  · rw [State.readAndAcknowledge_idle h]; exact ⟨hresponses, nofun⟩
  · rw [State.readAndAcknowledge_edge h]; exact ⟨hresponses, nofun⟩

/-- What an instruction from `s` has reported in `t`: nothing, `OK`, or the code of its last transaction, which failed. -/
def State.Reported (s t : State) : Prop :=
  t.responses = s.responses ∨ (∃ flag data, t.responses = okRsp flag data :: s.responses) ∨
    ∃ b e taken u, s.FailedIn b e taken u ∧ t.responses = transportErrorRsp e :: s.responses ∧ t.trace = u.trace

theorem State.reported_ok (s : State) (flag : Bool) (data : BitVec 56) : s.Reported (s.respond (okRsp flag data)) :=
  .inr (.inl ⟨flag, data, rfl⟩)

theorem State.KeyFails.reported {s u t : State} {e : Byte} (h : s.KeyFails e u)
    (hresponses : t.responses = transportErrorRsp e :: u.responses) (htrace : t.trace = u.trace) : s.Reported t := by
  obtain ⟨b, taken, hu⟩ := h.failedIn
  exact .inr (.inr ⟨b, e, taken, u, hu, hresponses.trans (congrArg _ hu.responses), htrace⟩)

/-- An operation that answers `OK` after a successful call reports rightly. -/
theorem finish_reported {s : State} {α : Type} {r : Except Byte α × State} {f : α → State → State} (hr : s.Called r)
    (hf : ∀ v u, ∃ flag data, (f v u).responses = okRsp flag data :: u.responses) : s.Reported (finish r f) := by
  obtain ⟨e | v, u⟩ := r
  · obtain ⟨b, taken, hu⟩ := hr.failed e rfl
    exact .inr (.inr ⟨b, e, taken, u, hu, congrArg _ hu.responses, rfl⟩)
  · obtain ⟨flag, data, hresponses⟩ := hf v u
    exact .inr (.inl ⟨flag, data, hresponses.trans (congrArg _ hr.responses)⟩)

/-- A bus frame by itself gives no response (log 8). -/
theorem State.busFrame_responses (s : State) (k : FrameKind) (dev : DevAddr) (payload : List Byte) :
    (s.busFrame k dev payload).responses = s.responses := by
  simp [State.busFrame]

theorem execPoll_reported {s t : State} (h : execPoll s = .next t) : s.Reported t := by
  rcases execPoll_cases s with ⟨_, hp⟩ | ⟨_, ⟨e, u, hk, hp⟩ | ⟨u, hk, hp⟩ | ⟨u, hk, hp⟩⟩ <;> cases hp.symm.trans h
  · exact s.reported_ok false 0#56
  · exact hk.reported rfl rfl
  all_goals
    obtain ⟨_, _, _, _, hresponses⟩ := hk.block
    exact .inr (.inl ⟨false, 0#56, by simp [hresponses, okRsp]⟩)

theorem exec_reported {i : Instr} {s t : State} (h : exec i s = .next t) : s.Reported t := by
  cases i
  case identify | readInfo | readCounter | readGain | encoderAsFraction =>
    cases h; exact finish_reported (s.memRead_called _) fun _ _ => ⟨_, _, rfl⟩
  case writeCounter | writeGain =>
    cases h
    show s.Reported (if _ then _ else _)
    split
    · exact finish_reported (s.memWrite_called _ _) fun _ _ => ⟨_, _, rfl⟩
    · exact s.reported_ok _ _
  case readKeyStatus => cases h; exact finish_reported s.readAndAcknowledge_called fun _ _ => ⟨_, _, rfl⟩
  case poll => exact execPoll_reported h
  case takeDownPending =>
    cases (execTakeDownPending_eq s).symm.trans h
    exact .inr (.inl ⟨_, _, rfl⟩)
  case isDown => cases h; exact s.reported_ok _ _
  case rdPid | rdInfo | rdCnt | wrCnt | rdKey | wrKeyClr | rdGain | wrGain =>
    cases h; exact .inl (s.busFrame_responses _ _ _)

/-- Settles O39: the operations that issue a transaction end at the failed one, `POLL` with its time written; the same
for the clearing write; and an error is reported by no other end of an instruction. -/
theorem transportErrorEndsTheOperation : Obligations.TransportErrorEndsTheOperation := by
  refine ⟨?first, ?clear, ?onlyThen⟩
  case first =>
    rintro i s e taken h ⟨hop, htake, hdown, hcounter, hgain, hdue⟩
    by_cases hpoll : ∃ arg, i = .poll arg
    · obtain ⟨arg, rfl⟩ := hpoll
      have hu := s.keyRead_failedIn e taken
      obtain ⟨hresponses, hlength, hcells, hconfig, hcache⟩ := hu.endedIn_recordPoll s.clock
      exact ⟨_, execPoll_fails (hdue arg rfl) ⟨taken, .inl ⟨h, rfl⟩⟩, hresponses, hlength, hcells, hconfig, hcache,
        fun hne => absurd rfl (hne arg), fun _ _ => hu.onlyPolled s.clock _⟩
    · have hpoll := not_exists.mp hpoll
      obtain ⟨u, hu, hexec⟩ := exec_failedIn h hop htake hdown hcounter hgain hpoll
      obtain ⟨hresponses, hlength, hcells, hconfig, hcache⟩ := hu.endedIn
      exact ⟨_, hexec, hresponses, hlength, hcells, hconfig, hcache, fun _ => hu.sameDebounce _,
        fun arg hi => absurd hi (hpoll arg)⟩
  case clear =>
    intro i s e taken arg hread hkey hclear hi
    have hfails : s.KeyFails e (s.afterFailedClear e taken) := ⟨taken, .inr ⟨hread, hkey, hclear, rfl⟩⟩
    have hu := s.keyClear_failedIn e taken
    rcases hi with rfl | ⟨rfl, hdue⟩
    · obtain ⟨hresponses, hlength, hcells, hconfig, hcache⟩ := hu.endedIn
      exact ⟨_, execReadKeyStatus_fails hfails, hresponses, hlength, hcells, hconfig, hcache,
        fun _ => hu.sameDebounce _, nofun⟩
    · obtain ⟨hresponses, hlength, hcells, hconfig, hcache⟩ := hu.endedIn_recordPoll s.clock
      exact ⟨_, execPoll_fails hdue hfails, hresponses, hlength, hcells, hconfig, hcache, nofun,
        fun _ => hu.onlyPolled s.clock _⟩
  case onlyThen =>
    intro i s t r h hr hstatus
    rcases exec_reported h with hnone | ⟨flag, data, hok⟩ | ⟨b, e, taken, u, hu, herr, htrace⟩
    · exact absurd (hr.symm.trans hnone) (List.cons_ne_self r _)
    · cases (List.cons.inj (hr.symm.trans hok)).1
      cases hstatus
    · cases (List.cons.inj (hr.symm.trans herr)).1
      obtain ⟨header, payload, hhead⟩ := hu.record
      refine ⟨_, e, by rw [htrace, hhead]; rfl, rfl, rfl, rfl, ?_⟩
      rw [htrace, hu.trace_length]
      exact Nat.lt_succ_of_le hu.later

end Sys2Proof.Machine
end

section
/-! The three formats: decoder and encoder are inverse to each other (R71, R75), and so are a response and its RSP word
(R73). -/

namespace Sys2Proof.Machine

/-! ### CMD words -/

/-- The operation that a decoded word's `op` stands for, put together again, is the word. -/
theorem cmdWord_of_op {w : Word20} {n : Nat} (h : (w.extractLsb' 16 4).toNat = n) :
    cmdWord (BitVec.ofNat 4 n) (w.extractLsb' 0 16) = w := by
  rw [← h, BitVec.ofNat_toNat, BitVec.setWidth_eq, cmdWord_fields]

theorem encode_of_decodeCmd {w : Word20} {i : Instr} (h : decodeCmd w = .ok i) : encode i = .cmd w := by
  unfold decodeCmd at h
  dsimp only at h
  split at h
  case h_12 => cases h
  all_goals
    next hop =>
      cases h
      exact congrArg Packet.cmd (cmdWord_of_op hop)

/-! ### BUS frames -/

/-- A payload that a frame's row admits is the one its instruction is encoded with. -/
theorem encode_of_instr? {k : FrameKind} {dev : DevAddr} {payload : List Byte} {i : Instr}
    (h : k.instr? dev payload = some i) : encode i = .frame (k.header dev) payload := by
  cases k <;> rcases payload with _ | ⟨b0, _ | ⟨b1, _ | ⟨b2, rest⟩⟩⟩ <;>
    simp only [FrameKind.instr?, noPayload, onePayload, twoPayload, reduceCtorEq] at h
  case wrCnt.cons.cons.nil =>
    cases h
    rw [encode, hi8_be16, lo8_be16]
  case wrKeyClr.cons.nil =>
    split at h <;> cases h
    next hb => rw [encode, hb]
  all_goals cases h; rfl

theorem encode_of_decodeFrame {header : Word20} {payload : List Byte} {i : Instr}
    (h : decodeFrame header payload = .ok i) : encode i = .frame header payload := by
  obtain ⟨k, hk, hi⟩ := decodeFrame_ok h
  rw [encode_of_instr? hi, header_of_frameKindOf hk]

/-! ### Both directions -/

/-- Settles O1: an operation's fields are read back from its CMD word, a frame's kind and device from its header. -/
theorem decodeEncodeAgree : Obligations.DecodeEncodeAgree := by
  intro i
  cases i
  case identify | readInfo | readCounter | writeCounter | readGain | writeGain | readKeyStatus | encoderAsFraction |
      poll | takeDownPending | isDown =>
    simp only [encode, decode, decodeCmd, cmdWord_op, cmdWord_arg]
    rfl
  case wrCnt dev value =>
    simp only [encode, decode, decodeFrame_header, FrameKind.instr?, twoPayload, be16_hi8_lo8]
  case rdPid | rdInfo | rdCnt | rdKey | wrKeyClr | rdGain | wrGain =>
    exact decodeFrame_header _ _ _

/-- Settles O2: a word is put together again from the fields it decodes by, on each port. -/
theorem encodeDecodeAgree : Obligations.EncodeDecodeAgree := by
  intro p i h
  cases p with
  | cmd word => exact encode_of_decodeCmd h
  | frame header payload => exact encode_of_decodeFrame h

/-- Settles O3, by evaluating the decoder. -/
theorem sampleWordsDecode : Obligations.SampleWordsDecode := by
  unfold Obligations.SampleWordsDecode
  decide

/-- Settles O4: the header with the device address 0 is the table value, and each field of a header is read back. -/
theorem frameHeadersAreTheTable : Obligations.FrameHeadersAreTheTable := by
  intro dev
  have table (k : FrameKind) {base : Word20} (h : k.header 0#7 = base) :
      k.header dev = base ||| (dev.setWidth 20 <<< 12) := by rw [header_eq_or, h]
  exact ⟨table _ header0_rdPid, table _ header0_rdInfo, table _ header0_rdCnt, table _ header0_wrCnt,
    table _ header0_rdKey, table _ header0_wrKeyClr, table _ header0_rdGain, table _ header0_wrGain,
    fun k => ⟨frameKindOf_header dev k, headerDev_header dev k, headerReg_header dev k, headerLen_header dev k⟩⟩

/-! ### RSP words -/

theorem Status.ofCode_code (st : Status) : Status.ofCode st.code = some st := by cases st <;> rfl

theorem Status.code_of_ofCode {c : BitVec 2} {st : Status} (h : Status.ofCode c = some st) : st.code = c := by
  revert c; cases st <;> decide

theorem Status.ofCode_eq_none_iff (c : BitVec 2) : Status.ofCode c = none ↔ c = 3#2 := by
  revert c; decide

theorem Rsp.toWord_toNat (r : Rsp) : r.toWord.toNat =
    r.status.code.toNat * 2 ^ 57 + (if r.flag then 2 ^ 56 else 0) + r.data.toNat := by
  rw [Rsp.toWord, BitVec.toNat_append, ← Nat.shiftLeft_add_eq_or_of_lt r.data.isLt, BitVec.toNat_append,
    ← Nat.shiftLeft_add_eq_or_of_lt (BitVec.isLt _), Nat.shiftLeft_eq, Nat.shiftLeft_eq]
  cases r.flag <;> simp <;> omega

theorem Rsp.toWord_status (r : Rsp) : r.toWord.extractLsb' 57 2 = r.status.code := by
  apply BitVec.eq_of_toNat_eq
  have hstatus := r.status.code.isLt
  have hdata := r.data.isLt
  rw [BitVec.extractLsb'_toNat, Rsp.toWord_toNat, Nat.shiftRight_eq_div_pow]
  split <;> omega

theorem Rsp.toWord_flag (r : Rsp) : r.toWord.getLsbD 56 = r.flag := by
  have hdata := r.data.isLt
  rw [BitVec.getLsbD, Nat.testBit_eq_decide_div_mod_eq, Rsp.toWord_toNat]
  cases r.flag <;> simp <;> omega

theorem Rsp.toWord_data (r : Rsp) : r.toWord.extractLsb' 0 56 = r.data := by
  apply BitVec.eq_of_toNat_eq
  have hdata := r.data.isLt
  rw [BitVec.extractLsb'_toNat, Rsp.toWord_toNat]
  split <;> omega

/-- Two words with the same three fields are the same word. -/
theorem rspWord_eq_of_fields {v w : RspWord} (hstatus : v.extractLsb' 57 2 = w.extractLsb' 57 2)
    (hflag : v.getLsbD 56 = w.getLsbD 56) (hdata : v.extractLsb' 0 56 = w.extractLsb' 0 56) : v = w := by
  apply BitVec.eq_of_toNat_eq
  have hs := congrArg BitVec.toNat hstatus
  have hd := congrArg BitVec.toNat hdata
  have hf := congrArg Bool.toNat hflag
  simp only [BitVec.extractLsb'_toNat, Nat.shiftRight_eq_div_pow, BitVec.getLsbD, Nat.toNat_testBit] at hs hd hf
  have hv := v.isLt
  have hw := w.isLt
  omega

/-- Settles O5: the three fields are read back from a word and determine it. -/
theorem rspWordRoundTrip : Obligations.RspWordRoundTrip := by
  refine ⟨fun r => ?readBack, fun w r h => ?putBack, fun w => ?unread, Rsp.toWord_toNat⟩
  case readBack =>
    rw [Rsp.ofWord, Rsp.toWord_status, Rsp.toWord_flag, Rsp.toWord_data, Status.ofCode_code]
    rfl
  case putBack =>
    obtain ⟨st, hst, rfl⟩ := Option.map_eq_some_iff.mp h
    exact rspWord_eq_of_fields ((Rsp.toWord_status _).trans (Status.code_of_ofCode hst)) (Rsp.toWord_flag _)
      (Rsp.toWord_data _)
  case unread => rw [Rsp.ofWord, Option.map_eq_none_iff, Status.ofCode_eq_none_iff]

end Sys2Proof.Machine
end

section
/-! The invariants that every step keeps (R23, R33, R35, R36, R205): each is a property that the shared operations keep,
and so, by `step_keeps`, every step. -/

namespace Sys2Proof.Machine

/-! ### The counter's two cells -/

/-- A counter written into its cells is read back from them (R45, R77). -/
@[simp] theorem Memory.read16_writeBlock_counterBytes (m : Memory) (v : U16) :
    (m.writeBlock Config.regCounter (counterBytes v)).read16 Config.regCounter = v := by
  have h8 : (m.writeBlock Config.regCounter (counterBytes v)).read Config.regCounter = hi8 v := by
    simp [Memory.read_writeBlock, counterBytes]
  have h9 : (m.writeBlock Config.regCounter (counterBytes v)).read (Config.regCounter + 1) = lo8 v := by
    simp [Memory.read_writeBlock, counterBytes]
  rw [Memory.read16, h8, h9, be16_hi8_lo8]

theorem Memory.read_writeBlock_counterBytes_other (m : Memory) (v : U16) {a : Nat} (h8 : a ≠ 8) (h9 : a ≠ 9) :
    (m.writeBlock Config.regCounter (counterBytes v)).read a = m.read a :=
  Memory.read_writeBlock_outside m (by simp [Config.regCounter, counterBytes]; omega)

/-! ### The model's invariant -/

/-- The invariant speaks of the register file, the device address and the debounce state only. -/
theorem State.Inv.of_sameDebounce {s t : State} (h : s.Inv) (hregs : t.regs.wf) (hdev : t.devAddr = s.devAddr)
    (hdebounce : SameDebounce s t) : t.Inv := by
  obtain ⟨_, hlegal, hinv⟩ := h
  obtain ⟨hcount, hpollTime, hpollValid, hedgeTime, hedgeValid, _⟩ := hdebounce
  refine ⟨hregs, hdev ▸ hlegal, ?_⟩
  simpa only [State.DebounceInv, hcount, hpollTime, hpollValid, hedgeTime, hedgeValid] using hinv

theorem State.Inv.afterWrite {s : State} (h : s.Inv) {k : FrameKind} {payload : List Byte} (dev : DevAddr)
    (hp : k.reg.toNat + payload.length ≤ Config.mapSize) : (s.afterWrite k dev payload).Inv :=
  h.of_sameDebounce (State.afterWrite_wf h.1 dev hp) (by simp) (by simp [SameDebounce])

/-- An effective poll is not earlier than the one before it, so an edge that was not later than that one is not later
than this one (I3 of R23). -/
theorem State.Inv.recordPoll {s : State} (h : s.Inv) {now : Nat} (hl : s.rateLimited now = false) :
    (s.recordPoll now).Inv := by
  obtain ⟨hregs, hdev, hinv⟩ := h
  refine ⟨hregs, hdev, fun hodd => ?_⟩
  obtain ⟨hedgeValid, hpollValid, hle⟩ := hinv hodd
  refine ⟨hedgeValid, rfl, ?_⟩
  rcases (s.rateLimited_false_iff now).mp hl with hinvalid | hdue
  · cases hpollValid.symm.trans hinvalid
  · show s.lastEdgeTime ≤ now
    omega

theorem State.Inv.debounce {s : State} (h : s.Inv) (hpoll : s.lastPollValid = true) (edge : Bool) :
    (s.debounce s.lastPollTime edge).Inv := by
  obtain ⟨hregs, hdev, hinv⟩ := h
  rcases s.debounce_cases s.lastPollTime edge with ⟨_, hd⟩ | ⟨_, _, hd⟩ | ⟨_, _, _, hd⟩ | ⟨_, hodd, hd⟩ <;> rw [hd]
  · exact ⟨hregs, hdev, hinv⟩
  · exact ⟨hregs, hdev, fun _ => ⟨rfl, hpoll, le_rfl⟩⟩
  · exact ⟨hregs, hdev, fun hodd => nomatch (show 0 % 2 = 1 from hodd)⟩
  · have hodd := s.isOdd_iff.mp hodd
    refine ⟨hregs, hdev, fun hodd' => ?_⟩
    change (s.pressCount + 1) % 2 = 1 at hodd'
    omega

theorem State.kept_inv : Kept State.Inv false fun _ => True where
  respond _ _ h := h
  record _ _ h := h
  drop _ h := h.of_sameDebounce (by simpa using h.1) (by simp) (by simp [SameDebounce])
  move _ m _ h := h.of_sameDebounce (State.applyMove_wf h.1 m) (by simp) (by simp [SameDebounce])
  answer _ _ _ h := h.of_sameDebounce (by simpa using h.1) (by simp) (by simp [SameDebounce])
  wrCnt _ dev _ _ h := h.afterWrite dev (by simp [counterBytes, Config.mapSize])
  wrGain _ dev _ _ h := h.afterWrite dev (by simp [Config.mapSize])
  wrKeyClr _ dev h := h.afterWrite dev (by simp [Config.mapSize])
  cache _ _ h := h
  poll _ _ hl h := h.recordPoll hl
  debounce _ edge hpoll h := h.debounce hpoll edge
  take _ h := h

/-- Construction takes a legal address, and the count starts at an even value (R190, R191). -/
theorem construct_inv {d : Nat} {g : Byte} {pi st : Option Nat} {s t : State} (h : construct d g pi st s = .next t)
    (hs : s.Inv) : t.Inv := by
  obtain ⟨hd, hd', hdev, _, _, _, hcount, _, _, _, _, _, hregs, _⟩ := construct_next h
  refine ⟨hregs ▸ hs.1, ?_, fun hodd => ?_⟩
  · rw [hdev]
    intro hzero
    have := congrArg BitVec.toNat hzero
    simp at this
    omega
  · rw [hcount] at hodd
    cases hodd

/-- Settles O41: the shared operations and a construction keep the invariant. -/
theorem stepKeepsInvariant : Obligations.StepKeepsInvariant := fun _ _ hs h =>
  step_keeps State.kept_inv (fun _ _ hs => hs) (fun _ _ _ _ _ _ hc hs => construct_inv hc hs) nofun
    (fun _ _ => trivial) hs h

/-- Settles O15: the register file is empty, the address 0x54 and the count 0. -/
theorem resetMeetsInvariant : Obligations.ResetMeetsInvariant :=
  ⟨State.reset_regs_wf, by decide, nofun⟩

/-! ### The contract of `COUNTER` and `GAIN` -/

/-- The contract speaks of the three cells of the two registers only. -/
theorem State.InContract.congr {s t : State} (h : s.InContract) (h8 : t.regs.read 8 = s.regs.read 8)
    (h9 : t.regs.read 9 = s.regs.read 9) (h11 : t.regs.read 11 = s.regs.read 11) : t.InContract := by
  simpa only [State.InContract, State.counter, State.gain, Memory.read16, Config.regCounter, Config.regGain, h8, h9,
    h11] using h

theorem State.InContract.writeCounter {s : State} (h : s.InContract) {v : U16} (hv : v.toNat ≤ Config.counterMax) :
    (s.setRegs (s.regs.writeBlock Config.regCounter (counterBytes v))).InContract := by
  obtain ⟨_, hgain⟩ := h
  refine ⟨?_, ?_⟩
  · rw [State.counter, State.setRegs_regs, Memory.read16_writeBlock_counterBytes]
    exact hv
  · rwa [State.gain, State.setRegs_regs, Memory.read_writeBlock_counterBytes_other _ _ (by decide) (by decide)]

theorem State.InContract.writeGain {s : State} (h : s.InContract) {b : Byte}
    (hb : Config.gainMin ≤ b.toNat ∧ b.toNat ≤ Config.gainMax) :
    (s.setRegs (s.regs.write Config.regGain b)).InContract := by
  obtain ⟨hcounter, _⟩ := h
  refine ⟨?_, ?_⟩
  · rwa [State.counter, State.setRegs_regs, Memory.read16, Memory.read_write_other _ _ (by decide),
      Memory.read_write_other _ _ (by decide)]
  · rwa [State.gain, State.setRegs_regs, Memory.read_write_same]

/-- A write to a cell of neither register keeps the contract. -/
theorem State.InContract.writeOther {s : State} (h : s.InContract) {a : Nat} (b : Byte) (h8 : a ≠ 8) (h9 : a ≠ 9)
    (h11 : a ≠ 11) : (s.setRegs (s.regs.write a b)).InContract :=
  h.congr (Memory.read_write_other _ _ h8.symm) (Memory.read_write_other _ _ h9.symm)
    (Memory.read_write_other _ _ h11.symm)

theorem State.InContract.applyMove {s : State} (h : s.InContract) {m : EnvMove} (hm : m.Legal) :
    (s.applyMove m).InContract := by
  cases m with
  | button n => exact h.writeOther _ (by decide) (by decide) (by decide)
  | rotate c =>
    refine h.writeCounter ?_
    have hc := c.isLt
    rw [BitVec.toNat_ofNat, Config.counterMax]
    omega
  | clock t => exact h
  | exchange cells =>
    simp only [State.InContract, State.counter, State.gain, Memory.read16,
      s.exchange_read cells (show Config.regCounter < 12 by decide),
      s.exchange_read cells (show Config.regCounter + 1 < 12 by decide),
      s.exchange_read cells (show Config.regGain < 12 by decide)]
    exact hm
  | readdress n => exact h.writeOther _ (by decide) (by decide) (by decide)

/-- A write frame keeps what storing its bytes keeps: at another device it stores none here. -/
theorem State.afterWrite_keeps {P : State → Prop} {s : State} {k : FrameKind} {payload : List Byte} (dev : DevAddr)
    (h : P s) (hw : P (s.setRegs (s.regs.writeBlock k.reg.toNat payload))) : P (s.afterWrite k dev payload) := by
  unfold State.afterWrite
  split
  · exact hw
  · exact h

theorem State.kept_inContract : Kept State.InContract true EnvMove.Legal where
  respond _ _ h := h
  record _ _ h := h
  drop _ h := h.congr (by simp) (by simp) (by simp)
  move _ _ hm h := h.applyMove hm
  answer _ _ _ h := h.congr (by simp) (by simp) (by simp)
  wrCnt _ dev _ hv h := State.afterWrite_keeps dev h (h.writeCounter (hv rfl))
  wrGain _ dev _ hb h := State.afterWrite_keeps dev h (h.writeGain (hb rfl))
  wrKeyClr _ dev h := State.afterWrite_keeps dev h (h.writeOther 0x00#8 (by decide) (by decide) (by decide))
  cache _ _ h := h
  poll _ _ _ h := h
  debounce _ _ _ h := h.congr (by simp) (by simp) (by simp)
  take _ h := h

/-- Under legal traffic and with a legal turn, every move of the step is a legal one. -/
theorem State.stepMayMove_legal {s : State} (hturn : ∀ turn rest, s.agenda = turn :: rest → turn.Legal)
    (htraffic : s.LegalTraffic) {m : EnvMove} (h : s.StepMayMove m) : m.Legal := by
  have hmay : s.MayMove m → m.Legal := fun hm => hm.elim (htraffic.1 _) (htraffic.2 _)
  unfold State.StepMayMove at h
  split at h
  case h_1 m' rest hagenda => exact h ▸ hturn _ rest hagenda
  case h_2 | h_3 | h_4 => exact hmay h
  case h_5 | h_6 => exact h.elim

/-- Settles O42: the shared operations keep the contract when every payload and every move is in range. -/
theorem stepKeepsTheContract : Obligations.StepKeepsTheContract := fun s t hturn htraffic hs h =>
  step_keeps State.kept_inContract (fun _ _ hs => hs)
    (fun _ _ _ _ _ _ hc hs => by
      obtain ⟨_, _, _, _, _, _, _, _, _, _, _, _, hregs, _⟩ := construct_next hc
      exact hs.congr (by rw [hregs]) (by rw [hregs]) (by rw [hregs]))
    (fun _ => ⟨htraffic, hturn⟩) (fun _ hm => State.stepMayMove_legal hturn htraffic hm) hs h

/-! ### The identity cells -/

theorem State.applyMove_read_identity {s : State} {m : EnvMove} {a : Nat} (ha : a < 8) (hm : ¬ m.Reidentifies a) :
    (s.applyMove m).regs.read a = s.regs.read a := by
  refine State.applyEvent_read (e := .move m) fun hw => ?_
  obtain ⟨_, ⟨⟩, hre⟩ := BusEvent.writes_identity (show a < 0x08 from ha) hw
  exact hm hre

theorem State.afterWrite_read_identity (s : State) {k : FrameKind} (hk : k.isWrite = true) (dev : DevAddr)
    (payload : List Byte) {a : Nat} (ha : a < 8) : (s.afterWrite k dev payload).regs.read a = s.regs.read a := by
  have hreg := (FrameKind.write_reg hk).1
  exact State.afterWrite_keeps (P := fun u => u.regs.read a = s.regs.read a) dev rfl
    (Memory.read_writeBlock_outside _ (.inl (by omega)))

/-- An identity cell keeps its content through all that no exchange or new address is part of (R57, R205). -/
theorem State.kept_identity {a : Nat} (ha : a < 8) (v : Byte) :
    Kept (fun u => u.regs.read a = v) false fun m => ¬ m.Reidentifies a where
  respond _ _ h := h
  record _ _ h := h
  drop _ h := by rwa [State.dropTurn_regs]
  move _ _ hm h := (State.applyMove_read_identity ha hm).trans h
  answer _ _ _ h := by rwa [State.afterAnswer_regs]
  wrCnt s dev _ _ h := (s.afterWrite_read_identity rfl dev _ ha).trans h
  wrGain s dev _ _ h := (s.afterWrite_read_identity rfl dev _ ha).trans h
  wrKeyClr s dev h := (s.afterWrite_read_identity rfl dev _ ha).trans h
  cache _ _ h := h
  poll _ _ _ h := h
  debounce _ _ _ h := by rwa [State.debounce_regs]
  take _ h := h

/-- Settles O43: the shared operations keep an identity cell, and a construction keeps the register file. -/
theorem identityCellsChangeOnlyFromOutside : Obligations.IdentityCellsChangeOnlyFromOutside := fun _ _ h _ ha hm =>
  step_keeps (State.kept_identity ha _) (fun _ _ hs => hs)
    (fun _ _ _ _ _ _ hc hs => by
      obtain ⟨_, _, _, _, _, _, _, _, _, _, _, _, hregs, _⟩ := construct_next hc
      rwa [← hregs])
    nofun hm rfl h

end Sys2Proof.Machine
end

section
/-! What each agent's turn comes to: the instruction of a packet, the response to an illegal command, a move of the
environment, a construction, and the three stops (R5, R81, R192). -/

namespace Sys2Proof.Machine

/-! ### One turn -/

/-- The outcome of a step whose turn comes to `f`. -/
def Fetched.outcome : Fetched → Result State
  | .run i t => exec i t
  | .ended o => o

theorem step_eq_outcome (s : State) : step s = (fetch s).outcome := by
  unfold step
  cases fetch s <;> rfl

theorem step_nil {s : State} (h : s.agenda = []) : step s = .next s := by
  rw [step_eq_outcome, fetch, h]
  rfl

theorem step_cons {s : State} {turn : Turn} {rest : List Turn} (h : s.agenda = turn :: rest) :
    step s = (takeTurn turn (s.withAgenda rest)).outcome := by
  rw [step_eq_outcome, fetch, h]

/-! ### CMD words -/

theorem fetchCmd_accepted {accepts : Instr → Bool} {w : Word20} {i : Instr} (hi : decodeCmd w = .ok i)
    (ha : accepts i = true) (s : State) : fetchCmd accepts w s = .run i s := by
  simp only [fetchCmd, hi, ha, if_true]

theorem fetchCmd_rejected {accepts : Instr → Bool} {w : Word20} (h : ∀ i, decodeCmd w = .ok i → accepts i = false)
    (s : State) : fetchCmd accepts w s = .ended (.next s.illegalCommand) := by
  unfold fetchCmd
  split
  · next i hi => rw [h i hi, if_neg Bool.false_ne_true]
  · rfl

/-- A CMD word never stops the machine: it runs an operation or is answered `ILLEGAL_COMMAND`. -/
theorem fetchCmd_next (accepts : Instr → Bool) (w : Word20) (s : State) :
    ∃ t, (fetchCmd accepts w s).outcome = .next t := by
  unfold fetchCmd
  split
  · next i _ =>
    split
    · exact exec_next i s
    · exact ⟨_, rfl⟩
  · exact ⟨_, rfl⟩

/-- The codes of the operations: 0x6 is the one of the internal path, and none is above 0xA (R72, R81). -/
theorem op_of_decodeCmd {op : BitVec 4} {arg : U16} {i : Instr} (h : decodeCmd (cmdWord op arg) = .ok i) :
    (callerVisible i = true ∧ internalOnly i = false ∧ op.toNat < 0xB ∧ op.toNat ≠ 0x6) ∨
      (callerVisible i = false ∧ internalOnly i = true ∧ op.toNat = 0x6) := by
  simp only [decodeCmd, cmdWord_op] at h
  split at h
  case h_7 hop => cases h; exact .inr ⟨rfl, rfl, hop⟩
  case h_12 => cases h
  all_goals
    next hop =>
      cases h
      exact .inl ⟨rfl, rfl, by omega, by omega⟩

/-- Settles O10: a turn whose packet decodes to what its port accepts comes to that instruction. -/
theorem stepRunsDecodedInstruction : Obligations.StepRunsDecodedInstruction := by
  refine fun s i rest => ⟨fun word hagenda hi ha => ?caller, fun word hagenda hi ha => ?internal,
    fun header payload hagenda hi => ?bus⟩ <;> rw [step_cons hagenda]
  case caller => rw [takeTurn, fetchCmd_accepted hi ha]; rfl
  case internal => rw [takeTurn, fetchCmd_accepted hi ha]; rfl
  case bus =>
    change decodeFrame header payload = .ok i at hi
    simp only [takeTurn, fetchFrame, hi]
    rfl

/-- Settles O11: no operation that the port accepts has the word's code. -/
theorem illegalCommandsAreRefused : Obligations.IllegalCommandsAreRefused := by
  refine fun s op arg rest => ⟨fun hagenda hop => ?caller, fun hagenda hop => ?internal⟩ <;> rw [step_cons hagenda]
  case caller =>
    rw [takeTurn, fetchCmd_rejected fun i hi => ?_]
    · rfl
    · rcases op_of_decodeCmd hi with ⟨_, _, hlt, hne⟩ | ⟨hcaller, _⟩
      · omega
      · exact hcaller
  case internal =>
    rw [takeTurn, fetchCmd_rejected fun i hi => ?_]
    · rfl
    · rcases op_of_decodeCmd hi with ⟨_, hinternal, _⟩ | ⟨_, _, h6⟩
      · exact hinternal
      · exact absurd h6 hop

/-! ### Bus frames -/

theorem decodeFrame_ok_iff {header : Word20} {payload : List Byte} {i : Instr} :
    decodeFrame header payload = .ok i ↔ encode i = .frame header payload :=
  ⟨encode_of_decodeFrame, fun h => by
    have hi := decodeEncodeAgree i
    rwa [h] at hi⟩

/-- A header that is one of the eight frames' stays within the map (R36). -/
theorem header_within_map {header : Word20} {payload : List Byte} {i : Instr}
    (h : decodeFrame header payload = .ok i) : (headerReg header).toNat + (headerLen header).toNat ≤ 12 := by
  obtain ⟨k, hk, _⟩ := decodeFrame_ok h
  rw [← header_of_frameKindOf hk, headerReg_header, headerLen_header]
  cases k <;> decide

/-- A frame that does not decode stops the step: past the map by its register, else by its header. -/
theorem fetchFrame_rejected {header : Word20} {payload : List Byte} (h : ∀ i, decodeFrame header payload ≠ .ok i)
    (s : State) : fetchFrame header payload s =
      if (headerReg header).toNat + (headerLen header).toNat ≤ 12 then .ended (.refused (.undefinedFrame header))
      else .ended (.fault (.unmappedRegister (headerReg header))) := by
  cases hd : decodeFrame header payload with
  | ok i => exact absurd hd (h i)
  | error r =>
    have hr := decodeFrame_error hd
    by_cases hmap : (headerReg header).toNat + (headerLen header).toNat ≤ 12
    · rw [rejectFrame, Config.mapSize, if_pos hmap] at hr
      simp only [fetchFrame, hd, hr, if_pos hmap]
    · rw [rejectFrame, Config.mapSize, if_neg hmap] at hr
      simp only [fetchFrame, hd, hr, if_neg hmap]

/-- A frame on the bus runs, or stops the step by one of the two names. -/
theorem fetchFrame_cases (header : Word20) (payload : List Byte) (s : State) :
    (∃ t, (fetchFrame header payload s).outcome = .next t) ∨
    ((∀ i, encode i ≠ .frame header payload) ∧
      (fetchFrame header payload s).outcome = .refused (.undefinedFrame header)) ∨
    (12 < (headerReg header).toNat + (headerLen header).toNat ∧
      (fetchFrame header payload s).outcome = .fault (.unmappedRegister (headerReg header))) := by
  by_cases h : ∃ i, decodeFrame header payload = .ok i
  · obtain ⟨i, hi⟩ := h
    simp only [fetchFrame, hi]
    exact .inl (exec_next i s)
  · have h := not_exists.mp h
    have hencode : ∀ i, encode i ≠ .frame header payload := fun i hi => h i (decodeFrame_ok_iff.mpr hi)
    rw [fetchFrame_rejected h]
    split
    · exact .inr (.inl ⟨hencode, rfl⟩)
    · next hmap => exact .inr (.inr ⟨not_le.mp hmap, rfl⟩)

/-! ### Constructions -/

theorem construct_refused {d : Nat} (h : d = 0 ∨ 127 < d) (g : Byte) (pi st : Option Nat) (s : State) :
    construct d g pi st s = .refused (.constructionRefused d) := by
  rw [construct, if_neg (by omega)]

theorem construct_accepted {d : Nat} (h : 1 ≤ d ∧ d ≤ 127) (g : Byte) (pi st : Option Nat) (s : State) :
    ∃ t, construct d g pi st s = .next t := by
  rw [construct, if_pos h]
  exact ⟨_, rfl⟩

/-- Everything that can stop a step (log 10). -/
theorem step_stops_cases (s : State) :
    (∃ t, step s = .next t) ∨
    (∃ h p rest, s.agenda = .bus h p :: rest ∧ (∀ i, encode i ≠ .frame h p) ∧ step s = .refused (.undefinedFrame h)) ∨
    (∃ h p rest, s.agenda = .bus h p :: rest ∧ 12 < (headerReg h).toNat + (headerLen h).toNat ∧
      step s = .fault (.unmappedRegister (headerReg h))) ∨
    (∃ d g pi st rest, s.agenda = .construct d g pi st :: rest ∧ (d = 0 ∨ 127 < d) ∧
      step s = .refused (.constructionRefused d)) := by
  cases hagenda : s.agenda with
  | nil => exact .inl ⟨s, step_nil hagenda⟩
  | cons turn rest =>
    rw [step_cons hagenda]
    cases turn with
    | caller w => exact .inl (fetchCmd_next _ w _)
    | internal w => exact .inl (fetchCmd_next _ w _)
    | bus h p =>
      rcases fetchFrame_cases h p (s.withAgenda rest) with hnext | ⟨hencode, hstop⟩ | ⟨hmap, hstop⟩
      · exact .inl hnext
      · exact .inr (.inl ⟨h, p, rest, rfl, hencode, hstop⟩)
      · exact .inr (.inr (.inl ⟨h, p, rest, rfl, hmap, hstop⟩))
    | env m => exact .inl ⟨_, rfl⟩
    | construct d g pi st =>
      by_cases hd : 1 ≤ d ∧ d ≤ 127
      · exact .inl (construct_accepted hd g pi st _)
      · exact .inr (.inr (.inr ⟨d, g, pi, st, rest, rfl, by omega, construct_refused (by omega) g pi st _⟩))

/-- Settles O12: the cases of a step that stops one way, each stop's own cause the other. -/
theorem stopsAreNamed : Obligations.StopsAreNamed := by
  refine fun s => ⟨fun f hf => ?fault, fun r hr => ?refused,
    fun h p rest hagenda => ⟨fun hmap => ?past, fun hmap hi => ?none⟩, fun d g pi st rest hagenda hd => ?construct⟩
  case fault =>
    rcases step_stops_cases s with ⟨t, h⟩ | ⟨h, p, rest, _, _, hstop⟩ | ⟨h, p, rest, hagenda, hmap, hstop⟩ |
      ⟨d, g, pi, st, rest, _, _, hstop⟩
    · cases h.symm.trans hf
    · cases hstop.symm.trans hf
    · cases hstop.symm.trans hf
      exact ⟨h, p, rest, hagenda, rfl, hmap⟩
    · cases hstop.symm.trans hf
  case refused =>
    rcases step_stops_cases s with ⟨t, h⟩ | ⟨h, p, rest, hagenda, hencode, hstop⟩ | ⟨h, p, rest, _, _, hstop⟩ |
      ⟨d, g, pi, st, rest, hagenda, hd, hstop⟩
    · cases h.symm.trans hr
    · cases hstop.symm.trans hr
      exact .inl ⟨h, p, rest, hagenda, rfl, hencode⟩
    · cases hstop.symm.trans hr
    · cases hstop.symm.trans hr
      exact .inr ⟨d, g, pi, st, rest, hagenda, rfl, hd⟩
  case past =>
    rw [step_cons hagenda, takeTurn, fetchFrame_rejected (fun i hi => ?_), if_neg (not_le.mpr hmap)]
    · rfl
    · exact absurd (header_within_map hi) (not_le.mpr hmap)
  case none =>
    rw [step_cons hagenda, takeTurn, fetchFrame_rejected (fun i h => hi i (decodeFrame_ok_iff.mp h)), if_pos hmap]
    rfl
  case construct =>
    rw [step_cons hagenda, takeTurn, construct_refused hd]
    rfl

/-- Settles O14: an accepted construction leaves what `construct_next` lists. -/
theorem constructionResetsTheBlock : Obligations.ConstructionResetsTheBlock := by
  refine fun s d g pi st rest hagenda => ⟨fun hd => ?refused, fun hlow hhigh => ?accepted⟩
  case refused => rw [step_cons hagenda, takeTurn, construct_refused hd]; rfl
  case accepted =>
    obtain ⟨t, ht⟩ := construct_accepted ⟨hlow, hhigh⟩ g pi st (s.withAgenda rest)
    obtain ⟨_, _, hdev, hgain, hinterval, htimeout, hcount, hpoll, hedge, hdown, hup, hinfo, hregs, hclock, hag, hturns,
      _, hresponses, htrace⟩ := construct_next ht
    refine ⟨t, (step_cons hagenda).trans ht, ?_, hgain, hinterval, htimeout, t.fsm_up_iff.mpr (by rw [hcount]), hcount,
      hpoll, hedge, hdown, hup, hinfo, hregs.symm, hclock.symm, hag.symm, hturns.symm, hresponses.symm, htrace.symm⟩
    rw [hdev, BitVec.toNat_ofNat, Nat.mod_eq_of_lt (by omega)]

/-! ### Moves of the environment -/

theorem step_env {s : State} {m : EnvMove} {rest : List Turn} (h : s.agenda = .env m :: rest) :
    step s = .next ((s.withAgenda rest).applyMove m) := step_cons h

theorem buttonByte_toNat (n : Fin 255) : (buttonByte n).toNat = n.val + 1 := by
  have := n.isLt
  rw [buttonByte, BitVec.toNat_ofNat, Nat.mod_eq_of_lt (by omega)]

theorem busAddrByte_toNat (n : Fin 127) : (busAddrByte n).toNat = n.val + 1 := by
  have := n.isLt
  rw [busAddrByte, BitVec.toNat_ofNat, Nat.mod_eq_of_lt (by omega)]

theorem State.applyMove_readdress_read (s : State) (n : Fin 127) :
    ((s.applyMove (.readdress n)).regs.read 7).toNat = n.val + 1 :=
  (congrArg BitVec.toNat (Memory.read_write_same _ _ _)).trans (busAddrByte_toNat n)

theorem State.applyMove_rotate_counter (s : State) (c : Fin 1024) :
    (s.applyMove (.rotate c)).counter.toNat = c.val := by
  have := c.isLt
  have h : (s.applyMove (.rotate c)).counter = BitVec.ofNat 16 c.val := Memory.read16_writeBlock_counterBytes _ _
  rw [h, BitVec.toNat_ofNat, Nat.mod_eq_of_lt (by omega)]

/-- Settles O13: no move touches the block, and each stores its own bytes in its own cells. -/
theorem environmentMovesOnlyItsOwn : Obligations.EnvironmentMovesOnlyItsOwn := by
  intro s m rest hagenda
  refine ⟨_, step_env hagenda, by simp [SameConfig], by simp [SameDebounce], by simp [SameCache], by simp, by simp,
    by simp, by simp, ?_⟩
  cases m with
  | button n =>
    refine ⟨?_, rfl, fun a ha => Memory.read_write_other _ _ ha⟩
    exact (congrArg BitVec.toNat (Memory.read_write_same _ _ _)).trans (buttonByte_toNat n)
  | rotate c =>
    exact ⟨State.applyMove_rotate_counter _ c, rfl, fun a h8 h9 => Memory.read_writeBlock_counterBytes_other _ _ h8 h9⟩
  | clock now => exact ⟨rfl, fun _ => rfl⟩
  | exchange cells =>
    refine ⟨fun a ha => State.exchange_read _ cells ha, rfl, fun a ha => ?_⟩
    exact Memory.read_writeBlock_outside _ (.inr (by simpa [Config.regPid] using ha))
  | readdress n => exact ⟨State.applyMove_readdress_read _ n, rfl, fun a ha => Memory.read_write_other _ _ ha⟩

end Sys2Proof.Machine
end

section
/-! The button along steps and runs (R15 to R20, R134, R199): what one step does to count and pending flags, said once,
and what a run without the turns that could move a register leaves of it. -/

namespace Sys2Proof.Machine

/-! ### Where a step's instruction comes from -/

/-- The turn puts the instruction `i` on a port that accepts it (R81). -/
def Turn.Runs : Turn → Instr → Prop
  | .caller word, i => decodeCmd word = .ok i ∧ callerVisible i = true
  | .internal word, i => decodeCmd word = .ok i ∧ internalOnly i = true
  | .bus header payload, i => decodeFrame header payload = .ok i
  | .env _, _ | .construct _ _ _ _, _ => False

theorem internalOnly_of_callerVisible {i : Instr} (h : callerVisible i = true) : internalOnly i = false := by
  revert h
  cases i <;> simp [callerVisible, internalOnly]

/-- An operation that the caller may issue comes from the caller only. -/
theorem Turn.Runs.caller {turn : Turn} {i : Instr} (h : turn.Runs i) (hi : callerVisible i = true) :
    ∃ word, turn = .caller word ∧ decodeCmd word = .ok i := by
  cases turn with
  | caller word => exact ⟨word, rfl, h.1⟩
  | internal word => cases (internalOnly_of_callerVisible hi).symm.trans h.2
  | bus header payload =>
    have hop := decodeFrame_not_operation h
    rw [isOperation, hi] at hop
    cases hop
  | env m => exact h.elim
  | construct d g pi st => exact h.elim

/-- Where a next state of a step comes from, all ports taken together. -/
theorem step_turn_cases {s t : State} (h : step s = .next t) :
    (s.agenda = [] ∧ t = s) ∨
    ∃ turn rest, s.agenda = turn :: rest ∧
      ((∃ i, turn.Runs i ∧ exec i (s.withAgenda rest) = .next t) ∨
      t = (s.withAgenda rest).illegalCommand ∨
      (∃ m, t = (s.withAgenda rest).applyMove m) ∨
      (turn.isConstruct ∧ ∃ d g pi st, construct d g pi st (s.withAgenda rest) = .next t)) := by
  rcases step_cases h with hnone | ⟨turn, rest, hagenda, hturn⟩
  · exact .inl hnone
  refine .inr ⟨turn, rest, hagenda, ?_⟩
  rcases hturn with ⟨w, i, rfl, hi, hport, hexec⟩ | ⟨w, _, ht⟩ | ⟨w, i, rfl, hi, hport, hexec⟩ | ⟨w, _, ht⟩ |
    ⟨header, payload, i, rfl, hi, hexec⟩ | ⟨m, _, ht⟩ | ⟨d, g, pi, st, rfl, hc⟩
  · exact .inl ⟨i, ⟨hi, hport⟩, hexec⟩
  · exact .inr (.inl ht)
  · exact .inl ⟨i, ⟨hi, hport⟩, hexec⟩
  · exact .inr (.inl ht)
  · exact .inl ⟨i, hi, hexec⟩
  · exact .inr (.inr (.inl ⟨m, ht⟩))
  · exact .inr (.inr (.inr ⟨trivial, d, g, pi, st, hc⟩))

/-! ### What a `POLL` does to the button -/

/-- What a `POLL` from `s` to `t` does to the count and the pending flags (R134). -/
inductive State.Polled (s t : State) : Prop
  | still (count : t.pressCount = s.pressCount) (down : t.downPending = s.downPending)
      (up : t.upPending = s.upPending)
  | pressed (wasUp : s.fsm = .up) (count : t.pressCount = s.pressCount + 1) (down : t.downPending = true)
      (up : t.upPending = s.upPending)
  | recovered (wasDown : s.fsm = .down) (late : s.lastEdgeTime + s.stuckTimeout < s.clock) (count : t.pressCount = 0)
      (down : t.downPending = false) (up : t.upPending = true)
  | released (wasDown : s.fsm = .down) (count : t.pressCount = s.pressCount + 1)
      (down : t.downPending = s.downPending) (up : t.upPending = true)

/-- Steps 3 to 5 of a `POLL`, on the state the key read left. -/
theorem State.debounce_polled {s u : State} (hconfig : SameConfig s u) (hdebounce : SameDebounce s u) (edge : Bool)
    (r : Rsp) : s.Polled (((u.recordPoll s.clock).debounce s.clock edge).respond r) := by
  have hodd := hdebounce.isOdd_recordPoll s.clock
  obtain ⟨_, _, _, htimeout⟩ := hconfig
  obtain ⟨hcount, _, _, hedgeTime, _, hdown, hup⟩ := hdebounce
  have hcount' : u.pressCount + 1 = s.pressCount + 1 := by rw [hcount]
  rcases (u.recordPoll s.clock).debounce_cases s.clock edge with
    ⟨_, hd⟩ | ⟨_, ho, hd⟩ | ⟨_, ho, hlate, hd⟩ | ⟨_, ho, hd⟩ <;> rw [hd]
  · exact .still hcount.symm hdown.symm hup.symm
  · exact .pressed (s.fsm_up_iff_not_isOdd.mpr (hodd ▸ ho)) hcount' rfl hup.symm
  · exact .recovered (s.fsm_down_iff_isOdd.mpr (hodd ▸ ho)) (by rwa [hedgeTime, htimeout]) rfl rfl rfl
  · exact .released (s.fsm_down_iff_isOdd.mpr (hodd ▸ ho)) hcount' hdown.symm rfl

theorem State.Polled.of_withAgenda {s t : State} {rest : List Turn} (h : (s.withAgenda rest).Polled t) :
    s.Polled t := by
  cases h with
  | still count down up => exact .still count down up
  | pressed wasUp count down up => exact .pressed wasUp count down up
  | recovered wasDown late count down up => exact .recovered wasDown late count down up
  | released wasDown count down up => exact .released wasDown count down up

theorem execPoll_polled {s t : State} (h : execPoll s = .next t) : s.Polled t := by
  rcases execPoll_cases s with ⟨_, hp⟩ | ⟨_, ⟨e, u, hk, hp⟩ | ⟨u, hk, hp⟩ | ⟨u, hk, hp⟩⟩ <;> cases hp.symm.trans h
  · exact .still rfl rfl rfl
  all_goals obtain ⟨hconfig, hdebounce, _⟩ := hk.block
  · obtain ⟨hcount, _, _, _, _, hdown, hup⟩ := hdebounce
    exact .still hcount.symm hdown.symm hup.symm
  · exact State.debounce_polled hconfig hdebounce false _
  · exact State.debounce_polled hconfig hdebounce true _

/-! ### What a step does to the button -/

/-- What a step from `s` to `t` does to the count and the pending flags: nothing, or what its `POLL`, its
`TAKE_DOWN_PENDING` or its construction does. -/
inductive State.ButtonStep (s t : State) : Prop
  | still (count : t.pressCount = s.pressCount) (down : t.downPending = s.downPending)
      (up : t.upPending = s.upPending)
  | polled (turn : Turn) (rest : List Turn) (agenda : s.agenda = turn :: rest) (poll : turn.isPoll)
      (moved : s.Polled t)
  | delivered (word : Word20) (arg : U16) (rest : List Turn) (agenda : s.agenda = .caller word :: rest)
      (decoded : decodeCmd word = .ok (.takeDownPending arg)) (count : t.pressCount = s.pressCount)
      (down : t.downPending = false) (up : t.upPending = s.upPending)
      (response : t.responses = ⟨.ok, s.downPending, 0#56⟩ :: s.responses)
  | constructed (turn : Turn) (rest : List Turn) (agenda : s.agenda = turn :: rest) (construct : turn.isConstruct)
      (count : t.pressCount = 0) (down : t.downPending = false) (up : t.upPending = false)

theorem step_button {s t : State} (h : step s = .next t) : s.ButtonStep t := by
  rcases step_turn_cases h with ⟨_, rfl⟩ | ⟨turn, rest, hagenda, ⟨i, hruns, hexec⟩ | rfl | ⟨m, rfl⟩ |
    ⟨hconstruct, d, g, pi, st, hc⟩⟩
  · exact .still rfl rfl rfl
  · by_cases hpoll : ∃ arg, i = .poll arg
    · obtain ⟨arg, rfl⟩ := hpoll
      obtain ⟨word, rfl, hdecode⟩ := hruns.caller rfl
      exact .polled _ rest hagenda ⟨arg, hdecode⟩ (execPoll_polled hexec).of_withAgenda
    by_cases htake : ∃ arg, i = .takeDownPending arg
    · obtain ⟨arg, rfl⟩ := htake
      obtain ⟨word, rfl, hdecode⟩ := hruns.caller rfl
      cases (execTakeDownPending_eq _).symm.trans hexec
      exact .delivered word arg rest hagenda hdecode rfl rfl rfl rfl
    obtain ⟨_, hcount, _, _, _, _, hdown, hup⟩ :=
      exec_sameConfig_sameDebounce hexec (not_exists.mp hpoll) (not_exists.mp htake)
    exact .still hcount.symm hdown.symm hup.symm
  · exact .still rfl rfl rfl
  · exact .still (by simp) (by simp) (by simp)
  · obtain ⟨_, _, _, _, _, _, hcount, _, _, hdown, hup, _⟩ := construct_next hc
    exact .constructed turn rest hagenda hconstruct hcount hdown hup

/-! ### The statements about one step -/

theorem State.fsm_down_of_succ {s t : State} (h : s.fsm = .up) (hcount : t.pressCount = s.pressCount + 1) :
    t.fsm = .down := by
  rw [State.fsm_up_iff] at h
  rw [State.fsm_down_iff]
  omega

theorem State.fsm_up_of_succ {s t : State} (h : s.fsm = .down) (hcount : t.pressCount = s.pressCount + 1) :
    t.fsm = .up := by
  rw [State.fsm_down_iff] at h
  rw [State.fsm_up_iff]
  omega

theorem State.fsm_up_of_zero {s : State} (h : s.pressCount = 0) : s.fsm = .up := by rw [State.fsm_up_iff, h]

/-- Settles O46: of what a step can do to the button, a press raises the flag, and a delivery, a forced recovery and a
construction lower it. -/
theorem downPendingLifeCycle : Obligations.DownPendingLifeCycle := by
  refine fun s t h => ⟨fun hfalse htrue => ?raised, fun htrue hfalse => ?lowered⟩
  case raised =>
    cases step_button h with
    | still _ down => cases htrue.symm.trans (down.trans hfalse)
    | polled turn rest agenda poll moved =>
      cases moved with
      | still _ down => cases htrue.symm.trans (down.trans hfalse)
      | pressed wasUp count => exact ⟨⟨turn, rest, agenda, poll⟩, wasUp, State.fsm_down_of_succ wasUp count⟩
      | recovered _ _ _ down => cases htrue.symm.trans down
      | released _ _ down => cases htrue.symm.trans (down.trans hfalse)
    | delivered _ _ _ _ _ _ down => cases htrue.symm.trans down
    | constructed _ _ _ _ _ down => cases htrue.symm.trans down
  case lowered =>
    cases step_button h with
    | still _ down => cases hfalse.symm.trans (down.trans htrue)
    | polled turn rest agenda poll moved =>
      cases moved with
      | still _ down => cases hfalse.symm.trans (down.trans htrue)
      | pressed _ _ down => cases hfalse.symm.trans down
      | recovered wasDown late count => exact .inr (.inl ⟨⟨turn, rest, agenda, poll⟩, wasDown, count, late⟩)
      | released _ _ down => cases hfalse.symm.trans (down.trans htrue)
    | delivered word arg rest agenda decoded _ _ _ response =>
      exact .inl ⟨word, arg, rest, agenda, decoded, htrue ▸ response⟩
    | constructed turn rest agenda construct => exact .inr (.inr ⟨turn, rest, agenda, construct⟩)

/-- Settles O45, by what a step can do to the button. -/
theorem atMostOneEdgeIsCounted : Obligations.AtMostOneEdgeIsCounted := by
  intro s t h
  cases step_button h with
  | still count => exact .inl count
  | polled _ _ _ _ moved =>
    cases moved with
    | still count => exact .inl count
    | pressed _ count => exact .inr (.inl count)
    | recovered _ _ count => exact .inr (.inr count)
    | released _ count => exact .inr (.inl count)
  | delivered _ _ _ _ _ count => exact .inl count
  | constructed _ _ _ _ count => exact .inr (.inr count)

/-- Without a construction, a step leaves button state and `up_pending`, presses, or releases and sets `up_pending`. -/
theorem step_release {s t : State} (h : step s = .next t)
    (hne : ∀ turn rest, s.agenda = turn :: rest → ¬ turn.isConstruct) :
    (t.fsm = s.fsm ∧ t.upPending = s.upPending) ∨ (s.fsm = .up ∧ t.fsm = .down ∧ t.upPending = s.upPending) ∨
      (s.fsm = .down ∧ t.fsm = .up ∧ t.upPending = true) := by
  have still : t.pressCount = s.pressCount → t.fsm = s.fsm := fun count => State.fsm_congr (congrArg (· % 2) count)
  cases step_button h with
  | still count _ up => exact .inl ⟨still count, up⟩
  | polled _ _ _ _ moved =>
    cases moved with
    | still count _ up => exact .inl ⟨still count, up⟩
    | pressed wasUp count _ up => exact .inr (.inl ⟨wasUp, State.fsm_down_of_succ wasUp count, up⟩)
    | recovered wasDown _ count _ up => exact .inr (.inr ⟨wasDown, State.fsm_up_of_zero count, up⟩)
    | released wasDown count _ up => exact .inr (.inr ⟨wasDown, State.fsm_up_of_succ wasDown count, up⟩)
  | delivered _ _ _ _ _ count _ up => exact .inl ⟨still count, up⟩
  | constructed turn rest agenda construct => exact absurd construct (hne turn rest agenda)

/-- Settles O47, by the three ways of `step_release`. -/
theorem upPendingIsSetOnEveryRelease : Obligations.UpPendingIsSetOnEveryRelease := by
  intro s t h hne
  rcases step_release h hne with ⟨hfsm, hup⟩ | ⟨hs, ht, hup⟩ | ⟨hs, ht, hup⟩
  · refine ⟨fun hdown hreleased => ?_, fun htrue => hup.trans htrue, fun hfalse htrue => ?_⟩
    · cases hdown.symm.trans (hfsm.symm.trans hreleased)
    · cases htrue.symm.trans (hup.trans hfalse)
  · refine ⟨fun hdown => ?_, fun htrue => hup.trans htrue, fun hfalse htrue => ?_⟩
    · cases hs.symm.trans hdown
    · cases htrue.symm.trans (hup.trans hfalse)
  · exact ⟨fun _ _ => hup, fun _ => hup, fun _ _ => ⟨hs, ht⟩⟩

/-! ### What every instruction leaves alone -/

theorem SameConfig.trans {s t u : State} (h : SameConfig s t) (h' : SameConfig t u) : SameConfig s u := by
  simp_all [SameConfig]

theorem SameCache.refl (s : State) : SameCache s s := ⟨rfl, rfl, rfl, rfl, rfl⟩

theorem SameCache.trans {s t u : State} (h : SameCache s t) (h' : SameCache t u) : SameCache s u := by
  simp_all [SameCache]

/-- The shared operations write no configuration register (R23, I4). -/
theorem kept_sameConfig (s : State) : Kept (SameConfig s) false fun _ => True where
  respond _ _ h := h
  record _ _ h := h
  drop _ h := h.trans (by simp [SameConfig])
  move _ _ _ h := h.trans (by simp [SameConfig])
  answer _ _ _ h := h.trans (by simp [SameConfig])
  wrCnt _ _ _ _ h := h.trans (by simp [SameConfig])
  wrGain _ _ _ _ h := h.trans (by simp [SameConfig])
  wrKeyClr _ _ h := h.trans (by simp [SameConfig])
  cache _ _ h := h
  poll _ _ _ h := h
  debounce _ _ _ h := h.trans (by simp [SameConfig])
  take _ h := h

theorem exec_sameConfig {i : Instr} {s t : State} (h : exec i s = .next t) : SameConfig s t :=
  (kept_sameConfig s).exec nofun nofun (fun _ _ => trivial) ⟨rfl, rfl, rfl, rfl⟩ h

/-- No shared operation touches the agenda. -/
theorem kept_agenda (rest : List Turn) : Kept (fun u => u.agenda = rest) false fun _ => True where
  respond _ _ h := h
  record _ _ h := h
  drop _ h := by rwa [State.dropTurn_agenda]
  move _ _ _ h := by rwa [State.applyMove_agenda]
  answer _ _ _ h := by rwa [State.afterAnswer_agenda]
  wrCnt _ _ _ _ h := by rwa [State.afterWrite_agenda]
  wrGain _ _ _ _ h := by rwa [State.afterWrite_agenda]
  wrKeyClr _ _ h := by rwa [State.afterWrite_agenda]
  cache _ _ h := h
  poll _ _ _ h := h
  debounce _ _ _ h := by rwa [State.debounce_agenda]
  take _ h := h

theorem exec_agenda {i : Instr} {s t : State} (h : exec i s = .next t) : t.agenda = s.agenda :=
  (kept_agenda s.agenda).exec nofun nofun (fun _ _ => trivial) rfl h

/-- No instruction but `READ_INFO` writes the identity cache (R57). -/
theorem exec_sameCache {i : Instr} {s t : State} (h : exec i s = .next t) (hinfo : ∀ arg, i ≠ .readInfo arg) :
    SameCache s t := by
  by_cases hpoll : ∃ arg, i = .poll arg
  · obtain ⟨arg, rfl⟩ := hpoll
    rcases execPoll_cases s with ⟨_, hp⟩ | ⟨_, ⟨e, u, hk, hp⟩ | ⟨u, hk, hp⟩ | ⟨u, hk, hp⟩⟩ <;> cases hp.symm.trans h
    · exact .refl _
    all_goals
      obtain ⟨_, _, hcache, _⟩ := hk.block
      exact hcache.trans (by simp [SameCache])
  · by_cases htake : ∃ arg, i = .takeDownPending arg
    · obtain ⟨arg, rfl⟩ := htake
      cases (execTakeDownPending_eq s).symm.trans h
      exact .refl _
    · obtain ⟨_, _, hcache⟩ := exec_sameBlock h (not_exists.mp hpoll) (not_exists.mp htake) hinfo
      exact hcache

/-! ### What every step leaves alone -/

/-- A step takes one turn off the agenda, if there is one. -/
theorem step_agenda {s t : State} (h : step s = .next t) : t.agenda = s.agenda.tail := by
  rcases step_turn_cases h with ⟨hnil, rfl⟩ | ⟨turn, rest, hagenda, hturn⟩
  · rw [hnil, List.tail_nil]
  rw [hagenda, List.tail_cons]
  rcases hturn with ⟨i, _, hexec⟩ | rfl | ⟨m, rfl⟩ | ⟨_, d, g, pi, st, hc⟩
  · exact exec_agenda hexec
  · rfl
  · exact State.applyMove_agenda _ m
  · obtain ⟨_, _, _, _, _, _, _, _, _, _, _, _, _, _, hag, _⟩ := construct_next hc
    exact hag.symm

/-- Settles O44: no instruction and no move writes a configuration register. -/
theorem configurationNeverChanges : Obligations.ConfigurationNeverChanges := by
  intro s t h hne
  rcases step_turn_cases h with ⟨_, rfl⟩ | ⟨turn, rest, hagenda, ⟨i, _, hexec⟩ | rfl | ⟨m, rfl⟩ | ⟨hconstruct, _⟩⟩
  · exact ⟨rfl, rfl, rfl, rfl⟩
  · exact exec_sameConfig (s := s.withAgenda rest) hexec
  · exact ⟨rfl, rfl, rfl, rfl⟩
  · simp [SameConfig]
  · exact absurd hconstruct (hne turn rest hagenda)

/-- A step that neither reads the identity nor constructs keeps the cache (R205). -/
theorem step_sameCache {s t : State} (h : step s = .next t)
    (hne : ∀ turn rest, s.agenda = turn :: rest → ¬ turn.isReadInfo ∧ ¬ turn.isConstruct) : SameCache s t := by
  rcases step_turn_cases h with ⟨_, rfl⟩ | ⟨turn, rest, hagenda, ⟨i, hruns, hexec⟩ | rfl | ⟨m, rfl⟩ | ⟨hconstruct, _⟩⟩
  · exact .refl _
  · refine exec_sameCache (s := s.withAgenda rest) hexec ?_
    rintro arg rfl
    obtain ⟨word, rfl, hdecode⟩ := hruns.caller rfl
    exact (hne _ rest hagenda).1 ⟨arg, hdecode⟩
  · exact ⟨rfl, rfl, rfl, rfl, rfl⟩
  · simp [SameCache]
  · exact absurd hconstruct (hne turn rest hagenda).2

/-! ### Runs -/

/-- What a step with a turn of the kind `Q` (or none) keeps is kept by every run whose agenda has such turns only. -/
theorem run_keeps {Q : Turn → Prop} {P : State → Prop}
    (hstep : ∀ s t : State, (∀ turn ∈ s.agenda, Q turn) → step s = .next t → P s → P t) {k : Nat} {s t : State}
    (hQ : ∀ turn ∈ s.agenda, Q turn) (hs : P s) (h : Host.Core.run Sys2Proof.core k s = .next t) : P t := by
  induction k generalizing s with
  | zero => cases h; exact hs
  | succ k ih =>
    obtain ⟨u, hu, hrun⟩ := run_next h
    refine ih (fun turn hturn => hQ turn ?_) (hstep s u hQ hu hs) hrun
    rw [step_agenda hu] at hturn
    exact List.mem_of_mem_tail hturn

/-- The first turn of an agenda is one of its turns. -/
theorem State.head_of_agenda {s : State} {Q : Turn → Prop} (h : ∀ turn ∈ s.agenda, Q turn) (turn : Turn)
    (rest : List Turn) (hagenda : s.agenda = turn :: rest) : Q turn :=
  h turn (hagenda ▸ List.mem_cons_self)

/-- Settles O50: every step of such a run leaves the press count. -/
theorem onlyPollsRecoverAStuckPress : Obligations.OnlyPollsRecoverAStuckPress := by
  intro k s t arg hs h
  have hcount : t.pressCount = s.pressCount := by
    refine run_keeps (P := fun u => u.pressCount = s.pressCount) (fun u v hQ huv hu => ?_) hs rfl h
    rcases step_pressCount huv with hsame | ⟨turn, rest, hagenda, hmoves⟩
    · exact hsame.trans hu
    · obtain ⟨hpoll, hconstruct⟩ := State.head_of_agenda hQ turn rest hagenda
      exact (hmoves.elim hpoll hconstruct).elim
  have hodd : decide (t.pressCount % 2 = 1) = decide (s.fsm = .down) := by
    rw [hcount, decide_eq_decide, State.fsm_down_iff]
  exact ⟨State.fsm_congr (congrArg (· % 2) hcount), hodd ▸ isDownResult t arg⟩

/-- Settles O51: the first delivery clears the flag, and only a `POLL` raises it. -/
theorem notificationIsDeliveredOnce : Obligations.NotificationIsDeliveredOnce := by
  intro k s u t arg arg' hs hu h
  have hu' : u.Unpolled := by rw [State.Unpolled, exec_agenda hu]; exact hs
  have hcleared : u.downPending = false := by cases (execTakeDownPending_eq s).symm.trans hu; rfl
  have hdown : t.downPending = false := by
    refine run_keeps (P := fun v => v.downPending = false) (fun v w hQ hvw hv => ?_) hu' hcleared h
    refine Bool.eq_false_of_not_eq_true fun hw => ?_
    obtain ⟨⟨turn, rest, hagenda, hpoll⟩, _⟩ := (downPendingLifeCycle v w hvw).1 hv hw
    obtain ⟨hnot, _⟩ := State.head_of_agenda hQ turn rest hagenda
    exact hnot hpoll
  have hsecond := execTakeDownPending_eq t
  rw [State.clearDown_of_not_pending hdown, hdown] at hsecond
  exact hsecond

end Sys2Proof.Machine
end

section
/-! State that never shows (R15, R23 I5): the hidden registers, and the bits of the press count above the lowest ones.
Each is left out by a projection that commutes with the shared operations, so that `Forgets.step_eq` applies. -/

namespace Sys2Proof.Machine

/-- A projection that keeps what steps 3 to 5 of `POLL` test commutes with them if it commutes with the three updates
they can make (R131). -/
theorem State.debounce_project {p : State → State} (s : State) (now : Nat) (edge : Bool)
    (hidem : p (p s) = p s) (hodd : (p s).isOdd = s.isOdd)
    (hlate : (p s).lastEdgeTime + (p s).stuckTimeout = s.lastEdgeTime + s.stuckTimeout)
    (hpress : p { s with
        pressCount := s.pressCount + 1, lastEdgeTime := now, lastEdgeValid := true, downPending := true } =
      p { p s with
        pressCount := (p s).pressCount + 1, lastEdgeTime := now, lastEdgeValid := true, downPending := true })
    (hforce : p s.forceUp = p (p s).forceUp)
    (hrelease : p { s with pressCount := s.pressCount + 1, upPending := true } =
      p { p s with pressCount := (p s).pressCount + 1, upPending := true }) :
    p (s.debounce now edge) = p ((p s).debounce now edge) := by
  cases edge with
  | false =>
    cases ho : s.isOdd with
    | false => rw [State.debounce_up_idle ho, State.debounce_up_idle (hodd.trans ho), hidem]
    | true =>
      by_cases ht : s.lastEdgeTime + s.stuckTimeout < now
      · rw [State.debounce_down_stuck ho ht, State.debounce_down_stuck (hodd.trans ho) (hlate ▸ ht), hforce]
      · rw [State.debounce_down_idle (not_lt.mp ht), State.debounce_down_idle (hlate ▸ not_lt.mp ht), hidem]
  | true =>
    cases ho : s.isOdd with
    | false => rw [State.debounce_up_edge ho, State.debounce_up_edge (hodd.trans ho), hpress]
    | true => rw [State.debounce_down_edge ho, State.debounce_down_edge (hodd.trans ho), hrelease]

/-! ### The hidden registers -/

/-- The state with the hidden registers at their reset values: `gain_init`, `up_pending` and the identity cache. -/
def State.hide (s : State) : State :=
  { s with
    gainInit := Config.resetGainInit
    upPending := false
    infoValid := false
    infoProductId := 0#16
    infoVendorId := 0#16
    infoVersion := 0#16
    infoBusAddress := 0#8 }

theorem State.hide_eq_iff {s t : State} : s.hide = t.hide ↔ AgreeButHidden s t := by
  simp only [State.hide, AgreeButHidden, SameOutside, State.mk.injEq, true_and]
  tauto

/-- The bus knows nothing of the hidden registers. -/
theorem State.hide_independent : BusIndependent State.hide where
  record _ _ := rfl
  nextTurn _ := rfl
  drop s := by
    unfold State.dropTurn
    rw [show s.hide.busTurns = s.busTurns from rfl]
    split <;> rfl
  move _ m := by cases m <;> rfl
  answer _ _ _ := apply_ite State.hide _ _ _
  bytes _ _ _ := rfl
  write _ _ _ _ := apply_ite State.hide _ _ _

theorem State.hide_forgets : Forgets State.hide where
  toBusIndependent := State.hide_independent
  idem _ := rfl
  respond _ _ := rfl
  devAddr _ := rfl
  clock _ := rfl
  cache _ _ := rfl
  limited _ _ := rfl
  poll _ _ := rfl
  debounce s now edge := s.debounce_project now edge rfl rfl rfl rfl rfl rfl
  down _ := rfl
  take _ := rfl
  odd _ := rfl
  withAgenda _ _ := rfl
  agenda _ := rfl
  construct _ _ _ _ _ := .inl rfl

/-- The outcome with its next state, if there is one, seen through `p`. -/
def mapNext (p : State → State) : Result State → Result State
  | .next s => .next (p s)
  | .fault r => .fault r
  | .refused r => .refused r

theorem sameUpTo_iff {p : State → State} {o o' : Result State} : SameUpTo p o o' ↔ mapNext p o = mapNext p o' := by
  cases o <;> cases o' <;> simp [SameUpTo, OutcomesRelated, mapNext]

/-- Settles O48: both states step as the one state with their hidden registers reset. -/
theorem hiddenStateNeverShows : Obligations.HiddenStateNeverShows := by
  intro s t h
  have hs := sameUpTo_iff.mp (State.hide_forgets.step_eq s)
  have ht := sameUpTo_iff.mp (State.hide_forgets.step_eq t)
  rw [← State.hide_eq_iff.mpr h] at ht
  have hview : AgreeButHidden = fun a b => a.hide = b.hide := by
    funext a b
    exact propext State.hide_eq_iff.symm
  rw [hview]
  exact sameUpTo_iff.mpr (hs.trans ht.symm)

/-! ### A narrow press count -/

section
variable {w : Nat} (hw : 1 ≤ w)
include hw

/-- The parity is in the lowest bit. -/
theorem State.narrow_isOdd (s : State) : (s.narrow w).isOdd = s.isOdd := by
  have h : s.pressCount % 2 ^ w % 2 = s.pressCount % 2 := Nat.mod_mod_of_dvd _ (dvd_pow_self 2 (by omega))
  rw [State.isOdd, State.isOdd, ← h]
  rfl

omit hw in
theorem State.narrow_idem (s : State) : (s.narrow w).narrow w = s.narrow w := by
  simp [State.narrow]

omit hw in
theorem State.narrow_independent : BusIndependent (State.narrow w) where
  record _ _ := rfl
  nextTurn _ := rfl
  drop s := by
    unfold State.dropTurn
    rw [show (s.narrow w).busTurns = s.busTurns from rfl]
    split <;> rfl
  move _ m := by cases m <;> rfl
  answer _ _ _ := apply_ite (State.narrow w) _ _ _
  bytes _ _ _ := rfl
  write _ _ _ _ := apply_ite (State.narrow w) _ _ _

theorem State.narrow_forgets : Forgets (State.narrow w) where
  toBusIndependent := State.narrow_independent
  idem := State.narrow_idem
  respond _ _ := rfl
  devAddr _ := rfl
  clock _ := rfl
  cache s bytes := by simp [State.narrow, State.cacheInfo]
  limited _ _ := rfl
  poll _ _ := rfl
  debounce s now edge := s.debounce_project now edge s.narrow_idem (State.narrow_isOdd hw s) rfl
    (by simp [State.narrow]) rfl (by simp [State.narrow])
  down _ := rfl
  take _ := rfl
  odd := State.narrow_isOdd hw
  withAgenda _ _ := rfl
  agenda _ := rfl
  construct _ _ _ _ _ := .inl rfl

end

/-- Settles O49: no step sees more of the count than its parity. -/
theorem pressCountMayHaveAnyWidth : Obligations.PressCountMayHaveAnyWidth :=
  fun _ s hw => (State.narrow_forgets hw).step_eq s

end Sys2Proof.Machine
end

section
/-! The register file is determined by what is read from it. One transaction (R41 to R50): the cells it covers, the
cells a failed one leaves, and the frame of another master. -/

namespace Sys2Proof.Machine

/-! ### The canonical register file -/

/-- Below its lowest entry a register file has only unlisted cells. -/
theorem Memory.read_of_lt {m : Memory} {a : Nat} (h : ∀ c ∈ m, a < c.1) : m.read a = Config.blankCell := by
  induction m with
  | nil => rfl
  | cons c rest ih =>
    have hne : a ≠ c.1 := (h c List.mem_cons_self).ne
    rw [Memory.read, if_neg hne, ih fun c hc => h c (List.mem_cons_of_mem _ hc)]

theorem Memory.read_cons_same (c : Host.Cell) (m : Memory) : Memory.read (c :: m) c.1 = c.2 := by
  simp [Memory.read]

theorem Memory.read_cons_other {c : Host.Cell} {a : Nat} (h : a ≠ c.1) (m : Memory) :
    Memory.read (c :: m) a = m.read a := by
  simp [Memory.read, h]

theorem Memory.wf_cons {c : Host.Cell} {m : Memory} :
    Memory.wf (c :: m) ↔ (∀ d ∈ m, c.1 < d.1) ∧ c.2 ≠ Config.blankCell ∧ c.1 < Config.mapSize ∧ m.wf := by
  simp only [Memory.wf, List.pairwise_cons, List.mem_cons, forall_eq_or_imp]
  tauto

/-- A listed cell that the other register file has below its lowest entry reads differently there. -/
theorem Memory.read_ne_of_lt {c : Host.Cell} {m n : Memory} (hc : c.2 ≠ Config.blankCell) (hn : ∀ d ∈ n, c.1 < d.1) :
    Memory.read (c :: m) c.1 ≠ n.read c.1 := by
  rwa [Memory.read_cons_same, Memory.read_of_lt hn]

/-- Settles O7, by induction on both lists: the lowest entries have the same address, for the lower of two would read as
an unlisted cell in the other file, and then the same content. -/
theorem canonicalMemoryIsUnique : Obligations.CanonicalMemoryIsUnique := by
  intro m
  induction m with
  | nil =>
    intro n _ hn h
    cases n with
    | nil => rfl
    | cons d n =>
      obtain ⟨_, hd, _⟩ := Memory.wf_cons.mp hn
      exact absurd (h d.1).symm (Memory.read_ne_of_lt hd nofun)
  | cons c m ih =>
    intro n hm hn h
    obtain ⟨hcm, hc, _, hm⟩ := Memory.wf_cons.mp hm
    cases n with
    | nil => exact absurd (h c.1) (Memory.read_ne_of_lt hc nofun)
    | cons d n =>
      obtain ⟨hdn, hd, _, hnwf⟩ := Memory.wf_cons.mp hn
      rcases lt_trichotomy c.1 d.1 with hlt | heq | hgt
      · refine absurd (h c.1) (Memory.read_ne_of_lt hc ?_)
        rintro e (_ | ⟨_, he⟩)
        · exact hlt
        · exact hlt.trans (hdn e he)
      · have hcd : c = d := by
          refine Prod.ext heq ?_
          rw [← Memory.read_cons_same c m, h, heq, Memory.read_cons_same]
        subst hcd
        rw [ih n hm hnwf fun a => ?_]
        by_cases ha : a = c.1
        · rw [ha, Memory.read_of_lt hcm, Memory.read_of_lt hdn]
        · rw [← Memory.read_cons_other ha m, h, Memory.read_cons_other ha]
      · refine absurd (h d.1).symm (Memory.read_ne_of_lt hd ?_)
        rintro e (_ | ⟨_, he⟩)
        · exact hgt
        · exact hgt.trans (hcm e he)

/-! ### The block's transactions -/

theorem Memory.readBlock_getElem? (m : Memory) (reg : Nat) {n i : Nat} (h : i < n) :
    (m.readBlock reg n)[i]? = some (m.read (reg + i)) := by
  simp [Memory.readBlock, h]

theorem Memory.read_writeBlock_inside (m : Memory) (reg : Nat) {bytes : List Byte} {i : Nat} (h : i < bytes.length) :
    (m.writeBlock reg bytes).read (reg + i) = bytes[i] := by
  rw [Memory.read_writeBlock, if_pos (by omega), Nat.add_sub_cancel_left, List.getD_eq_getElem _ _ h]

/-- Settles O8: both calls in terms of the cells they cover. -/
theorem transactionCoversItsCells : Obligations.TransactionCoversItsCells := by
  refine fun s k hok => ⟨⟨_, _, State.memRead_ok hok k, Memory.length_readBlock _ _ _, fun i hi => ?_, fun _ => rfl⟩,
    fun payload => ⟨_, State.memWrite_ok hok k payload, fun i hi => ?_, fun a ha => ?_⟩⟩
  · exact Memory.readBlock_getElem? _ _ hi
  · exact Memory.read_writeBlock_inside _ _ hi
  · exact Memory.read_writeBlock_outside _ ha

/-! ### The frame of another master -/

section
variable {s : State} {k : FrameKind} {e : Byte} {taken : Bool} (dev : DevAddr) (payload : List Byte)

theorem State.busFrame_read_ok (hk : k.isWrite = false) (h : s.nextTurn.result = .ok) :
    s.busFrame k dev payload = (s.atBus.afterAnswer k dev).record
      ⟨.other, k.header dev, [], .answered (s.atBus.answerBytes k dev)⟩ := by
  rw [State.busFrame, h, State.foreignFrame, hk]
  rfl

theorem State.busFrame_read_err (hk : k.isWrite = false) (h : s.nextTurn.result = .err e taken) :
    s.busFrame k dev payload = s.atBus.record ⟨.other, k.header dev, [], .failed e⟩ := by
  rw [State.busFrame, h, State.foreignFrame, hk]
  rfl

theorem State.busFrame_write_ok (hk : k.isWrite = true) (h : s.nextTurn.result = .ok) :
    s.busFrame k dev payload = (s.atBus.afterWrite k dev payload).record
      ⟨.other, k.header dev, payload, .written⟩ := by
  rw [State.busFrame, h, State.foreignFrame, hk]
  rfl

theorem State.busFrame_write_err (hk : k.isWrite = true) (h : s.nextTurn.result = .err e taken) :
    s.busFrame k dev payload = (s.atBus.afterFailedWrite k dev payload taken).record
      ⟨.other, k.header dev, payload, .failed e⟩ := by
  rw [State.busFrame, h, State.foreignFrame, hk]
  rfl

end

/-- Settles O9: the error case of the three calls; only a write that was taken stores anything. -/
theorem failedTransactionChangesNoCell : Obligations.FailedTransactionChangesNoCell := by
  intro s k dev payload e taken herr
  refine ⟨⟨_, State.memRead_err herr k, fun _ => rfl⟩, ⟨_, State.memWrite_err herr k payload, ?_⟩, ?_⟩
  · rintro rfl _
    rfl
  · cases hk : k.isWrite with
    | false =>
      rw [State.busFrame_read_err dev payload hk herr]
      exact ⟨_, rfl, rfl, fun _ _ => rfl⟩
    | true =>
      rw [State.busFrame_write_err dev payload hk herr]
      refine ⟨_, congrArg _ (State.afterFailedWrite_trace _ _ _ _ _), rfl, ?_⟩
      rintro (hread | rfl) _
      · cases hread
      · rfl

/-! ### What a frame of another master leaves -/

section
variable (s : State) (dev : DevAddr) {k : FrameKind}

theorem State.busFrame_clock (payload : List Byte) : (s.busFrame k dev payload).clock = s.atBus.clock :=
  s.atBus.foreignFrame_clock k dev payload s.nextTurn.result

theorem State.busFrame_read_regs (hk : k.isWrite = false) (payload : List Byte) :
    (s.busFrame k dev payload).regs = s.atBus.regs := by
  cases h : s.nextTurn.result with
  | ok => rw [State.busFrame_read_ok dev payload hk h, State.record_regs, State.afterAnswer_regs]
  | err e taken => rw [State.busFrame_read_err dev payload hk h, State.record_regs]

/-- Only a write that was taken, at the peripheral of the block, stores anything. -/
theorem State.busFrame_write_regs (hk : k.isWrite = true) (payload : List Byte) :
    (s.busFrame k dev payload).regs =
      if s.nextTurn.result.took = true ∧ dev = s.devAddr then s.atBus.regs.writeBlock k.reg.toNat payload
      else s.atBus.regs := by
  have hwrite : (s.atBus.afterWrite k dev payload).regs =
      if dev = s.devAddr then s.atBus.regs.writeBlock k.reg.toNat payload else s.atBus.regs := by
    rw [State.afterWrite, State.atBus_devAddr, apply_ite State.regs, State.setRegs_regs]
  cases h : s.nextTurn.result with
  | ok => simpa [State.busFrame_write_ok dev payload hk h, BusResult.took] using hwrite
  | err e taken =>
    cases taken with
    | false => simp [State.busFrame_write_err dev payload hk h, BusResult.took, State.afterFailedWrite]
    | true => simpa [State.busFrame_write_err dev payload hk h, BusResult.took, State.afterFailedWrite] using hwrite

theorem State.busFrame_read_trace (hk : k.isWrite = false) (payload : List Byte) : ∃ reply,
    (s.busFrame k dev payload).trace = ⟨.other, k.header dev, [], reply⟩ :: s.atBus.trace ∧
      (s.nextTurn.result = .ok → reply = .answered (s.atBus.answerBytes k dev)) ∧
      (∀ e taken, s.nextTurn.result = .err e taken → reply = .failed e) := by
  cases h : s.nextTurn.result with
  | ok =>
    rw [State.busFrame_read_ok dev payload hk h]
    exact ⟨_, congrArg _ (State.afterAnswer_trace _ _ _), fun _ => rfl, nofun⟩
  | err e taken =>
    rw [State.busFrame_read_err dev payload hk h]
    exact ⟨.failed e, rfl, nofun, by rintro _ _ ⟨⟩; rfl⟩

theorem State.busFrame_write_trace (hk : k.isWrite = true) (payload : List Byte) : ∃ reply,
    (s.busFrame k dev payload).trace = ⟨.other, k.header dev, payload, reply⟩ :: s.atBus.trace ∧
      (s.nextTurn.result = .ok → reply = .written) ∧
      (∀ e taken, s.nextTurn.result = .err e taken → reply = .failed e) := by
  cases h : s.nextTurn.result with
  | ok =>
    rw [State.busFrame_write_ok dev payload hk h]
    exact ⟨.written, congrArg _ (State.afterWrite_trace _ _ _ _), fun _ => rfl, nofun⟩
  | err e taken =>
    rw [State.busFrame_write_err dev payload hk h]
    exact ⟨.failed e, congrArg _ (State.afterFailedWrite_trace _ _ _ _ _), nofun, by rintro _ _ ⟨⟩; rfl⟩

end

/-- A read frame by itself, for any of the five: its table header, its cells, and nothing changed. -/
theorem readFrame_result {s : State} {dev : DevAddr} {i : Instr} {base : Word20} (k : FrameKind)
    (hk : k.isWrite = false) (hexec : exec i s = .next (s.busFrame k dev [])) (hbase : k.header 0#7 = base) :
    ∃ t reply, exec i s = .next t ∧
      t.trace = ⟨.other, base ||| (dev.setWidth 20 <<< 12), [], reply⟩ :: s.atBus.trace ∧
      (s.nextTurn.result = .ok → dev = s.devAddr →
        reply = .answered ((List.range k.len.toNat).map fun j => s.atBus.regs.read (k.reg.toNat + j))) ∧
      (s.nextTurn.result = .ok → dev ≠ s.devAddr → ∃ bytes, reply = .answered bytes ∧ bytes.length = k.len.toNat) ∧
      (∀ e taken, s.nextTurn.result = .err e taken → reply = .failed e) ∧
      SameConfig s t ∧ SameDebounce s t ∧ SameCache s t ∧ SameCells s.atBus t ∧ t.clock = s.atBus.clock ∧
      t.agenda = s.agenda ∧ t.responses = s.responses := by
  obtain ⟨hconfig, hdebounce, hcache⟩ := s.busFrame_sameBlock k dev []
  obtain ⟨reply, htrace, hok, herr⟩ := s.busFrame_read_trace dev hk []
  refine ⟨_, reply, hexec, ?_, fun h hdev => ?_, fun h _ => ⟨_, hok h, State.answerBytes_length _ _ _⟩, herr, hconfig,
    hdebounce, hcache, fun a => ?_, s.busFrame_clock dev [], exec_agenda hexec, s.busFrame_responses k dev []⟩
  · rw [htrace, header_eq_or, hbase]
  · rw [hok h, hdev, ← s.atBus_devAddr, State.answerBytes_own, Memory.readBlock]
  · rw [s.busFrame_read_regs dev hk]

/-- Settles O31: the five read frames, each by `readFrame_result`. -/
theorem readFramesResult : Obligations.ReadFramesResult := by
  intro s dev i base reg n h
  simp only [List.mem_cons, List.not_mem_nil, or_false, Prod.mk.injEq] at h
  rcases h with ⟨rfl, rfl, rfl, rfl⟩ | ⟨rfl, rfl, rfl, rfl⟩ | ⟨rfl, rfl, rfl, rfl⟩ | ⟨rfl, rfl, rfl, rfl⟩ |
    ⟨rfl, rfl, rfl, rfl⟩
  · exact readFrame_result .rdPid rfl rfl header0_rdPid
  · exact readFrame_result .rdInfo rfl rfl header0_rdInfo
  · exact readFrame_result .rdCnt rfl rfl header0_rdCnt
  · exact readFrame_result .rdKey rfl rfl header0_rdKey
  · exact readFrame_result .rdGain rfl rfl header0_rdGain

/-- A write frame by itself, for any of the three: its table header, its bytes where it is taken, and nothing else
changed. -/
theorem writeFrame_result {s : State} {dev : DevAddr} {i : Instr} {base : Word20} {payload : List Byte} (k : FrameKind)
    (hk : k.isWrite = true) (hexec : exec i s = .next (s.busFrame k dev payload)) (hbase : k.header 0#7 = base) :
    ∃ t reply, exec i s = .next t ∧
      t.trace = ⟨.other, base ||| (dev.setWidth 20 <<< 12), payload, reply⟩ :: s.atBus.trace ∧
      (s.nextTurn.result = .ok → reply = .written) ∧
      (∀ e taken, s.nextTurn.result = .err e taken → reply = .failed e) ∧
      (s.nextTurn.result.took = false → SameCells s.atBus t) ∧
      (s.nextTurn.result.took = true → dev = s.devAddr → ∀ j, (h : j < payload.length) →
        t.regs.read (k.reg.toNat + j) = payload[j]) ∧
      (∀ a, a < k.reg.toNat ∨ k.reg.toNat + payload.length ≤ a → t.regs.read a = s.atBus.regs.read a) ∧
      (dev ≠ s.devAddr → SameCells s.atBus t) ∧
      SameConfig s t ∧ SameDebounce s t ∧ SameCache s t ∧ t.clock = s.atBus.clock ∧ t.agenda = s.agenda ∧
      t.responses = s.responses := by
  obtain ⟨hconfig, hdebounce, hcache⟩ := s.busFrame_sameBlock k dev payload
  obtain ⟨reply, htrace, hok, herr⟩ := s.busFrame_write_trace dev hk payload
  have hregs := s.busFrame_write_regs dev hk payload
  refine ⟨_, reply, hexec, ?header, hok, herr, fun huntaken a => ?untaken, fun htaken hdev j hj => ?stored,
    fun a ha => ?outside, fun hdev a => ?otherDevice, hconfig, hdebounce, hcache, s.busFrame_clock dev payload,
    exec_agenda hexec, s.busFrame_responses k dev payload⟩
  case header => rw [htrace, header_eq_or, hbase]
  case untaken => rw [hregs, if_neg (by simp [huntaken])]
  case stored => rw [hregs, if_pos ⟨htaken, hdev⟩, Memory.read_writeBlock_inside]
  case outside =>
    rw [hregs]
    split
    · exact Memory.read_writeBlock_outside _ ha
    · rfl
  case otherDevice => rw [hregs, if_neg fun h => hdev h.2]

/-- Settles O32: the three write frames, each by `writeFrame_result`. -/
theorem writeFramesResult : Obligations.WriteFramesResult := by
  intro s dev v b i base reg payload h
  simp only [List.mem_cons, List.not_mem_nil, or_false, Prod.mk.injEq] at h
  rcases h with ⟨rfl, rfl, rfl, rfl⟩ | ⟨rfl, rfl, rfl, rfl⟩ | ⟨rfl, rfl, rfl, rfl⟩
  · exact writeFrame_result .wrCnt rfl rfl header0_wrCnt
  · exact writeFrame_result .wrKeyClr rfl rfl header0_wrKeyClr
  · exact writeFrame_result .wrGain rfl rfl header0_wrGain

end Sys2Proof.Machine
end

section
/-! The operations (R101 to R108, R131): what each answers and what it leaves unchanged. -/

namespace Sys2Proof.Machine

/-! ### The encoder as a fraction -/

/-- What a response carries of a two-byte register is its value, unchanged. -/
theorem read16_ofNat (m : Memory) (a : Nat) :
    BitVec.ofNat 56 (256 * (m.read a).toNat + (m.read (a + 1)).toNat) = BitVec.ofNat 56 (m.read16 a).toNat := by
  rw [Memory.read16, be16_toNat]

/-- The fraction of a response that carries a counter value is that value over 1023 (R108). -/
theorem fractionOf_counter (flag : Bool) (v : U16) :
    fractionOf ⟨.ok, flag, BitVec.ofNat 56 v.toNat⟩ = (v.toNat : Rat) / 1023 := by
  have hv := v.isLt
  rw [fractionOf, BitVec.toNat_ofNat, Nat.mod_eq_of_lt (by omega), Config.counterMax]
  rfl

theorem execEncoderAsFraction_ok {s : State} (h : s.nextTurn.result = .ok) :
    execEncoderAsFraction s = .next ((s.atBus.record
        ⟨.block, s.headerTo 0x00082#20, [], .answered [s.atBus.regs.read 8, s.atBus.regs.read 9]⟩).respond
      ⟨.ok, false, BitVec.ofNat 56 (256 * (s.atBus.regs.read 8).toNat + (s.atBus.regs.read 9).toNat)⟩) :=
  (readCounterResult s 0#16).1 h

/-- Settles O19: the operation reads as `READ_COUNTER` does, and the quotient by 1023 is compared with 0 and 1. -/
theorem encoderAsFractionResult : Obligations.EncoderAsFractionResult := by
  refine fun s arg => ⟨fun hok => ⟨_, execEncoderAsFraction_ok hok, rfl, ?_⟩, (readCounterResult s 0#16).2⟩
  have hfraction : fractionOf ⟨.ok, false, BitVec.ofNat 56 (256 * (s.atBus.regs.read 8).toNat +
      (s.atBus.regs.read 9).toNat)⟩ = (s.atBus.counter.toNat : Rat) / 1023 := by
    rw [read16_ofNat]
    exact fractionOf_counter false s.atBus.counter
  have hpos : (0 : Rat) < 1023 := by norm_num
  rw [hfraction]
  refine ⟨rfl, by positivity, ?_, ?_⟩
  · rw [div_le_one hpos]
    norm_cast
  · rw [div_eq_one_iff_eq hpos.ne']
    norm_cast

/-! ### The two writes -/

/-- After a successful write the operation goes on in the state with the bytes stored (R100). -/
theorem State.finish_memWrite_ok {s : State} (h : s.nextTurn.result = .ok) (k : FrameKind) (payload : List Byte)
    (f : Unit → State → State) :
    finish (s.memWrite k payload) f = f () ((s.atBus.setRegs (s.atBus.regs.writeBlock k.reg.toNat payload)).record
      ⟨.block, s.headerTo (k.header 0#7), payload, .written⟩) := by
  rw [State.memWrite_ok h, finish_ok]

/-- After a failed one it ends, with the bytes stored only if the peripheral took them (R161, R198). -/
theorem State.finish_memWrite_err {s : State} {e : Byte} {taken : Bool} (h : s.nextTurn.result = .err e taken)
    (k : FrameKind) (payload : List Byte) (f : Unit → State → State) :
    finish (s.memWrite k payload) f =
      ((if taken then s.atBus.setRegs (s.atBus.regs.writeBlock k.reg.toNat payload) else s.atBus).record
        ⟨.block, s.headerTo (k.header 0#7), payload, .failed e⟩).respond (transportErrorRsp e) := by
  rw [State.memWrite_err h, finish_error]

theorem execWriteCounter_ok {s : State} {value : U16} (hv : value.toNat ≤ 1023) (h : s.nextTurn.result = .ok) :
    execWriteCounter value s = .next (((s.atBus.setRegs
        (s.atBus.regs.writeBlock Config.regCounter (counterBytes value))).record
      ⟨.block, s.headerTo 0x80082#20, counterBytes value, .written⟩).respond (okRsp true 0#56)) := by
  rw [execWriteCounter_inRange hv, State.finish_memWrite_ok h, header0_wrCnt]
  rfl

theorem execWriteGain_ok {s : State} {value : U16} (hv : 1 ≤ value.toNat ∧ value.toNat ≤ 51)
    (h : s.nextTurn.result = .ok) :
    execWriteGain value s = .next (((s.atBus.setRegs (s.atBus.regs.write Config.regGain (lo8 value))).record
      ⟨.block, s.headerTo 0x800B1#20, [lo8 value], .written⟩).respond (okRsp true 0#56)) := by
  rw [execWriteGain_inRange hv, State.finish_memWrite_ok h, header0_wrGain]
  rfl

theorem execWriteCounter_err {s : State} {value : U16} {e : Byte} {taken : Bool} (hv : value.toNat ≤ 1023)
    (h : s.nextTurn.result = .err e taken) :
    execWriteCounter value s = .next (((if taken then
        s.atBus.setRegs (s.atBus.regs.writeBlock Config.regCounter (counterBytes value)) else s.atBus).record
      ⟨.block, s.headerTo 0x80082#20, counterBytes value, .failed e⟩).respond (transportErrorRsp e)) := by
  rw [execWriteCounter_inRange hv, State.finish_memWrite_err h, header0_wrCnt]
  rfl

theorem execWriteGain_err {s : State} {value : U16} {e : Byte} {taken : Bool}
    (hv : 1 ≤ value.toNat ∧ value.toNat ≤ 51) (h : s.nextTurn.result = .err e taken) :
    execWriteGain value s = .next (((if taken then
        s.atBus.setRegs (s.atBus.regs.write Config.regGain (lo8 value)) else s.atBus).record
      ⟨.block, s.headerTo 0x800B1#20, [lo8 value], .failed e⟩).respond (transportErrorRsp e)) := by
  rw [execWriteGain_inRange hv, State.finish_memWrite_err h, header0_wrGain]
  rfl

/-- A gain in range loses nothing in its one byte (R106). -/
theorem lo8_toNat_of_gain {value : U16} (hv : value.toNat ≤ 51) : (lo8 value).toNat = value.toNat := by
  rw [lo8_toNat]
  omega

/-- The writing operations touch no register of the block. -/
theorem execWriteCounter_sameBlock {value : U16} {s t : State} (h : execWriteCounter value s = .next t) :
    SameBlock s t := exec_sameBlock (i := .writeCounter value) h nofun nofun nofun

theorem execWriteGain_sameBlock {value : U16} {s t : State} (h : execWriteGain value s = .next t) : SameBlock s t :=
  exec_sameBlock (i := .writeGain value) h nofun nofun nofun

/-- Settles O21: both bytes are stored by one frame at the counter's cells. -/
theorem writeCounterResult : Obligations.WriteCounterResult := by
  refine fun s value hv => ⟨fun hok => ?ok, fun e taken herr => execWriteCounter_err hv herr⟩
  have ht := execWriteCounter_ok hv hok
  obtain ⟨hconfig, hdebounce, hcache⟩ := execWriteCounter_sameBlock ht
  refine ⟨_, ht, congrArg _ s.atBus_responses, rfl, ?counter, ?high, ?low, fun a h8 h9 => ?other, hconfig, hdebounce,
    hcache, ?clock, exec_agenda (i := .writeCounter value) ht⟩
  case counter =>
    rw [State.counter, State.respond_regs, State.record_regs, State.setRegs_regs, Memory.read16_writeBlock_counterBytes]
  case high => exact Memory.read_writeBlock_inside _ 8 (bytes := counterBytes value) (i := 0) Nat.zero_lt_two
  case low => exact Memory.read_writeBlock_inside _ 8 (bytes := counterBytes value) (i := 1) Nat.one_lt_two
  case other => exact Memory.read_writeBlock_counterBytes_other s.atBus.regs value h8 h9
  case clock => rw [State.respond_clock, State.record_clock, State.setRegs_clock]

/-- Settles O22: one byte is stored by one frame at the gain's cell. -/
theorem writeGainResult : Obligations.WriteGainResult := by
  refine fun s value hlow hhigh => ⟨fun hok => ?ok, fun e taken herr => execWriteGain_err ⟨hlow, hhigh⟩ herr⟩
  have ht := execWriteGain_ok ⟨hlow, hhigh⟩ hok
  obtain ⟨hconfig, hdebounce, hcache⟩ := execWriteGain_sameBlock ht
  refine ⟨_, ht, congrArg _ s.atBus_responses, rfl, ?gain, fun a ha => ?other, hconfig, hdebounce, hcache, ?clock,
    exec_agenda (i := .writeGain value) ht⟩
  case gain =>
    rw [State.gain, State.respond_regs, State.record_regs, State.setRegs_regs, Memory.read_write_same,
      lo8_toNat_of_gain hhigh]
  case other => exact Memory.read_write_other s.atBus.regs (lo8 value) ha
  case clock => rw [State.respond_clock, State.record_clock, State.setRegs_clock]

/-- What an operation that writes and then responds leaves of the cells and the clock. -/
theorem finish_memWrite_outside (s : State) (k : FrameKind) (payload : List Byte) (r : Rsp) {t : State}
    (ht : finish (s.memWrite k payload) (fun _ u => u.respond r) = t) :
    t.clock = s.atBus.clock ∧
    (∀ a, a < k.reg.toNat ∨ k.reg.toNat + payload.length ≤ a → t.regs.read a = s.atBus.regs.read a) ∧
    (s.nextTurn.result.took = false → SameCells s.atBus t) := by
  subst ht
  cases h : s.nextTurn.result with
  | ok =>
    rw [State.finish_memWrite_ok h]
    exact ⟨by simp, fun a ha => Memory.read_writeBlock_outside _ ha, nofun⟩
  | err e taken =>
    rw [State.finish_memWrite_err h]
    cases taken with
    | false => exact ⟨by simp, fun _ _ => rfl, fun _ _ => rfl⟩
    | true => exact ⟨by simp, fun a ha => Memory.read_writeBlock_outside _ ha, nofun⟩

/-- Settles O34: a rejected value only gets its response; an accepted one makes one write frame. -/
theorem writeOperationsFrame : Obligations.WriteOperationsFrame := by
  rintro s t value i (rfl | rfl) h
  · obtain ⟨hconfig, hdebounce, hcache⟩ := execWriteCounter_sameBlock h
    refine ⟨hconfig, hdebounce, hcache, exec_agenda h, fun _ hv => ?rejected, fun _ hv => ?accepted, nofun, nofun⟩
    case rejected =>
      cases (execWriteCounter_outOfRange hv s).symm.trans h
      exact ⟨fun _ => rfl, rfl, rfl⟩
    case accepted =>
      cases (execWriteCounter_inRange hv s).symm.trans h
      obtain ⟨hclock, hcells, huntaken⟩ := finish_memWrite_outside s .wrCnt (counterBytes value) _ rfl
      refine ⟨hclock, fun a h8 h9 => hcells a ?_, huntaken⟩
      simp only [reg_wrCnt, counterBytes, List.length_cons, List.length_nil]
      omega
  · obtain ⟨hconfig, hdebounce, hcache⟩ := execWriteGain_sameBlock h
    refine ⟨hconfig, hdebounce, hcache, exec_agenda h, nofun, nofun, fun _ hv => ?rejected,
      fun _ hlow hhigh => ?accepted⟩
    case rejected =>
      cases (execWriteGain_outOfRange hv s).symm.trans h
      exact ⟨fun _ => rfl, rfl, rfl⟩
    case accepted =>
      cases (execWriteGain_inRange ⟨hlow, hhigh⟩ s).symm.trans h
      obtain ⟨hclock, hcells, huntaken⟩ := finish_memWrite_outside s .wrGain [lo8 value] _ rfl
      refine ⟨hclock, fun a ha => hcells a ?_, huntaken⟩
      simp only [reg_wrGain, List.length_cons, List.length_nil]
      omega

/-! ### The reading operations -/

/-- `t` has the cells, the clock and the ports of `b`, the state in which the transaction acted. -/
def State.AsActed (b t : State) : Prop :=
  SameCells b t ∧ t.clock = b.clock ∧ t.agenda = b.agenda ∧ t.busTurns = b.busTurns ∧ t.freeCount = b.freeCount

theorem finish_memRead_asActed (s : State) (k : FrameKind) {f : List Byte → State → State}
    (hf : ∀ v u, s.atBus.AsActed u → s.atBus.AsActed (f v u)) : s.atBus.AsActed (finish (s.memRead k) f) := by
  refine finish_keeps ?_ (fun _ _ hu => hu) hf
  rcases s.memRead_cases k with ⟨e, taken, _, hm⟩ | ⟨_, hm⟩ <;> rw [hm]
  · exact ⟨fun _ => rfl, rfl, rfl, rfl, rfl⟩
  · exact ⟨fun _ => rfl, rfl, rfl, rfl, rfl⟩

/-- Settles O33: each reads once, and what it does then touches neither the peripheral nor the ports. -/
theorem readOperationsFrame : Obligations.ReadOperationsFrame := by
  intro s t arg i hi h
  simp only [List.mem_cons, List.not_mem_nil, or_false] at hi
  have hacted : s.atBus.AsActed t := by
    rcases hi with rfl | rfl | rfl | rfl | rfl <;> cases h <;> exact finish_memRead_asActed s _ fun _ _ hu => hu
  have hblock : (∀ a, i ≠ .poll a) ∧ (∀ a, i ≠ .takeDownPending a) := by
    rcases hi with rfl | rfl | rfl | rfl | rfl <;> exact ⟨nofun, nofun⟩
  obtain ⟨hpoll, htake⟩ := hblock
  obtain ⟨hconfig, hdebounce⟩ := exec_sameConfig_sameDebounce h hpoll htake
  obtain ⟨hcells, hclock, _, hturns, hfree⟩ := hacted
  refine ⟨hconfig, hdebounce, fun hinfo => exec_sameCache h ?_, hcells, hclock, exec_agenda h, hturns, hfree⟩
  rintro a rfl
  rcases hi with hi | hi | hi | hi | hi <;> cases hi
  exact hinfo rfl

/-! ### Read-and-acknowledge -/

theorem execReadKeyStatus_idle {s u : State} (h : s.KeyIdle u) :
    execReadKeyStatus s = .next (u.respond (okRsp false 0#56)) := by
  rw [execReadKeyStatus, State.readAndAcknowledge_idle h, finish_ok]

theorem execReadKeyStatus_edge {s u : State} (h : s.KeyEdge u) :
    execReadKeyStatus s = .next (u.respond (okRsp true 0#56)) := by
  rw [execReadKeyStatus, State.readAndAcknowledge_edge h, finish_ok]

/-- Settles O24: the three ends of the read-and-acknowledge, each with its response. -/
theorem readKeyStatusResult : Obligations.ReadKeyStatusResult := fun s _ =>
  ⟨fun _ _ h => execReadKeyStatus_fails h, fun _ h => execReadKeyStatus_idle h, fun _ h => execReadKeyStatus_edge h,
    s.key_cases⟩

/-- The read-and-acknowledge from `s` ends in `u`, in one of its three ways. -/
def State.KeyEnds (s u : State) : Prop := (∃ e, s.KeyFails e u) ∨ s.KeyIdle u ∨ s.KeyEdge u

/-- `READ_KEY_STATUS` leaves the cells as its read-and-acknowledge does. -/
theorem execReadKeyStatus_keyEnds {s t : State} (h : execReadKeyStatus s = .next t) :
    ∃ u, s.KeyEnds u ∧ t.regs = u.regs := by
  rcases s.key_cases with ⟨e, u, hk⟩ | ⟨u, hk⟩ | ⟨u, hk⟩
  · cases (execReadKeyStatus_fails hk).symm.trans h
    exact ⟨u, .inl ⟨e, hk⟩, rfl⟩
  · cases (execReadKeyStatus_idle hk).symm.trans h
    exact ⟨u, .inr (.inl hk), rfl⟩
  · cases (execReadKeyStatus_edge hk).symm.trans h
    exact ⟨u, .inr (.inr hk), rfl⟩

/-- So does an effective `POLL`, which also records its time. -/
theorem execPoll_keyEnds {s t : State} (hl : s.rateLimited s.clock = false) (h : execPoll s = .next t) :
    (∃ u, s.KeyEnds u ∧ t.regs = u.regs) ∧ t.lastPollTime = s.clock ∧ t.lastPollValid = true := by
  rcases s.key_cases with ⟨e, u, hk⟩ | ⟨u, hk⟩ | ⟨u, hk⟩
  · cases (execPoll_fails hl hk).symm.trans h
    exact ⟨⟨u, .inl ⟨e, hk⟩, rfl⟩, rfl, rfl⟩
  · cases (execPoll_idle hl hk).symm.trans h
    exact ⟨⟨u, .inr (.inl hk), by simp⟩, by simp, by simp⟩
  · cases (execPoll_edge hl hk).symm.trans h
    exact ⟨⟨u, .inr (.inr hk), by simp⟩, by simp, by simp⟩

/-- After a failed or idle read every cell is as the read found it. -/
theorem State.KeyEnds.read_only {s u : State} (h : s.KeyEnds u)
    (hread : s.nextTurn.result ≠ .ok ∨ s.atBus.keyStatus = 0x00#8) : u.regs = s.atBus.regs := by
  rcases h with ⟨e, taken, ⟨_, rfl⟩ | ⟨hok, hkey, _⟩⟩ | ⟨_, _, rfl⟩ | ⟨hok, hkey, _⟩
  · rfl
  · exact hread.elim (absurd hok) fun hzero => absurd hzero hkey
  · rfl
  · exact hread.elim (absurd hok) fun hzero => absurd hzero hkey

/-- After a nonzero read the clearing write leaves every cell but `KEY_STATUS`, and that one too if it is not taken. -/
theorem State.KeyEnds.cleared {s u : State} (h : s.KeyEnds u) (hok : s.nextTurn.result = .ok)
    (hkey : s.atBus.keyStatus ≠ 0x00#8) : u.regs =
      if s.afterKeyRead.nextTurn.result.took then s.afterKeyRead.atBus.regs.write Config.regKeyStatus 0x00#8
      else s.afterKeyRead.atBus.regs := by
  rcases h with ⟨e, taken, ⟨herr, _⟩ | ⟨_, _, hclear, rfl⟩⟩ | ⟨_, hzero, _⟩ | ⟨_, _, hclear, rfl⟩
  · cases hok.symm.trans herr
  · rw [hclear, State.afterFailedClear]
    cases taken <;> rfl
  · exact absurd hzero hkey
  · rw [hclear]
    rfl

/-- Settles O35: the cells by the ends of the read-and-acknowledge, the registers by what every instruction leaves. -/
theorem keyStatusOperationsFrame : Obligations.KeyStatusOperationsFrame := by
  intro s t arg i hi h
  have hends : ∃ u, s.KeyEnds u ∧ t.regs = u.regs := by
    rcases hi with rfl | ⟨rfl, hl⟩
    · exact execReadKeyStatus_keyEnds h
    · exact (execPoll_keyEnds hl h).1
  obtain ⟨u, hu, hregs⟩ := hends
  have hinfo : ∀ a, i ≠ .readInfo a := by rcases hi with rfl | ⟨rfl, _⟩ <;> nofun
  refine ⟨exec_sameConfig h, exec_sameCache h hinfo, ?debounce, exec_agenda h, fun hread a => ?readOnly,
    fun hok hkey => ⟨fun a ha => ?otherCells, fun huntaken a => ?untaken⟩⟩
  case debounce =>
    rintro rfl
    exact (exec_sameConfig_sameDebounce h nofun nofun).2
  case readOnly => rw [hregs, hu.read_only hread]
  case otherCells =>
    rw [hregs, hu.cleared hok hkey]
    split
    · exact Memory.read_write_other _ _ ha
    · rfl
  case untaken => rw [hregs, hu.cleared hok hkey, huntaken, if_neg Bool.false_ne_true]

/-! ### `POLL` -/

/-- Settles O25: a rate-limited poll by its test, any other by the key read it makes. -/
theorem rateLimitedPollDoesNothing : Obligations.RateLimitedPollDoesNothing := by
  refine fun s arg => ⟨fun hvalid hearly => ?limited, fun hvalid hbehind => ?behind, fun hdue => ?effective⟩
  case limited => exact execPoll_rateLimited ((s.rateLimited_iff _).mpr ⟨hvalid, hearly⟩)
  case behind => exact execPoll_rateLimited ((s.rateLimited_iff _).mpr ⟨hvalid, by omega⟩)
  case effective =>
    have hl := (s.rateLimited_false_iff _).mpr hdue
    obtain ⟨t, ht⟩ := exec_next (.poll arg) s
    obtain ⟨_, htime, hvalid⟩ := execPoll_keyEnds hl ht
    refine ⟨t, ht, htime, hvalid, ?_⟩
    obtain ⟨new, hframes, ⟨hlimited, _⟩ | ⟨_, hkey⟩⟩ := execPoll_blockFrames ht
    · cases hl.symm.trans hlimited
    · rw [hframes]
      rcases hkey with ⟨r, rfl, _⟩ | ⟨r, b, rfl, _⟩ <;> simp

/-- An edge that the clearing write could not acknowledge is still there, if nothing took it away (R135). -/
theorem State.KeyFails.pending {s u : State} {e e' : Byte} (h : s.KeyFails e u) (hok : s.nextTurn.result = .ok)
    (hclear : s.afterKeyRead.nextTurn.result = .err e' false)
    (hevents : ∀ event ∈ s.afterKeyRead.nextTurn.events, ¬ event.ClearsKey s.devAddr) : u.keyStatus ≠ 0x00#8 := by
  obtain ⟨taken, ⟨herr, _⟩ | ⟨_, hkey, _⟩⟩ := id h
  · cases hok.symm.trans herr
  have hregs : u.regs = s.afterKeyRead.atBus.regs := by
    rw [State.KeyEnds.cleared (.inl ⟨e, h⟩) hok hkey, hclear]
    rfl
  rw [State.keyStatus, hregs]
  refine State.environment_pending (s := s.afterKeyRead.dropTurn) ?_ ?_
  · rwa [State.dropTurn_devAddr, State.afterKeyRead_devAddr]
  · rwa [State.keyStatus, State.dropTurn_regs]

/-- Settles O27: nothing but the poll time has moved since the failed transaction. -/
theorem failedPollPreservesDebounce : Obligations.FailedPollPreservesDebounce := by
  intro s arg e u hl hk
  obtain ⟨b, taken, hu⟩ := hk.failedIn
  obtain ⟨hcount, hedgeTime, hedgeValid, hdown, hup, hpollTime, hpollValid⟩ :=
    hu.onlyPolled s.clock (transportErrorRsp e)
  exact ⟨_, execPoll_fails hl hk, congrArg _ hu.responses, hcount, hedgeTime, hedgeValid, hdown, hup, hpollTime,
    hpollValid, fun _ => rfl, fun hok hclear hevents => hk.pending hok hclear hevents⟩

/-- Settles O28: the poll time that the failed poll wrote limits the next one. -/
theorem failedPollCostsItsSlot : Obligations.FailedPollCostsItsSlot := by
  intro s arg arg' e u t now m hl _ ht hnow
  obtain ⟨_, htime, hvalid⟩ := execPoll_keyEnds hl ht
  obtain ⟨_, _, hinterval, _⟩ := exec_sameConfig ht
  refine execPoll_rateLimited ((State.rateLimited_iff _ _).mpr ⟨hvalid, ?_⟩)
  show now < t.lastPollTime + t.pollInterval
  omega

/-! ### The identity cache -/

/-- The transaction does not write below 0x08. -/
def SparesIdentity (tr : Transaction) : Prop :=
  tr.header.getLsbD 19 = true → 8 ≤ (headerReg tr.header).toNat

theorem header_dir (k : FrameKind) (dev : DevAddr) : (k.header dev).getLsbD 19 = k.isWrite := by
  revert dev; cases k <;> decide

/-- None of the eight frames writes below 0x08 (R57). -/
theorem spares_identity (s : State) (k : FrameKind) {base : Word20} (hbase : k.header 0#7 = base) (m : Master)
    (payload : List Byte) (r : Reply) : SparesIdentity ⟨m, s.headerTo base, payload, r⟩ := by
  intro hwrite
  rw [← hbase, ← header_own] at hwrite ⊢
  rw [headerReg_header]
  exact (FrameKind.write_reg ((header_dir _ _).symm.trans hwrite)).1

theorem State.KeyFrames.spare_identity {s : State} {new : List Transaction} (h : s.KeyFrames new) :
    ∀ tr ∈ new, SparesIdentity tr := by
  have hread (r : Reply) := spares_identity s .rdKey header0_rdKey .block [] r
  rcases h with ⟨r, rfl, _⟩ | ⟨r, b, rfl, _⟩
  · simpa using hread r
  · simpa using ⟨spares_identity s .wrKeyClr header0_wrKeyClr .block [0x00#8] r, hread (.answered [b])⟩

/-- What is no operation is a frame of another master (log 8). -/
theorem exec_frame {i : Instr} (hi : isOperation i = false) (s : State) :
    ∃ k dev payload, exec i s = .next (s.busFrame k dev payload) := by
  cases i
  case rdPid | rdInfo | rdCnt | wrCnt | rdKey | wrKeyClr | rdGain | wrGain => exact ⟨_, _, _, rfl⟩
  all_goals cases hi

/-- The frames that an instruction adds to the block's record write to no identity cell. -/
theorem exec_frames_spare_identity {i : Instr} {s t : State} (h : exec i s = .next t) :
    ∃ new : List Transaction, t.blockFrames = new ++ s.blockFrames ∧ ∀ tr ∈ new, SparesIdentity tr := by
  cases hi : isOperation i with
  | false =>
    obtain ⟨k, dev, payload, hframe⟩ := exec_frame hi s
    cases hframe.symm.trans h
    exact ⟨[], s.busFrame_blockFrames k dev payload, nofun⟩
  | true =>
    obtain ⟨new, hframes, hnew⟩ := operationsIssueTheirFrames i s t hi h
    refine ⟨new, hframes, ?_⟩
    cases i
    case identify => obtain ⟨r, rfl⟩ := hnew; simpa using spares_identity s .rdPid header0_rdPid _ _ r
    case readInfo => obtain ⟨r, rfl⟩ := hnew; simpa using spares_identity s .rdInfo header0_rdInfo _ _ r
    case readCounter | encoderAsFraction =>
      obtain ⟨r, rfl⟩ := hnew; simpa using spares_identity s .rdCnt header0_rdCnt _ _ r
    case readGain => obtain ⟨r, rfl⟩ := hnew; simpa using spares_identity s .rdGain header0_rdGain _ _ r
    case writeCounter v =>
      dsimp only at hnew
      split at hnew
      · obtain ⟨r, rfl⟩ := hnew; simpa using spares_identity s .wrCnt header0_wrCnt _ _ r
      · subst hnew; nofun
    case writeGain v =>
      dsimp only at hnew
      split at hnew
      · obtain ⟨r, rfl⟩ := hnew; simpa using spares_identity s .wrGain header0_wrGain _ _ r
      · subst hnew; nofun
    case readKeyStatus => exact State.KeyFrames.spare_identity hnew
    case poll =>
      rcases hnew with ⟨_, rfl⟩ | ⟨_, hkey⟩
      · nofun
      · exact State.KeyFrames.spare_identity hkey
    case takeDownPending | isDown => subst hnew; nofun
    all_goals exact hnew.elim

/-- Settles O37: who writes the cache, what `READ_INFO` writes into it, and who writes the cells it was read from. -/
theorem onlyReadInfoRefreshesTheCache : Obligations.OnlyReadInfoRefreshesTheCache := by
  refine ⟨fun i s t h hinfo => exec_sameCache h hinfo,
    fun arg s t h => ⟨fun e taken herr => ?failed, fun hok => ?fresh⟩, fun i s t h => exec_frames_spare_identity h,
    fun i s t h a ha hm => ?cells⟩
  case failed =>
    cases ((readInfoResult s arg).2 e taken herr).symm.trans h
    simp [SameCache]
  case fresh =>
    obtain ⟨u, hu, ⟨hproduct, hvendor, hversion, haddress, hvalid, _⟩, _⟩ := (readInfoResult s arg).1 hok
    cases hu.symm.trans h
    exact ⟨hvalid, hproduct, hvendor, hversion, haddress⟩
  case cells => exact (State.kept_identity ha _).exec nofun nofun hm rfl h

/-! ### One response -/

/-- The operation from `s` has ended in `t` with one response, of a status that an operation may give (R74, R100). -/
def State.Answered (s t : State) : Prop :=
  ∃ r, t.responses = r :: s.responses ∧ r.status ≠ .illegalCommand ∧ (r.status = .transportError → r.flag = false)

theorem State.answered_ok {s t : State} {flag : Bool} {data : BitVec 56}
    (h : t.responses = okRsp flag data :: s.responses) : s.Answered t := ⟨_, h, nofun, nofun⟩

theorem State.answered_error {s t : State} {e : Byte} (h : t.responses = transportErrorRsp e :: s.responses) :
    s.Answered t := ⟨_, h, nofun, fun _ => rfl⟩

theorem finish_answered {s : State} {α : Type} {r : Except Byte α × State} {f : α → State → State}
    (hr : r.2.responses = s.responses) (hf : ∀ v u, ∃ flag data, (f v u).responses = okRsp flag data :: u.responses) :
    s.Answered (finish r f) := by
  obtain ⟨e | v, u⟩ := r
  · exact State.answered_error (congrArg _ hr)
  · obtain ⟨flag, data, h⟩ := hf v u
    exact State.answered_ok (h.trans (congrArg _ hr))

theorem execPoll_answered {s t : State} (h : execPoll s = .next t) : s.Answered t := by
  cases hl : s.rateLimited s.clock with
  | true =>
    cases (execPoll_rateLimited hl).symm.trans h
    exact State.answered_ok rfl
  | false =>
    cases (execPoll_effective hl).symm.trans h
    exact finish_answered (s.recordPoll s.clock).readAndAcknowledge_called.responses fun _ _ =>
      ⟨false, 0#56, by simp [okRsp]⟩

theorem exec_answered {i : Instr} {s t : State} (hi : isOperation i = true) (h : exec i s = .next t) :
    s.Answered t := by
  cases i
  case identify | readInfo | readCounter | readGain | encoderAsFraction =>
    cases h; exact finish_answered (s.memRead_called _).responses fun _ _ => ⟨_, _, rfl⟩
  case writeCounter | writeGain =>
    cases h
    show s.Answered (if _ then _ else _)
    split
    · exact finish_answered (s.memWrite_called _ _).responses fun _ _ => ⟨_, _, rfl⟩
    · exact State.answered_ok rfl
  case readKeyStatus => cases h; exact finish_answered s.readAndAcknowledge_called.responses fun _ _ => ⟨_, _, rfl⟩
  case poll => exact execPoll_answered h
  case takeDownPending =>
    cases (execTakeDownPending_eq s).symm.trans h
    exact State.answered_ok rfl
  case isDown => cases h; exact State.answered_ok rfl
  case rdPid | rdInfo | rdCnt | wrCnt | rdKey | wrKeyClr | rdGain | wrGain => cases hi

/-- Settles O40: operations answer once, frames not at all, and no arm of the nine looks at its argument. -/
theorem oneResponseForEachOperation : Obligations.OneResponseForEachOperation := by
  refine ⟨fun i s hi => ?operation, fun i s hi => ?frame, fun s arg arg' op hop => ?ignored⟩
  case operation =>
    obtain ⟨t, ht⟩ := exec_next i s
    obtain ⟨r, hr⟩ := exec_answered hi ht
    exact ⟨t, r, ht, hr⟩
  case frame =>
    obtain ⟨k, dev, payload, hframe⟩ := exec_frame hi s
    exact ⟨_, hframe, s.busFrame_responses k dev payload⟩
  case ignored =>
    simp only [List.mem_cons, List.not_mem_nil, or_false] at hop
    rcases hop with rfl | rfl | rfl | rfl | rfl | rfl | rfl | rfl | rfl <;> rfl

end Sys2Proof.Machine
end

section
/-! Two operations in a row, and the hazards (R51, R112, R195, R200, R205): what is read back after a write, after an
acknowledge, and after an exchange of the peripheral. -/

namespace Sys2Proof.Machine

/-! ### Round trips -/

/-- The counter is as it was at the last transaction, if nothing wrote its two cells since (R51). -/
theorem State.atBus_counter {s : State}
    (h : ∀ e ∈ s.nextTurn.events, ¬ e.Writes s.devAddr 0x08 ∧ ¬ e.Writes s.devAddr 0x09) :
    s.atBus.counter = s.counter := by
  have h8 : s.atBus.regs.read Config.regCounter = s.regs.read Config.regCounter :=
    State.atBus_read fun e he => (h e he).1
  have h9 : s.atBus.regs.read (Config.regCounter + 1) = s.regs.read (Config.regCounter + 1) :=
    State.atBus_read fun e he => (h e he).2
  rw [State.counter, Memory.read16, h8, h9]
  rfl

/-- Settles O52: the write leaves the value in the counter, which the read then finds. -/
theorem counterRoundTrip : Obligations.CounterRoundTrip := by
  refine fun s t value arg h => ⟨fun hv hok hok' hevents => ?accepted, fun hv => ?rejected⟩
  case accepted =>
    have hcounter : t.atBus.counter = value := by
      obtain ⟨u, hu, _, _, hcounter, _⟩ := (writeCounterResult s value hv).1 hok
      cases hu.symm.trans h
      rw [State.atBus_counter hevents, hcounter]
    have hdata : BitVec.ofNat 56 (256 * (t.atBus.regs.read 8).toNat + (t.atBus.regs.read 9).toNat) =
        BitVec.ofNat 56 value.toNat := by
      rw [read16_ofNat, ← hcounter]
      rfl
    refine ⟨⟨_, (readCounterResult t arg).1 hok', ?_⟩,
      ⟨_, _, execEncoderAsFraction_ok hok', congrArg _ t.atBus_responses, ?_⟩⟩
    · rw [State.respond_responses, State.record_responses, State.atBus_responses, hdata]
    · rw [hdata, fractionOf_counter]
  case rejected =>
    cases (execWriteCounter_outOfRange hv s).symm.trans h
    exact ⟨rfl, rfl⟩

/-- Settles O53: the write leaves the value in the gain, which the read then finds. -/
theorem gainRoundTrip : Obligations.GainRoundTrip := by
  refine fun s t value arg h => ⟨fun hlow hhigh hok hok' hevents => ?accepted, fun hv => ?rejected⟩
  case accepted =>
    have hgain : (t.atBus.regs.read 0x0B).toNat = value.toNat := by
      obtain ⟨u, hu, _, _, hgain, _⟩ := (writeGainResult s value hlow hhigh).1 hok
      cases hu.symm.trans h
      rw [State.atBus_read hevents]
      exact hgain
    refine ⟨_, (readGainResult t arg).1 hok', ?_⟩
    rw [State.respond_responses, State.record_responses, State.atBus_responses, hgain]
  case rejected =>
    cases (execWriteGain_outOfRange hv s).symm.trans h
    exact ⟨rfl, rfl⟩

/-! ### The acknowledge window -/

theorem State.clearKey_keyStatus (s : State) : s.clearKey.keyStatus = 0x00#8 := by
  rw [State.keyStatus, State.clearKey, State.setRegs_regs, Memory.read_write_same]

/-- Steps 3 to 5 count an edge that was found, in either state (R131). -/
theorem State.debounce_edge_pressCount (s : State) (now : Nat) :
    (s.debounce now true).pressCount = s.pressCount + 1 := by
  cases ho : s.isOdd with
  | false => rw [State.debounce_up_edge ho]
  | true => rw [State.debounce_down_edge ho]

/-- Settles O54: the clearing write is the last thing to touch the flag, and one edge is counted. -/
theorem windowEdgeIsErased : Obligations.WindowEdgeIsErased := by
  intro s u t arg hk hl h
  cases (execPoll_edge hl hk).symm.trans h
  obtain ⟨_, ⟨hcount, _⟩, _⟩ := hk.block
  obtain ⟨_, _, _, rfl⟩ := hk
  refine ⟨?_, ?_⟩
  · rw [State.keyStatus, State.respond_regs, State.debounce_regs]
    exact State.clearKey_keyStatus _
  · rw [State.respond_pressCount, State.debounce_edge_pressCount, State.recordPoll_pressCount, hcount]

/-! ### A foreign acknowledge -/

/-- Without an event that raises it the flag stays 0x00: other masters' writes to it are acknowledges (R200). -/
theorem State.applyEvent_idle {s : State} {e : BusEvent} (he : ¬ e.RaisesKey) (hs : s.keyStatus = 0x00#8) :
    (s.applyEvent e).keyStatus = 0x00#8 := by
  by_cases hw : e.Writes s.devAddr Config.regKeyStatus
  · cases e with
    | move m =>
      cases m with
      | button n => exact absurd trivial he
      | rotate c => simp [BusEvent.Writes, Config.regKeyStatus, Config.regCounter] at hw
      | clock t => exact hw.elim
      | exchange cells =>
        have hcell : (s.applyEvent (.move (.exchange cells))).keyStatus = cells[10] := s.exchange_read cells (by decide)
        exact hcell.trans (not_not.mp he)
      | readdress n => simp [BusEvent.Writes, Config.regKeyStatus, Config.regBusAddr] at hw
    | frame k d v r =>
      obtain ⟨rfl, hk, htaken, hlow, hhigh⟩ := hw
      rcases s.foreignFrame_cases k s.devAddr (k.payload v) r with ⟨hread, _⟩ | ⟨_, reply, hf⟩
      · cases hk.symm.trans hread
      rw [State.applyEvent, hf, htaken, State.afterFailedWrite_own, if_pos rfl]
      cases k
      case rdPid | rdInfo | rdCnt | rdKey | rdGain => cases hk
      case wrCnt => simp [Config.regKeyStatus] at hhigh
      case wrKeyClr => exact s.clearKey_keyStatus
      case wrGain => simp [Config.regKeyStatus] at hlow
  · rwa [State.keyStatus, State.applyEvent_read hw]

theorem State.atBus_idle {s : State} (h : ∀ e ∈ s.nextTurn.events, ¬ e.RaisesKey) (hs : s.keyStatus = 0x00#8) :
    s.atBus.keyStatus = 0x00#8 :=
  State.environment_keeps (P := fun u => u.keyStatus = 0x00#8) (fun _ e he hu => State.applyEvent_idle (h e he) hu)
    (by rwa [State.keyStatus, State.dropTurn_regs])

/-- A poll that finds no edge counts none: it leaves the button alone or forces it up (R134). -/
theorem execPoll_idle_button {s u v : State} (hl : s.rateLimited s.clock = false) (hk : s.KeyIdle u)
    (h : execPoll s = .next v) : (v.pressCount = s.pressCount ∨ v.pressCount = 0) ∧
      (s.fsm = .up → v.fsm = .up ∧ v.downPending = s.downPending) := by
  obtain ⟨_, ⟨hcount, _, _, _, _, hdown, _⟩, _⟩ := hk.block
  cases hfsm : s.fsm with
  | up =>
    cases (execPoll_up_idle hl hfsm hk).symm.trans h
    exact ⟨.inl hcount.symm, fun _ => ⟨(State.fsm_congr (congrArg (· % 2) hcount)).symm.trans hfsm, hdown.symm⟩⟩
  | down =>
    refine ⟨?_, nofun⟩
    by_cases ht : s.clock ≤ s.lastEdgeTime + s.stuckTimeout
    · cases (execPoll_down_idle hl hk ht).symm.trans h
      exact .inl hcount.symm
    · cases (execPoll_down_stuck hl hfsm hk (not_le.mp ht)).symm.trans h
      exact .inr rfl

/-- The header of R76 at the block's peripheral is that of the frame. -/
theorem decodeFrame_wrKeyClr (s : State) :
    decodeFrame (s.headerTo 0x800A1#20) [0x00#8] = .ok (.wrKeyClr s.devAddr) := by
  rw [← header0_wrKeyClr, ← header_own]
  exact decodeEncodeAgree (.wrKeyClr s.devAddr)

/-- A successful acknowledge by another master at the block's peripheral takes the edge away (R200). -/
theorem State.busFrame_wrKeyClr_keyStatus {s : State} (h : s.nextTurn.result = .ok) :
    (s.busFrame .wrKeyClr s.devAddr [0x00#8]).keyStatus = 0x00#8 := by
  rw [State.keyStatus, State.busFrame_write_regs s s.devAddr rfl, h, if_pos ⟨rfl, rfl⟩]
  exact Memory.read_write_same s.atBus.regs Config.regKeyStatus 0x00#8

/-- Settles O55: the flag is 0x00 after the frame and still when the key is read, so that the poll finds no edge. -/
theorem foreignAcknowledgeTakesTheEdge : Obligations.ForeignAcknowledgeTakesTheEdge := by
  intro s t v arg rest hagenda hok hstep hl hok' hevents h
  obtain ⟨_, _, hruns⟩ := stepRunsDecodedInstruction s (.wrKeyClr s.devAddr) rest
  have ht := hruns _ _ hagenda (decodeFrame_wrKeyClr s)
  cases ht.symm.trans hstep
  have hkey : (State.busFrame (s.withAgenda rest) .wrKeyClr s.devAddr [0x00#8]).keyStatus = 0x00#8 :=
    State.busFrame_wrKeyClr_keyStatus (s := s.withAgenda rest) hok
  obtain ⟨hv, hup'⟩ := execPoll_idle_button hl ⟨hok', State.atBus_idle hevents hkey, rfl⟩ h
  obtain ⟨_, ⟨hcount, _, _, _, _, hdown, _⟩, _⟩ := (s.withAgenda rest).busFrame_sameBlock .wrKeyClr s.devAddr [0x00#8]
  have hfsm := State.fsm_congr (congrArg (· % 2) hcount)
  refine ⟨hkey, hv.imp_left fun hsame => hsame.trans hcount.symm, fun hup => ?_⟩
  obtain ⟨hstill, hpending⟩ := hup' (hfsm.symm.trans hup)
  exact ⟨hstill, hpending.trans hdown.symm⟩

/-! ### Stale identity -/

/-- A step in which nobody asks leaves address and cache (R205). -/
theorem step_unasked {s t : State} (hQ : ∀ turn ∈ s.agenda, ¬ turn.isReadInfo ∧ ¬ turn.isConstruct)
    (h : step s = .next t) : t.devAddr = s.devAddr ∧ SameCache s t := by
  have hhead := State.head_of_agenda hQ
  obtain ⟨hdev, _⟩ := configurationNeverChanges s t h fun turn rest hagenda => (hhead turn rest hagenda).2
  exact ⟨hdev.symm, step_sameCache h hhead⟩

/-- Settles O58: moves and runs leave the copies, and a read finds the cells that nothing has written. -/
theorem staleIdentityUntilReadAgain : Obligations.StaleIdentityUntilReadAgain := by
  refine ⟨fun s cells rest hagenda => ?exchange, fun s n rest hagenda => ?readdress, fun k s t hs h => ?run,
    fun s cells arg hcells hok hevents => ?fresh⟩
  case exchange =>
    exact ⟨_, step_env hagenda, by simp, by simp [SameCache], fun a ha => State.exchange_read _ cells ha⟩
  case readdress =>
    exact ⟨_, step_env hagenda, by simp, by simp [SameCache], State.applyMove_readdress_read _ n⟩
  case run =>
    refine run_keeps (P := fun u => u.devAddr = s.devAddr ∧ SameCache s u) (fun u v hQ huv hu => ?_) hs
      ⟨rfl, .refl s⟩ h
    obtain ⟨hdev, hcache⟩ := step_unasked hQ huv
    exact ⟨hdev.trans hu.1, hu.2.trans hcache⟩
  case fresh =>
    have hread (a : Nat) (ha : a < 8) : s.atBus.regs.read a = cells[a] :=
      (State.atBus_read fun e he => hevents e he a ha).trans (hcells a ha)
    refine ⟨?readInfo, ?identify⟩
    case readInfo =>
      obtain ⟨t, ht, ⟨hproduct, hvendor, hversion, haddress, hvalid, _, htrace⟩, _⟩ := (readInfoResult s arg).1 hok
      simp only [hread 0 (by decide), hread 1 (by decide), hread 2 (by decide), hread 3 (by decide),
        hread 4 (by decide), hread 5 (by decide), hread 7 (by decide)] at hproduct hvendor hversion haddress
      exact ⟨t, _, ht, hproduct, hvendor, hversion, haddress, hvalid, by rw [htrace]; rfl⟩
    case identify =>
      refine ⟨_, _, _, (identifyResult s arg).1 hok, congrArg _ s.atBus_responses, rfl, ?_, ?_, rfl⟩
      · rw [hread 0 (by decide), hread 1 (by decide), ← Bool.beq_eq_decide_eq (be16 _ _), be16_beq]
        rfl
      · rw [hread 0 (by decide), hread 1 (by decide), be16_setWidth]

end Sys2Proof.Machine
end

section
/-! Operations on two scripts of the environment that the block cannot tell apart (R58, R198): frames to other devices
taken out, failed writes taken or not. An operation whose transactions agree in what a projection keeps agrees in it. -/

namespace Sys2Proof.Machine

/-! ### Operations whose transactions agree -/

/-- Two calls of the bus end alike and leave states that agree in what `p` keeps. -/
def AgreeUpTo (p : State → State) {α : Type} (r r' : Except Byte α × State) : Prop := r.1 = r'.1 ∧ p r.2 = p r'.2

/-- `Q` relates states that `p` does not tell apart, and whose coming transactions (of one operation) agree up to `p`;
`p` keeps what an operation looks at beside its transactions, and commutes with what it does to the block. -/
structure Agreement (p : State → State) (Q : State → State → Prop) : Prop where
  respond : ∀ s r, p (s.respond r) = (p s).respond r
  cache : ∀ s bytes, p (s.cacheInfo bytes) = (p s).cacheInfo bytes
  debounce : ∀ s now edge, p (s.debounce now edge) = p ((p s).debounce now edge)
  take : ∀ s, p s.clearDown = (p s).clearDown
  down : ∀ s, (p s).downPending = s.downPending
  odd : ∀ s, (p s).isOdd = s.isOdd
  clock : ∀ s, (p s).clock = s.clock
  limited : ∀ s now, (p s).rateLimited now = s.rateLimited now
  view : ∀ s u, Q s u → p s = p u
  poll : ∀ s u now, Q s u → Q (s.recordPoll now) (u.recordPoll now)
  read : ∀ s u k, Q s u → AgreeUpTo p (s.memRead k) (u.memRead k)
  write : ∀ s u k payload, Q s u → AgreeUpTo p (s.memWrite k payload) (u.memWrite k payload)
  clear : ∀ s u, Q s u → AgreeUpTo p ((s.memRead .rdKey).2.memWrite .wrKeyClr [0x00#8])
    ((u.memRead .rdKey).2.memWrite .wrKeyClr [0x00#8])

section
variable {p : State → State} {Q : State → State → Prop} {s u : State}

theorem Agreement.readAndAcknowledge (h : Agreement p Q) (hQ : Q s u) :
    AgreeUpTo p s.readAndAcknowledge u.readAndAcknowledge := by
  have hread := h.read s u .rdKey hQ
  have hclear := h.clear s u hQ
  unfold State.readAndAcknowledge
  generalize s.memRead .rdKey = read at hread hclear ⊢
  generalize u.memRead .rdKey = read' at hread hclear ⊢
  obtain ⟨r, t⟩ := read
  obtain ⟨r', t'⟩ := read'
  obtain ⟨rfl, ht⟩ := hread
  cases r with
  | error e => exact ⟨rfl, ht⟩
  | ok bytes =>
    by_cases hb : byteAt bytes 0 = 0x00#8
    · simp only [hb, if_true]
      exact ⟨rfl, ht⟩
    · simp only [hb, if_false]
      generalize t.memWrite .wrKeyClr [0x00#8] = write at hclear ⊢
      generalize t'.memWrite .wrKeyClr [0x00#8] = write' at hclear ⊢
      obtain ⟨w, v⟩ := write
      obtain ⟨w', v'⟩ := write'
      obtain ⟨rfl, hv⟩ := hclear
      cases w <;> exact ⟨rfl, hv⟩

theorem Agreement.respond_congr (h : Agreement p Q) (hsu : p s = p u) (r : Rsp) :
    p (s.respond r) = p (u.respond r) := by
  rw [h.respond, h.respond, hsu]

theorem Agreement.finish (h : Agreement p Q) {α : Type} {r r' : Except Byte α × State} (hr : AgreeUpTo p r r')
    {f : α → State → State} (hf : ∀ v t t', p t = p t' → p (f v t) = p (f v t')) :
    p (finish r f) = p (finish r' f) := by
  obtain ⟨r, t⟩ := r
  obtain ⟨r', t'⟩ := r'
  obtain ⟨rfl, ht⟩ := hr
  cases r with
  | error e => exact h.respond_congr ht _
  | ok v => exact hf v t t' ht

/-- An operation adds nothing that could tell the two states apart. -/
theorem Agreement.exec (h : Agreement p Q) {i : Instr} (hi : isOperation i = true) (hQ : Q s u) :
    SameUpTo p (exec i s) (exec i u) := by
  have hsu := h.view s u hQ
  cases i
  case identify | readCounter | readGain | encoderAsFraction =>
    exact h.finish (h.read s u _ hQ) fun _ _ _ ht => h.respond_congr ht _
  case readInfo =>
    exact h.finish (h.read s u _ hQ) fun _ _ _ ht => h.respond_congr (by rw [h.cache, h.cache, ht]) _
  case writeCounter | writeGain =>
    show p (if _ then _ else _) = p (if _ then _ else _)
    split
    · exact h.finish (h.write s u _ _ hQ) fun _ _ _ ht => h.respond_congr ht _
    · exact h.respond_congr hsu _
  case readKeyStatus => exact h.finish (h.readAndAcknowledge hQ) fun _ _ _ ht => h.respond_congr ht _
  case poll =>
    have hclock : u.clock = s.clock := by rw [← h.clock, ← hsu, h.clock]
    show SameUpTo p (execPoll s) (execPoll u)
    cases hl : s.rateLimited s.clock with
    | true =>
      have hl' : u.rateLimited u.clock = true := by rw [hclock, ← h.limited, ← hsu, h.limited, hl]
      rw [execPoll_rateLimited hl, execPoll_rateLimited hl']
      exact h.respond_congr hsu _
    | false =>
      have hl' : u.rateLimited u.clock = false := by rw [hclock, ← h.limited, ← hsu, h.limited, hl]
      rw [execPoll_effective hl, execPoll_effective hl', hclock]
      exact h.finish (h.readAndAcknowledge (h.poll s u _ hQ)) fun _ _ _ ht =>
        h.respond_congr (by rw [h.debounce, ht, ← h.debounce]) _
  case takeDownPending =>
    show SameUpTo p (execTakeDownPending s) (execTakeDownPending u)
    rw [execTakeDownPending_eq, execTakeDownPending_eq, ← h.down s, hsu, h.down]
    exact h.respond_congr (by rw [h.take, h.take, hsu]) _
  case isDown =>
    show p (s.respond (okRsp s.isOdd _)) = p (u.respond (okRsp u.isOdd _))
    rw [← h.odd s, hsu, h.odd]
    exact h.respond_congr hsu _
  case rdPid | rdInfo | rdCnt | wrCnt | rdKey | wrKeyClr | rdGain | wrGain => cases hi

end

/-! ### The ports after a transaction -/

theorem State.dropTurn_busTurns (s : State) : s.dropTurn.busTurns = s.busTurns.tail := by
  unfold State.dropTurn
  split <;> simp [*]

theorem State.atBus_busTurns (s : State) : s.atBus.busTurns = s.busTurns.tail :=
  (s.dropTurn.environment_busTurns _).trans s.dropTurn_busTurns

theorem State.memRead_busTurns (s : State) (k : FrameKind) : (s.memRead k).2.busTurns = s.busTurns.tail := by
  rcases s.memRead_cases k with ⟨e, taken, _, hm⟩ | ⟨_, hm⟩ <;> rw [hm] <;> exact s.atBus_busTurns

/-! ### Frames to other devices taken out -/

theorem BusTurn.alone_idem (dev : DevAddr) (turn : BusTurn) : (turn.alone dev).alone dev = turn.alone dev := by
  simp [BusTurn.alone]

theorem State.alone_idem (s : State) : s.alone.alone = s.alone := by
  simp [State.alone, State.blockFrames, Function.comp_def, BusTurn.alone_idem]

theorem State.alone_respond (s : State) (r : Rsp) : (s.respond r).alone = s.alone.respond r := rfl

theorem State.alone_record_block (s : State) (header : Word20) (payload : List Byte) (r : Reply) :
    (s.record ⟨.block, header, payload, r⟩).alone = s.alone.record ⟨.block, header, payload, r⟩ := rfl

theorem State.alone_record_other (s : State) (header : Word20) (payload : List Byte) (r : Reply) :
    (s.record ⟨.other, header, payload, r⟩).alone = s.alone := rfl

theorem State.alone_applyMove (s : State) (m : EnvMove) : (s.applyMove m).alone = s.alone.applyMove m := by
  cases m <;> rfl

/-- The free bytes that another device answers leave no mark. -/
theorem State.alone_afterAnswer (s : State) (k : FrameKind) (dev : DevAddr) :
    (s.afterAnswer k dev).alone = s.alone := by
  unfold State.afterAnswer
  split <;> rfl

theorem State.alone_setRegs (s : State) (m : Memory) : (s.setRegs m).alone = s.alone.setRegs m := rfl

theorem State.alone_afterFailedWrite (s : State) (k : FrameKind) (dev : DevAddr) (payload : List Byte) (taken : Bool) :
    (s.afterFailedWrite k dev payload taken).alone = s.alone.afterFailedWrite k dev payload taken := by
  cases taken with
  | false => rfl
  | true => exact apply_ite State.alone (dev = s.devAddr) _ _

/-- Of a frame of another master only its write at the block's peripheral is left. -/
theorem State.alone_foreignFrame (s : State) (k : FrameKind) (dev : DevAddr) (payload : List Byte) (r : BusResult) :
    (s.foreignFrame k dev payload r).alone =
      if k.isWrite then s.alone.afterFailedWrite k dev payload r.took else s.alone := by
  rcases s.foreignFrame_cases k dev payload r with ⟨hk, reply, hf⟩ | ⟨hk, reply, hf⟩ <;>
    rw [hf, State.alone_record_other, hk]
  · split
    · exact s.alone_afterAnswer k dev
    · rfl
  · exact s.alone_afterFailedWrite k dev payload _

section
variable {s u : State}

theorem State.applyEvent_alone_congr (h : s.alone = u.alone) (e : BusEvent) :
    (s.applyEvent e).alone = (u.applyEvent e).alone := by
  cases e with
  | move m => rw [State.applyEvent, State.applyEvent, State.alone_applyMove, State.alone_applyMove, h]
  | frame k dev v r =>
    rw [State.applyEvent, State.applyEvent, State.alone_foreignFrame, State.alone_foreignFrame, h]

theorem State.environment_alone_congr (h : s.alone = u.alone) (events : List BusEvent) :
    (s.environment events).alone = (u.environment events).alone := by
  induction events generalizing s u with
  | nil => exact h
  | cons e rest ih => exact ih (State.applyEvent_alone_congr h e)

/-- A frame to another device leaves nothing (R58). -/
theorem State.applyEvent_alone_other {e : BusEvent} (h : e.concerns s.devAddr = false) :
    (s.applyEvent e).alone = s.alone := by
  cases e with
  | move m => cases h
  | frame k dev v r =>
    have hdev : dev ≠ s.alone.devAddr := of_decide_eq_false h
    rw [State.applyEvent, State.alone_foreignFrame, State.afterFailedWrite, State.afterWrite_other hdev]
    simp

theorem State.environment_alone_filter (s : State) (events : List BusEvent) :
    (s.environment events).alone = (s.environment (events.filter (·.concerns s.devAddr))).alone := by
  induction events generalizing s with
  | nil => rfl
  | cons e rest ih =>
    cases he : e.concerns s.devAddr with
    | true =>
      rw [List.filter_cons_of_pos he, State.environment_cons, State.environment_cons, ih, State.applyEvent_devAddr]
    | false =>
      rw [List.filter_cons_of_neg (Bool.eq_false_iff.mp he), State.environment_cons, ← ih]
      exact State.environment_alone_congr (State.applyEvent_alone_other he) rest

/-- Two states that are alike without the frames to other devices have transactions that are. -/
theorem State.atBus_alone_congr (h : s.alone = u.alone) (hs : s.busTurns ≠ []) :
    s.nextTurn.result = u.nextTurn.result ∧ s.atBus.alone = u.atBus.alone := by
  have hdev : s.devAddr = u.devAddr := (congrArg State.devAddr h :)
  have hturns : s.busTurns.map (BusTurn.alone s.devAddr) = u.busTurns.map (BusTurn.alone u.devAddr) :=
    (congrArg State.busTurns h :)
  cases hst : s.busTurns with
  | nil => exact absurd hst hs
  | cons a l =>
    cases hut : u.busTurns with
    | nil => simp [hst, hut] at hturns
    | cons b l' =>
      rw [hst, hut] at hturns
      obtain ⟨hab, hl⟩ := List.cons.inj hturns
      have hresult : a.result = b.result := (congrArg BusTurn.result hab :)
      have hevents : a.events.filter (·.concerns s.devAddr) = b.events.filter (·.concerns u.devAddr) :=
        (congrArg BusTurn.events hab :)
      have hdrop : State.alone { s with busTurns := l } = State.alone { u with busTurns := l' } := by
        calc State.alone { s with busTurns := l } = { s.alone with busTurns := l.map (BusTurn.alone s.devAddr) } := rfl
          _ = { u.alone with busTurns := l'.map (BusTurn.alone u.devAddr) } := by rw [h]; simp [hl]
      refine ⟨by rw [State.nextTurn_cons hst, State.nextTurn_cons hut, hresult], ?_⟩
      rw [State.atBus_cons hst, State.atBus_cons hut, State.environment_alone_filter,
        State.environment_alone_filter { u with busTurns := l' }]
      exact hevents ▸ State.environment_alone_congr hdrop _

theorem State.memRead_alone_congr (h : s.alone = u.alone) (hs : s.busTurns ≠ []) (k : FrameKind) :
    AgreeUpTo State.alone (s.memRead k) (u.memRead k) := by
  obtain ⟨hresult, hbus⟩ := State.atBus_alone_congr h hs
  have hheader := State.headerTo_congr (s := s) (t := u) (congrArg State.devAddr h :) (k.header 0#7)
  have hregs : s.atBus.regs = u.atBus.regs := (congrArg State.regs hbus :)
  cases hr : s.nextTurn.result with
  | ok =>
    rw [State.memRead_ok hr, State.memRead_ok (hresult ▸ hr), hregs, hheader]
    exact ⟨rfl, by rw [State.alone_record_block, State.alone_record_block, hbus]⟩
  | err e taken =>
    rw [State.memRead_err hr, State.memRead_err (hresult ▸ hr), hheader]
    exact ⟨rfl, by rw [State.alone_record_block, State.alone_record_block, hbus]⟩

theorem State.memWrite_alone_congr (h : s.alone = u.alone) (hs : s.busTurns ≠ []) (k : FrameKind)
    (payload : List Byte) :
    AgreeUpTo State.alone (s.memWrite k payload) (u.memWrite k payload) := by
  obtain ⟨hresult, hbus⟩ := State.atBus_alone_congr h hs
  have hheader := State.headerTo_congr (s := s) (t := u) (congrArg State.devAddr h :) (k.header 0#7)
  have hregs : s.atBus.regs = u.atBus.regs := (congrArg State.regs hbus :)
  cases hr : s.nextTurn.result with
  | ok =>
    rw [State.memWrite_ok hr, State.memWrite_ok (hresult ▸ hr), hregs, hheader]
    exact ⟨rfl, congrArg (fun w => (State.setRegs w _).record _) hbus⟩
  | err e taken =>
    rw [State.memWrite_err hr, State.memWrite_err (hresult ▸ hr), hregs, hheader]
    refine ⟨rfl, ?_⟩
    rw [State.alone_record_block, State.alone_record_block]
    cases taken with
    | false => exact congrArg (State.record · _) hbus
    | true => exact congrArg (fun w => (State.setRegs w _).record _) hbus

end

/-- The states to compare: alike without the frames to other devices, with the two turns that an operation may use. -/
def AloneWithTurns (s u : State) : Prop := s.alone = u.alone ∧ 2 ≤ s.busTurns.length

theorem aloneWithTurns_agreement : Agreement State.alone AloneWithTurns where
  respond := State.alone_respond
  cache _ _ := rfl
  debounce s now edge := s.debounce_project now edge s.alone_idem rfl rfl (State.alone_idem _).symm
    (State.alone_idem _).symm (State.alone_idem _).symm
  take _ := rfl
  down _ := rfl
  odd _ := rfl
  clock _ := rfl
  limited _ _ := rfl
  view _ _ h := h.1
  poll _ _ now h := ⟨congrArg (State.recordPoll · now) h.1, h.2⟩
  read _ _ k h := State.memRead_alone_congr h.1 (List.ne_nil_of_length_pos (by have := h.2; omega)) k
  write _ _ k payload h := State.memWrite_alone_congr h.1 (List.ne_nil_of_length_pos (by have := h.2; omega)) k payload
  clear s u h := by
    obtain ⟨hsu, hlength⟩ := h
    have hread := State.memRead_alone_congr hsu (List.ne_nil_of_length_pos (by omega)) .rdKey
    refine State.memWrite_alone_congr hread.2 (List.ne_nil_of_length_pos ?_) _ _
    rw [State.memRead_busTurns, List.length_tail]
    omega

/-- Settles O57: the script with the frames to other devices and the one without agree for the two transactions that an
operation makes at most. -/
theorem otherInstancesAreHarmless : Obligations.OtherInstancesAreHarmless :=
  fun s _ hi hlength => aloneWithTurns_agreement.exec hi ⟨s.alone_idem.symm, hlength⟩

/-! ### Failed writes that were taken -/

theorem BusTurn.strict_events (turn : BusTurn) : turn.strict.events = turn.events := by
  unfold BusTurn.strict
  split <;> rfl

theorem BusTurn.strict_ok {turn : BusTurn} (h : turn.result = .ok) : turn.strict.result = .ok := by
  rw [BusTurn.strict, h]
  exact h

theorem BusTurn.strict_err {turn : BusTurn} {e : Byte} {taken : Bool} (h : turn.result = .err e taken) :
    turn.strict.result = .err e false := by
  rw [BusTurn.strict, h]

/-- The state without its script. -/
def State.unscripted (s : State) : State := { s with busTurns := [] }

/-- What the block and its caller have of a state: all but the script and the peripheral's cells. -/
def State.told (s : State) : State := { s with busTurns := [], regs := [] }

theorem State.told_congr {s u : State} (h : s.unscripted = u.unscripted) : s.told = u.told :=
  congrArg (State.setRegs · []) h

theorem State.unscripted_applyEvent (s : State) (e : BusEvent) :
    (s.applyEvent e).unscripted = s.unscripted.applyEvent e := by
  cases e with
  | move m => cases m <;> rfl
  | frame k dev v r =>
    have answer : (s.afterAnswer k dev).unscripted = s.unscripted.afterAnswer k dev := apply_ite State.unscripted _ _ _
    have write (payload) : (s.afterWrite k dev payload).unscripted = s.unscripted.afterWrite k dev payload :=
      apply_ite State.unscripted _ _ _
    have failed (payload taken) : (s.afterFailedWrite k dev payload taken).unscripted =
        s.unscripted.afterFailedWrite k dev payload taken := by cases taken <;> [rfl; exact write payload]
    cases hk : k.isWrite <;> cases r <;>
      simp only [State.applyEvent, State.foreignFrame, State.readAs, State.writeAs, hk, Bool.false_eq_true, if_false,
        if_true]
    · exact congrArg (State.record · _) answer
    · rfl
    · exact congrArg (State.record · _) (write _)
    · exact congrArg (State.record · _) (failed _ _)

section
variable {s u : State} {turn : BusTurn} {rest rest' : List BusTurn}

theorem State.atBus_unscripted (h : s.busTurns = turn :: rest) :
    s.atBus.unscripted = s.unscripted.environment turn.events := by
  rw [State.atBus_cons h]
  exact State.environment_comm State.unscripted_applyEvent _ _

/-- Until its transaction acts nothing depends on whether it will be taken. -/
theorem State.atBus_strict (h : s.unscripted = u.unscripted) (hs : s.busTurns = turn :: rest)
    (hu : u.busTurns = turn.strict :: rest') : s.atBus.unscripted = u.atBus.unscripted := by
  rw [State.atBus_unscripted hs, State.atBus_unscripted hu, BusTurn.strict_events, h]

/-- A read does not depend on it at all. -/
theorem State.memRead_strict (h : s.unscripted = u.unscripted) (hs : s.busTurns = turn :: rest)
    (hu : u.busTurns = turn.strict :: rest') (k : FrameKind) :
    AgreeUpTo State.unscripted (s.memRead k) (u.memRead k) := by
  have hbus := State.atBus_strict h hs hu
  have hheader := State.headerTo_congr (s := s) (t := u) (congrArg State.devAddr h :) (k.header 0#7)
  have hregs : s.atBus.regs = u.atBus.regs := (congrArg State.regs hbus :)
  have hs' := State.nextTurn_cons hs
  have hu' := State.nextTurn_cons hu
  cases hr : turn.result with
  | ok =>
    rw [State.memRead_ok (by rw [hs', hr]), State.memRead_ok (by rw [hu', BusTurn.strict_ok hr]), hregs, hheader]
    exact ⟨rfl, congrArg (State.record · _) hbus⟩
  | err e taken =>
    rw [State.memRead_err (by rw [hs', hr]), State.memRead_err (by rw [hu', BusTurn.strict_err hr]), hheader]
    exact ⟨rfl, congrArg (State.record · _) hbus⟩

/-- A write depends on it in the peripheral's cells only. -/
theorem State.memWrite_strict (h : s.unscripted = u.unscripted) (hs : s.busTurns = turn :: rest)
    (hu : u.busTurns = turn.strict :: rest') (k : FrameKind) (payload : List Byte) :
    AgreeUpTo State.told (s.memWrite k payload) (u.memWrite k payload) := by
  have hbus := State.told_congr (State.atBus_strict h hs hu)
  have hheader := State.headerTo_congr (s := s) (t := u) (congrArg State.devAddr h :) (k.header 0#7)
  have hs' := State.nextTurn_cons hs
  have hu' := State.nextTurn_cons hu
  cases hr : turn.result with
  | ok =>
    rw [State.memWrite_ok (by rw [hs', hr]), State.memWrite_ok (by rw [hu', BusTurn.strict_ok hr]), hheader]
    exact ⟨rfl, congrArg (State.record · _) hbus⟩
  | err e taken =>
    rw [State.memWrite_err (by rw [hs', hr]), State.memWrite_err (by rw [hu', BusTurn.strict_err hr]), hheader]
    cases taken <;> exact ⟨rfl, congrArg (State.record · _) hbus⟩

end

/-- The states to compare: the same but for the script, of which two turns are the same but for failed writes taken. -/
def StrictScript (s u : State) : Prop :=
  s.unscripted = u.unscripted ∧
    ∃ a b rest, s.busTurns = a :: b :: rest ∧ u.busTurns = a.strict :: b.strict :: rest

theorem strictScript_agreement : Agreement State.told StrictScript where
  respond _ _ := rfl
  cache _ _ := rfl
  debounce s now edge := s.debounce_project now edge rfl rfl rfl rfl rfl rfl
  take _ := rfl
  down _ := rfl
  odd _ := rfl
  clock _ := rfl
  limited _ _ := rfl
  view _ _ h := State.told_congr h.1
  poll _ _ now h := ⟨congrArg (State.recordPoll · now) h.1, h.2⟩
  read _ _ k h := by
    obtain ⟨h, a, b, rest, hs, hu⟩ := h
    obtain ⟨hanswer, hleft⟩ := State.memRead_strict h hs hu k
    exact ⟨hanswer, State.told_congr hleft⟩
  write _ _ k payload h := by
    obtain ⟨h, a, b, rest, hs, hu⟩ := h
    exact State.memWrite_strict h hs hu k payload
  clear s u h := by
    obtain ⟨h, a, b, rest, hs, hu⟩ := h
    obtain ⟨_, hleft⟩ := State.memRead_strict h hs hu .rdKey
    refine State.memWrite_strict (turn := b) (rest := rest) (rest' := rest) hleft ?_ ?_ _ _
    · rw [State.memRead_busTurns, hs, List.tail_cons]
    · rw [State.memRead_busTurns, hu, List.tail_cons]

/-- States that the block and its caller cannot tell apart agree in all that the spec gives either of them. -/
theorem told_fields {t u : State} (h : t.told = u.told) :
    t.responses = u.responses ∧ t.trace = u.trace ∧ SameConfig t u ∧ SameDebounce t u ∧ SameCache t u := by
  simp only [State.told, State.mk.injEq] at h
  simp [SameConfig, SameDebounce, SameCache, h]

/-- Settles O56: the acknowledge or value is stored although the operation ends with the error, and nothing else depends
on it. -/
theorem lateFailureLosesTheEdge : Obligations.LateFailureLosesTheEdge := by
  refine ⟨fun s i arg e hok hkey hclear hi => ?edge,
    fun s value e herr => ⟨fun hv => ?counter, fun hlow hhigh => ?gain⟩, fun s i a b rest hi => ?untold⟩
  case edge =>
    have hfails : s.KeyFails e (s.afterFailedClear e true) := ⟨true, .inr ⟨hok, hkey, hclear, rfl⟩⟩
    have hstatus : (s.afterFailedClear e true).keyStatus = 0x00#8 := State.clearKey_keyStatus _
    have hu := s.keyClear_failedIn e true
    obtain ⟨_, ⟨hcount, _, _, _, _, hdown, _⟩, _⟩ := hu.block
    have hresponses := congrArg (transportErrorRsp e :: ·) hu.responses
    rcases hi with rfl | ⟨rfl, hl⟩
    · exact ⟨_, execReadKeyStatus_fails hfails, hresponses, hstatus, hcount.symm, hdown.symm⟩
    · exact ⟨_, execPoll_fails hl hfails, hresponses, hstatus, hcount.symm, hdown.symm⟩
  case counter =>
    exact ⟨_, execWriteCounter_err hv herr, congrArg _ s.atBus_responses, Memory.read16_writeBlock_counterBytes _ _⟩
  case gain =>
    refine ⟨_, execWriteGain_err ⟨hlow, hhigh⟩ herr, congrArg _ s.atBus_responses, ?_⟩
    exact (congrArg BitVec.toNat (Memory.read_write_same _ _ _)).trans (lo8_toNat_of_gain hhigh)
  case untold =>
    obtain ⟨t, ht⟩ := exec_next i { s with busTurns := a :: b :: rest }
    obtain ⟨u, hu⟩ := exec_next i { s with busTurns := a.strict :: b.strict :: rest }
    have hagree := strictScript_agreement.exec hi (s := { s with busTurns := a :: b :: rest })
      (u := { s with busTurns := a.strict :: b.strict :: rest }) ⟨rfl, a, b, rest, rfl, rfl⟩
    rw [ht, hu] at hagree
    exact ⟨t, u, ht, hu, told_fields hagree⟩

end Sys2Proof.Machine
end
